-- ==== Sys2Proof/Word.lean ====
section
/-! DEFINITION. The word types of HMSYN (spec 00_scope.md R8, R9). -/

namespace Sys2Proof

/-- A 32-bit register value or command word (R40, R120). -/
abbrev Word := BitVec 32

/-- A byte of HMEM (R90). -/
abbrev Byte := BitVec 8

/-- A texel: four 16-bit lanes, B in bits 15:0, then G, R and A (R31). -/
abbrev Texel := BitVec 64

/-- A descriptor slot number, 0 to 15 (R35, R122). -/
abbrev Slot := BitVec 4

end Sys2Proof
end

