-- ==== Sys2Proof/Syntax.lean ====
section
/-! DEFINITION. The HMSYN command set, one constructor per row of the opcode table (R124, R125). -/

namespace Sys2Proof

/-- The commands of R124. A slot operand is the 4-bit field itself; `n` is the MERGE list length
COUNT = CNT + 1 of R122; the flags and modes are the FN sub-fields of R125. -/
inductive Instr where
  /-- NOP (R375). -/
  | nop
  /-- SYNTH d, mode (R200). -/
  | synth (d : Slot) (mode : BitVec 2)
  /-- NORMAL d, s and the flags Z3D, TAN, SHARP (R240). -/
  | normal (d s : Slot) (z3d tan sharp : Bool)
  /-- GRAD d, mode (R270). -/
  | grad (d : Slot) (mode : BitVec 2)
  /-- GLOW d and the flags WRAPX, WRAPY, CURVE, RECT (R285). -/
  | glow (d : Slot) (wrapx wrapy curve rect : Bool)
  /-- MERGE.ADD d, n (R321). -/
  | mergeAdd (d : Slot) (n : Nat)
  /-- MERGE.SUB d, n (R322). -/
  | mergeSub (d : Slot) (n : Nat)
  /-- MERGE.MUL d, n (R323). -/
  | mergeMul (d : Slot) (n : Nat)
  /-- MERGE mode 3, another spelling of the addition (R125, R321). -/
  | mergeAdd3 (d : Slot) (n : Nat)
  /-- COLORIZE.MUL d (R331). -/
  | colorizeMul (d : Slot)
  /-- COLORIZE.ADD d (R332). -/
  | colorizeAdd (d : Slot)
  /-- COLORIZE.SUB d (R333). -/
  | colorizeSub (d : Slot)
  /-- COLORIZE.GRAY d (R334). -/
  | colorizeGray (d : Slot)
  /-- COLORIZE.INV d (R335). -/
  | colorizeInv (d : Slot)
  /-- COLORIZE mode 5, no change (R336). -/
  | colorizeNop5 (d : Slot)
  /-- COLORIZE mode 6, no change (R336). -/
  | colorizeNop6 (d : Slot)
  /-- COLORIZE mode 7, no change (R336). -/
  | colorizeNop7 (d : Slot)
  /-- COPY d, s (R340). -/
  | copy (d s : Slot)
  /-- RELEASE d (R342). -/
  | release (d : Slot)
  /-- IMPORT.G d, one channel (R363). -/
  | importG (d : Slot)
  /-- IMPORT.RGB d, three channels (R364). -/
  | importRgb (d : Slot)
  /-- IMPORT.RGBA d, four channels (R365). -/
  | importRgba (d : Slot)
  /-- IMPORT with CH = 3, illegal (R127). -/
  | illegalImport3
  /-- EXPORT s (R366). -/
  | exportBuf (s : Slot)
  /-- RAWFILL s (R370). -/
  | rawfill (s : Slot)
  /-- OP 0xC to 0xF, illegal (R127); `op` is the OP field. -/
  | illegal (op : BitVec 4)
  deriving DecidableEq, Repr

end Sys2Proof
end

