-- ==== Sys2Proof/WellFormed.lean ====
section
/-! DEFINITION. Which terms of `Instr` stand for a command as R129 writes it. -/

namespace Sys2Proof

/-- A MERGE list has 1 to MAX_MERGE = 8 entries (R129, R134). -/
def mergeCountOk (n : Nat) : Bool := decide (1 ≤ n) && decide (n ≤ 8)

/-- GRAD mode 3 is read as mode 0 by the decoder, so no decoded GRAD carries it (R132). -/
def gradModeOk (mode : BitVec 2) : Bool := decide (mode ≠ 3#2)

/-- The OP field of an illegal command is 0xC to 0xF (R127). -/
def illegalOpOk (op : BitVec 4) : Bool := decide (12#4 ≤ op)

/-- The well-formed commands: those that some command word decodes to. -/
def Instr.WellFormed : Instr → Bool
  | .nop => true
  | .synth _ _ => true
  | .normal _ _ _ _ _ => true
  | .grad _ mode => gradModeOk mode
  | .glow _ _ _ _ _ => true
  | .mergeAdd _ n => mergeCountOk n
  | .mergeSub _ n => mergeCountOk n
  | .mergeMul _ n => mergeCountOk n
  | .mergeAdd3 _ n => mergeCountOk n
  | .colorizeMul _ => true
  | .colorizeAdd _ => true
  | .colorizeSub _ => true
  | .colorizeGray _ => true
  | .colorizeInv _ => true
  | .colorizeNop5 _ => true
  | .colorizeNop6 _ => true
  | .colorizeNop7 _ => true
  | .copy _ _ => true
  | .release _ => true
  | .importG _ => true
  | .importRgb _ => true
  | .importRgba _ => true
  | .illegalImport3 => true
  | .exportBuf _ => true
  | .rawfill _ => true
  | .illegal op => illegalOpOk op

end Sys2Proof
end

