-- ==== Sys2Proof/Decode.lean ====
section
/-! DEFINITION. The decoder of command words (R121, R122, R132) and the encoder (R129). -/

namespace Sys2Proof

/-- The field of `c` that starts at bit `lo` and is `len` bits wide (R9). -/
def field (c : Word) (lo len : Nat) : BitVec len := c.extractLsb' lo len

/-- OP, bits 3:0 (R121). -/
def opField (c : Word) : BitVec 4 := field c 0 4

/-- DST, bits 7:4 (R121). -/
def dstField (c : Word) : Slot := field c 4 4

/-- SRC, bits 11:8 (R121). -/
def srcField (c : Word) : Slot := field c 8 4

/-- CNT, bits 14:12 (R121). -/
def cntField (c : Word) : BitVec 3 := field c 12 3

/-- FN, bits 23:16 (R121). -/
def fnField (c : Word) : BitVec 8 := field c 16 8

/-- COUNT = CNT + 1 (R122). -/
def countOf (c : Word) : Nat := (cntField c).toNat + 1

/-- FN[1:0], the MODE of SYNTH, GRAD and MERGE and the CH of IMPORT (R125). -/
def mode2 (c : Word) : BitVec 2 := (fnField c).extractLsb' 0 2

/-- FN[2:0], the MODE of COLORIZE (R125). -/
def mode3 (c : Word) : BitVec 3 := (fnField c).extractLsb' 0 3

/-- The MERGE command a word with OP = 5 names, by FN[1:0] (R125, R321). -/
def decodeMerge (c : Word) : Instr :=
  match mode2 c with
  | 0#2 => .mergeAdd (dstField c) (countOf c)
  | 1#2 => .mergeSub (dstField c) (countOf c)
  | 2#2 => .mergeMul (dstField c) (countOf c)
  | _ => .mergeAdd3 (dstField c) (countOf c)

/-- The COLORIZE command a word with OP = 6 names, by FN[2:0] (R125). -/
def decodeColorize (c : Word) : Instr :=
  match mode3 c with
  | 0#3 => .colorizeMul (dstField c)
  | 1#3 => .colorizeAdd (dstField c)
  | 2#3 => .colorizeSub (dstField c)
  | 3#3 => .colorizeGray (dstField c)
  | 4#3 => .colorizeInv (dstField c)
  | 5#3 => .colorizeNop5 (dstField c)
  | 6#3 => .colorizeNop6 (dstField c)
  | _ => .colorizeNop7 (dstField c)

/-- The command a word with OP = 9 names, by FN[1:0] (R125, R127). -/
def decodeImport (c : Word) : Instr :=
  match mode2 c with
  | 0#2 => .importG (dstField c)
  | 1#2 => .importRgb (dstField c)
  | 2#2 => .importRgba (dstField c)
  | _ => .illegalImport3

/-- The decode procedure of R132. It is total: every word is a command or the illegal one (R126). -/
def decode (c : Word) : Instr :=
  match opField c with
  | 0x0#4 => .nop
  | 0x1#4 => .synth (dstField c) (mode2 c)
  | 0x2#4 => .normal (dstField c) (srcField c)
      ((fnField c).getLsbD 0) ((fnField c).getLsbD 1) ((fnField c).getLsbD 2)
  | 0x3#4 => .grad (dstField c) (if mode2 c = 3#2 then 0#2 else mode2 c)
  | 0x4#4 => .glow (dstField c) ((fnField c).getLsbD 0) ((fnField c).getLsbD 1)
      ((fnField c).getLsbD 2) ((fnField c).getLsbD 3)
  | 0x5#4 => decodeMerge c
  | 0x6#4 => decodeColorize c
  | 0x7#4 => .copy (dstField c) (srcField c)
  | 0x8#4 => .release (dstField c)
  | 0x9#4 => decodeImport c
  | 0xA#4 => .exportBuf (srcField c)
  | 0xB#4 => .rawfill (srcField c)
  | op => .illegal op

/-- Why a run of bytes is not a command word: a command is exactly one 32-bit word (R120). -/
inductive DecodeError where
  /-- fewer than four bytes -/
  | truncated
  /-- more than four bytes: no command has a second word -/
  | tooLong
  deriving DecidableEq, Repr

/-- The command word of four bytes in the window's little-endian order (R94). -/
def wordOfBytes (b0 b1 b2 b3 : Byte) : Word := b3 ++ b2 ++ b1 ++ b0

/-- Decode a run of bytes, the lowest address first. -/
def decodeBytes : List Byte → Except DecodeError Instr
  | [b0, b1, b2, b3] => .ok (decode (wordOfBytes b0 b1 b2 b3))
  | _ :: _ :: _ :: _ :: _ :: _ => .error .tooLong
  | _ => .error .truncated

/-- The four bytes of the word `w`, the lowest address first (R94). -/
def bytesOfWord (w : Nat) : List Byte :=
  [BitVec.ofNat 8 w, BitVec.ofNat 8 (w >>> 8), BitVec.ofNat 8 (w >>> 16), BitVec.ofNat 8 (w >>> 24)]

/-- The instruction read from the low `nbits` bits of `w`, laid out as the four bytes of a command
word with zeros above; an instruction longer than one command word is refused. -/
def decodeTableWord (nbits w : Nat) : Option Instr :=
  if nbits ≤ 32 then (decodeBytes (bytesOfWord (w % 2 ^ nbits))).toOption else none

/-- The CMD32 word with the given fields, its ignored bits 0 (R121). -/
def cmdWord (op : BitVec 4) (dst src : Slot) (cnt : BitVec 3) (fn : BitVec 8) : Word :=
  0#8 ++ fn ++ 0#1 ++ cnt ++ src ++ dst ++ op

/-- The CNT field of a list length (R122, R129). -/
def cntOf (n : Nat) : BitVec 3 := BitVec.ofNat 3 (n - 1)

/-- The FN field from its low four flags (R125). -/
def fnFlags (b3 b2 b1 b0 : Bool) : BitVec 8 :=
  0#4 ++ BitVec.ofBool b3 ++ BitVec.ofBool b2 ++ BitVec.ofBool b1 ++ BitVec.ofBool b0

/-- The word of a command, by R129. -/
def encode : Instr → Word
  | .nop => cmdWord 0x0#4 0 0 0 0
  | .synth d mode => cmdWord 0x1#4 d 0 0 (mode.setWidth 8)
  | .normal d s z3d tan sharp => cmdWord 0x2#4 d s 0 (fnFlags false sharp tan z3d)
  | .grad d mode => cmdWord 0x3#4 d 0 0 (mode.setWidth 8)
  | .glow d wrapx wrapy curve rect => cmdWord 0x4#4 d 0 0 (fnFlags rect curve wrapy wrapx)
  | .mergeAdd d n => cmdWord 0x5#4 d 0 (cntOf n) 0
  | .mergeSub d n => cmdWord 0x5#4 d 0 (cntOf n) 1
  | .mergeMul d n => cmdWord 0x5#4 d 0 (cntOf n) 2
  | .mergeAdd3 d n => cmdWord 0x5#4 d 0 (cntOf n) 3
  | .colorizeMul d => cmdWord 0x6#4 d 0 0 0
  | .colorizeAdd d => cmdWord 0x6#4 d 0 0 1
  | .colorizeSub d => cmdWord 0x6#4 d 0 0 2
  | .colorizeGray d => cmdWord 0x6#4 d 0 0 3
  | .colorizeInv d => cmdWord 0x6#4 d 0 0 4
  | .colorizeNop5 d => cmdWord 0x6#4 d 0 0 5
  | .colorizeNop6 d => cmdWord 0x6#4 d 0 0 6
  | .colorizeNop7 d => cmdWord 0x6#4 d 0 0 7
  | .copy d s => cmdWord 0x7#4 d s 0 0
  | .release d => cmdWord 0x8#4 d 0 0 0
  | .importG d => cmdWord 0x9#4 d 0 0 0
  | .importRgb d => cmdWord 0x9#4 d 0 0 1
  | .importRgba d => cmdWord 0x9#4 d 0 0 2
  | .illegalImport3 => cmdWord 0x9#4 0 0 0 3
  | .exportBuf s => cmdWord 0xA#4 0 s 0 0
  | .rawfill s => cmdWord 0xB#4 0 s 0 0
  | .illegal op => cmdWord op 0 0 0 0

end Sys2Proof
end

