-- ==== Sys2Proof/Config.lean ====
section
/-! DEFINITION. The open parameters of HMSYN (R7; 93_implementation_defined.md section 3) and the
free values of the model. A constant without a body is open: nothing can be proved of its value. -/

namespace Sys2Proof

/-- TMEM_TEXELS - 1, open in 0 .. 2^32 - 1 (R7). -/
opaque Config.tmemLast : BitVec 32

/-- HMEM_SIZE - 1, open in 0 .. 2^32 - 1 (R7). -/
opaque Config.hmemLast : BitVec 32

/-- HMSYN_BASE, the base address of the register window, which the platform gives (R100). -/
opaque Config.hmsynBase : Nat

/-- A free 64-bit value: draw number, texel index (93_implementation_defined.md U1, U3, U5, U6). -/
opaque Config.freeTexel : Nat → Nat → BitVec 64

/-- A free byte: draw number, byte address (93_implementation_defined.md U4, U5, U6). -/
opaque Config.freeByte : Nat → Nat → BitVec 8

/-- A free choice among several values: draw number, texel index (93_implementation_defined.md U3). -/
opaque Config.freeChoice : Nat → Nat → Nat

/-- What an HMEM byte that nothing has written holds: a free value for each address (log 4). -/
opaque Config.hmemByte : Nat → BitVec 8

/-- The free part of a POWFN other than the exact real power (R7, R177). -/
opaque Config.powfn : Rat → Rat → Rat

/-- OCTAVE_EXPONENT_ORIGIN (R7, R207). -/
inductive OctaveOrigin where
  | absolute
  | relative
  deriving DecidableEq, Repr

/-- POWFN (R7, R177): the exact real power, or another function with the special cases of R177. -/
inductive PowFn where
  | exactReal
  | other
  deriving DecidableEq, Repr

/-- A lattice (R60): the permutation P[0..511] and the gradients G[0..255] in Q14. -/
structure Lattice where
  perm : List Nat
  grad : List (Int × Int)
  deriving DecidableEq, Repr

/-- The implementation parameters a model takes as arguments (R7, R100). They are fixed for a machine. -/
structure Params where
  /-- TMEM_TEXELS -/
  tmemTexels : Nat
  /-- HMEM_SIZE -/
  hmemSize : Nat
  /-- LATTICE: what the lattice sequencer builds (R60, R61) -/
  lattice : Lattice
  /-- OCTAVE_EXPONENT_ORIGIN -/
  octaveOrigin : OctaveOrigin
  /-- POWFN -/
  powfn : PowFn
  /-- HMSYN_BASE (R100) -/
  hmsynBase : Nat
  deriving DecidableEq, Repr

end Sys2Proof
end

