-- ==== Sys2Proof/Machine/Tables.lean ====
section
/-! DEFINITION. The constant tables: the sine ROM (R66) and the default lattice (R60 to R63), and the
lattice construction of R60. -/

namespace Sys2Proof.Machine

/-- Entries 0 to 63 of `sineRom`. -/
def sineRom0 : List Int :=
  [0, 402, 804, 1205, 1606, 2006, 2404, 2801, 3196, 3590, 3981, 4370, 4756, 5139, 5520, 5897,
   6270, 6639, 7005, 7366, 7723, 8076, 8423, 8765, 9102, 9434, 9760, 10080, 10394, 10702, 11003, 11297,
   11585, 11866, 12140, 12406, 12665, 12916, 13160, 13395, 13623, 13842, 14053, 14256, 14449, 14635, 14811, 14978,
   15137, 15286, 15426, 15557, 15679, 15791, 15893, 15986, 16069, 16143, 16207, 16261, 16305, 16340, 16364, 16379]

/-- Entries 64 to 127 of `sineRom`. -/
def sineRom1 : List Int :=
  [16384, 16379, 16364, 16340, 16305, 16261, 16207, 16143, 16069, 15986, 15893, 15791, 15679, 15557, 15426, 15286,
   15137, 14978, 14811, 14635, 14449, 14256, 14053, 13842, 13623, 13395, 13160, 12916, 12665, 12406, 12140, 11866,
   11585, 11297, 11003, 10702, 10394, 10080, 9760, 9434, 9102, 8765, 8423, 8076, 7723, 7366, 7005, 6639,
   6270, 5897, 5520, 5139, 4756, 4370, 3981, 3590, 3196, 2801, 2404, 2006, 1606, 1205, 804, 402]

/-- Entries 128 to 191 of `sineRom`. -/
def sineRom2 : List Int :=
  [0, -402, -804, -1205, -1606, -2006, -2404, -2801, -3196, -3590, -3981, -4370, -4756, -5139, -5520, -5897,
   -6270, -6639, -7005, -7366, -7723, -8076, -8423, -8765, -9102, -9434, -9760, -10080, -10394, -10702, -11003, -11297,
   -11585, -11866, -12140, -12406, -12665, -12916, -13160, -13395, -13623, -13842, -14053, -14256, -14449, -14635, -14811, -14978,
   -15137, -15286, -15426, -15557, -15679, -15791, -15893, -15986, -16069, -16143, -16207, -16261, -16305, -16340, -16364, -16379]

/-- Entries 192 to 255 of `sineRom`. -/
def sineRom3 : List Int :=
  [-16384, -16379, -16364, -16340, -16305, -16261, -16207, -16143, -16069, -15986, -15893, -15791, -15679, -15557, -15426, -15286,
   -15137, -14978, -14811, -14635, -14449, -14256, -14053, -13842, -13623, -13395, -13160, -12916, -12665, -12406, -12140, -11866,
   -11585, -11297, -11003, -10702, -10394, -10080, -9760, -9434, -9102, -8765, -8423, -8076, -7723, -7366, -7005, -6639,
   -6270, -5897, -5520, -5139, -4756, -4370, -3981, -3590, -3196, -2801, -2404, -2006, -1606, -1205, -804, -402]

/-- Entries 256 to 256 of `sineRom`. -/
def sineRom4 : List Int :=
  [0]

/-- The sine ROM S[0..256] (R66). -/
def sineRom : List Int :=
  sineRom0 ++ sineRom1 ++ sineRom2 ++ sineRom3 ++ sineRom4

/-- Entries 0 to 63 of `defaultPerm0`. -/
def defaultPerm00 : List Nat :=
  [60, 95, 130, 181, 16, 97, 199, 145, 12, 166, 71, 114, 156, 216, 70, 251,
   222, 1, 180, 144, 14, 45, 38, 5, 54, 188, 160, 113, 87, 6, 240, 20,
   106, 252, 120, 8, 138, 254, 228, 193, 246, 250, 75, 122, 189, 79, 149, 83,
   171, 229, 118, 24, 40, 99, 221, 0, 132, 66, 126, 84, 218, 140, 90, 18]

/-- Entries 64 to 127 of `defaultPerm0`. -/
def defaultPerm01 : List Nat :=
  [13, 243, 68, 72, 255, 219, 154, 143, 195, 249, 207, 163, 150, 103, 238, 211,
   191, 182, 175, 92, 35, 3, 52, 10, 55, 134, 241, 86, 162, 42, 151, 98,
   201, 64, 167, 177, 231, 19, 102, 59, 204, 117, 76, 139, 101, 4, 183, 200,
   67, 253, 81, 77, 37, 23, 104, 63, 96, 136, 247, 232, 125, 32, 29, 129]

/-- Entries 128 to 191 of `defaultPerm0`. -/
def defaultPerm02 : List Nat :=
  [58, 44, 187, 186, 89, 105, 41, 224, 196, 233, 179, 213, 33, 82, 230, 209,
   208, 26, 148, 108, 78, 157, 31, 15, 141, 131, 110, 128, 100, 127, 85, 168,
   226, 135, 21, 147, 155, 9, 49, 174, 244, 225, 109, 47, 115, 192, 165, 203,
   206, 169, 237, 30, 116, 36, 50, 159, 80, 172, 25, 184, 111, 146, 210, 234]

/-- Entries 192 to 255 of `defaultPerm0`. -/
def defaultPerm03 : List Nat :=
  [245, 69, 173, 39, 137, 153, 123, 217, 7, 74, 202, 93, 94, 161, 236, 185,
   170, 198, 27, 215, 205, 91, 2, 214, 194, 56, 48, 65, 197, 242, 220, 57,
   235, 88, 121, 17, 53, 239, 119, 164, 212, 34, 248, 107, 51, 11, 124, 43,
   112, 28, 152, 178, 22, 61, 133, 62, 142, 46, 223, 176, 158, 73, 227, 190]

/-- The default permutation P0[0..255] (R62). -/
def defaultPerm0 : List Nat :=
  defaultPerm00 ++ defaultPerm01 ++ defaultPerm02 ++ defaultPerm03

/-- Entries 0 to 63 of `defaultGrads`. -/
def defaultGrads0 : List (Int × Int) :=
  [(-10088, -12910), (-8203, -14185), (14770, 7094), (-12991, 9984), (-4110, -15860), (14074, -8388),
   (13478, 9314), (-11347, -11821), (-15131, 6285), (-2985, 16110), (-14471, -7683), (7118, 14757),
   (644, 16371), (-16230, 2243), (-12917, 10079), (10420, 12643), (-1914, -16273), (9236, -13533),
   (13367, -9474), (-876, 16361), (-14566, 7500), (-7299, 14668), (16024, 3414), (-2895, 16126),
   (15564, -5120), (-10282, -12756), (1662, 16300), (14798, -7032), (-6825, 14896), (11554, 11616),
   (-5391, 15471), (-12633, -10434), (-9391, 13426), (12416, 10690), (15223, 6060), (2107, 16249),
   (324, -16381), (9413, -13412), (10586, -12505), (15837, 4199), (-15426, -5520), (16165, 2675),
   (-15916, -3888), (15443, 5476), (13464, 9336), (-11506, -11663), (15359, 5707), (15462, -5417),
   (-13960, -8577), (-16384, 91), (-16348, -1090), (5307, -15501), (8219, 14173), (-16324, -1396),
   (-16330, 1341), (8070, -14260), (14821, 6985), (11363, -11805), (4689, 15705), (14390, -7835),
   (2796, -16144), (13238, 9654), (-11930, -11235), (6775, 14917)]

/-- Entries 64 to 127 of `defaultGrads`. -/
def defaultGrads1 : List (Int × Int) :=
  [(10717, -12394), (-14139, 8278), (8589, -13953), (11400, -11768), (-14427, 7766), (10204, -12818),
   (11062, 12085), (-16135, 2847), (16198, -2464), (-5990, 15250), (-9142, -13598), (12450, 10651),
   (7457, 14589), (-12577, 10500), (16384, 75), (13296, 9572), (10410, -12651), (14001, -8510),
   (-14724, 7186), (-12465, 10633), (15824, -4247), (-14871, -6882), (15413, 5559), (3636, 15975),
   (7328, 14654), (15370, 5676), (12912, -10086), (15555, -5146), (12572, 10506), (9890, 13065),
   (9457, -13381), (5281, 15510), (13095, 9845), (16376, -507), (9698, 13205), (-2445, -16201),
   (-16384, 21), (-9549, 13314), (15759, -4478), (5596, 15398), (-3757, -15947), (7004, 14811),
   (-15034, 6512), (-15759, -4483), (-14062, -8407), (5543, 15418), (6928, -14847), (7120, 14755),
   (833, -16363), (13979, 8547), (7703, 14461), (13230, -9666), (12890, 10114), (15090, -6381),
   (-15467, -5404), (-8401, -14066), (-13492, 9296), (10801, 12320), (-6400, 15083), (-14954, 6694),
   (-15510, -5281), (12914, 10083), (-4806, 15664), (-16108, 2992)]

/-- Entries 128 to 191 of `defaultGrads`. -/
def defaultGrads2 : List (Int × Int) :=
  [(-4768, 15675), (-1561, 16309), (-16059, -3249), (-7055, 14789), (-15595, 5023), (-15730, -4584),
   (12272, 10854), (10020, 12963), (1037, -16351), (-4004, 15893), (-6706, -14949), (11119, 12036),
   (-86, -16384), (3745, -15950), (-16161, -2697), (-9742, 13174), (8629, 13927), (5793, -15326),
   (-177, -16384), (12579, 10499), (-10792, -12327), (2385, -16210), (11618, -11552), (-15644, 4867),
   (5124, 15564), (9549, 13313), (-4630, -15716), (16326, -1386), (16315, -1497), (3987, 15893),
   (16230, 2253), (-16045, 3313), (-13046, -9912), (-11021, -12123), (-16089, -3105), (-10586, -12505),
   (16161, -2692), (-12314, -10807), (6500, -15040), (14325, 7955), (14977, -6642), (-6077, -15216),
   (-12192, 10947), (11556, -11618), (-7508, -14562), (14187, -8196), (-16381, -348), (8838, 13795),
   (-13716, -8963), (7153, 14740), (-16337, -1257), (9718, 13191), (-16249, -2113), (13036, -9926),
   (-7786, -14415), (-6502, 15038), (-11913, -11247), (14165, -8234), (16277, -1878), (-6092, 15209),
   (-16005, -3503), (16356, -944), (16112, -2974), (-8031, -14281)]

/-- Entries 192 to 255 of `defaultGrads`. -/
def defaultGrads3 : List (Int × Int) :=
  [(-12218, -10916), (-12639, -10425), (7221, -14706), (-893, -16360), (-10534, -12550), (15915, 3890),
   (9752, 13165), (3231, -16062), (-14848, -6925), (12551, -10532), (6803, -14904), (5242, -15523),
   (-11158, -11998), (16378, -424), (-15817, 4274), (16170, 2643), (16177, 2592), (-16376, 503),
   (3531, 15999), (-13673, -9026), (-16149, 2765), (3766, -15946), (-11252, 11909), (-3805, 15936),
   (-656, -16373), (-3580, -15989), (-6055, -15224), (16374, -558), (-9547, -13315), (-11572, 11598),
   (-10, 16384), (-479, -16377), (-16330, 1341), (8526, -13990), (-5958, 15262), (15067, -6437),
   (6646, 14975), (-15039, 6504), (14145, 8267), (12523, 10565), (13560, 9196), (-6168, 15178),
   (13358, 9487), (16356, -966), (-13216, -9684), (-8396, 14069), (-10869, 12260), (3934, 15904),
   (-8952, 13721), (14625, -7385), (8920, -13743), (-3145, 16079), (-1666, -16299), (16263, -1993),
   (10521, -12559), (6376, -15092), (5850, -15304), (6287, 15130), (-15997, 3538), (245, 16382),
   (10110, 12892), (6467, 15054), (8914, -13748), (14990, 6613)]

/-- The default gradients G[0..255] in Q14 (R63). -/
def defaultGrads : List (Int × Int) :=
  defaultGrads0 ++ defaultGrads1 ++ defaultGrads2 ++ defaultGrads3

/-- The default lattice: P0 twice, and the gradients (R60, R62, R63). -/
def defaultLattice : Lattice :=
  { perm := defaultPerm0 ++ defaultPerm0, grad := defaultGrads }

/-- The lattice RAM before its first build: no entry (log 9). -/
def blankLattice : Lattice :=
  { perm := [], grad := [] }

/-- The greatest number with `k` binary digits more than `r` holds that satisfies `P`, for a `P` that
is true up to some number and false above it: one digit of weight 2^(k-1), 2^(k-2), ... at a time. -/
def bitSearch (P : Nat → Bool) : Nat → Nat → Nat
  | 0, r => r
  | k + 1, r => if P (r + 2 ^ k) then bitSearch P k (r + 2 ^ k) else bitSearch P k r

/-- `isqrt n`, the greatest r with r * r <= n (R172). -/
def isqrt (n : Nat) : Nat := bitSearch (fun r => decide (r * r ≤ n)) (n.log2 / 2 + 1) 0

/-- One step of the lattice's linear congruential generator (R60). -/
def lcgNext (state : Nat) : Nat := (1664525 * state + 1013904223) % 2 ^ 32

/-- The result of Rnd(n) from the state after its step (R60). -/
def lcgPick (state n : Nat) : Nat := ((state >>> 16) * n) >>> 16

/-- The shuffle of R60: `todo` positions are left from position `k`; gives the list and the state. -/
def shuffleFrom : Nat → Nat → Nat → List Nat → List Nat × Nat
  | 0, _, state, l => (l, state)
  | todo + 1, k, state, l =>
    let state' := lcgNext state
    let j := k + lcgPick state' (256 - k)
    shuffleFrom todo (k + 1) state' ((l.set k (l.getD j 0)).set j (l.getD k 0))

/-- One gradient of R60: draw until 0 < l2 <= 2^28, at most `fuel` times; the pair and the state. -/
def drawGradient : Nat → Nat → (Int × Int) × Nat
  | 0, state => ((0, 0), state)
  | fuel + 1, state =>
    let s1 := lcgNext state
    let s2 := lcgNext s1
    let gx : Int := (lcgPick s1 32769 : Int) - 16384
    let gy : Int := (lcgPick s2 32769 : Int) - 16384
    let l2 := (gx * gx + gy * gy).toNat
    if 0 < l2 ∧ l2 ≤ 2 ^ 28 then
      (((gx * 16384).tdiv (isqrt l2), (gy * 16384).tdiv (isqrt l2)), s2)
    else drawGradient fuel s2

/-- The gradients of R60, `n` of them, each drawn with at most 64 tries (the build of R60 needs
fewer, as the test against R63 shows). -/
def drawGradients : Nat → Nat → List (Int × Int)
  | 0, _ => []
  | n + 1, state => (drawGradient 64 state).1 :: drawGradients n (drawGradient 64 state).2

/-- The whole construction of R60. -/
def constructLattice : Lattice :=
  let sh := shuffleFrom 255 0 1 (List.range 256)
  { perm := sh.1 ++ sh.1, grad := drawGradients 256 sh.2 }

end Sys2Proof.Machine
end

