-- ==== Sys2Proof/Machine/State.lean ====
section
/-! DEFINITION. Everything the spec gives the machine, as plain data, and the state after reset
(10_state.md; 70_reset_and_hazards.md R441). -/

namespace Sys2Proof.Machine

/-- A sparse memory: address and content pairs, addresses strictly rising. An address that is not
listed holds no value that the machine or the host has written since power-on (logs 3 and 4). -/
abbrev Memory (α : Type) := List (Nat × α)

/-- A buffer descriptor (R35). -/
structure Desc where
  /-- DESCn_BASE, the TMEM index of texel (0, 0) -/
  base : Word
  /-- DESCn_W, the width -/
  w : Word
  /-- DESCn_H, the height -/
  h : Word
  /-- DESCn_STAT bit 0 -/
  valid : Bool
  deriving DecidableEq, Repr

/-- The 16 descriptor slots (R35). -/
abbrev DescTable := Vector Desc 16

/-- The parameter registers (R49), with the bits each keeps. -/
structure ParamRegs where
  /-- P_WIDTH -/
  width : Word
  /-- P_HEIGHT -/
  height : Word
  /-- P_FREQ -/
  freq : BitVec 8
  /-- P_OCT -/
  oct : BitVec 8
  /-- P_FALLOFF -/
  falloff : Word
  /-- P_SEED -/
  seed : BitVec 8
  /-- P_AMP -/
  amp : Word
  /-- P_GAMMA -/
  gamma : Word
  /-- P_COLOR0 -/
  color0 : Word
  /-- P_COLOR1 -/
  color1 : Word
  /-- P_STRENGTH -/
  strength : Word
  /-- P_POSITION -/
  position : Word
  /-- P_ANGLE -/
  angle : Word
  /-- P_LENGTH -/
  len : Word
  /-- P_CX -/
  cx : Word
  /-- P_CY -/
  cy : Word
  /-- P_RX -/
  rx : Word
  /-- P_RY -/
  ry : Word
  /-- P_FX -/
  fx : Word
  /-- P_FY -/
  fy : Word
  /-- P_ALPHA -/
  alpha : Word
  /-- P_POWER -/
  power : Word
  /-- P_MLIST -/
  mlist : Word
  /-- P_HADDR -/
  haddr : Word
  /-- P_HSTRIDE -/
  hstride : Word
  deriving DecidableEq, Repr

/-- The names of the parameter registers, in the order of their offsets (R49). -/
inductive Param where
  | width | height | freq | oct | falloff | seed | amp | gamma | color0 | color1 | strength
  | position | angle | len | cx | cy | rx | ry | fx | fy | alpha | power | mlist | haddr | hstride
  deriving DecidableEq, Repr

/-- The registers of the window (R40). -/
inductive Reg where
  | id | ctrl | status | cmd | taddr | tdataLo | tdataHi
  | param (p : Param)
  | descBase (n : Slot) | descW (n : Slot) | descH (n : Slot) | descStat (n : Slot)
  deriving DecidableEq, Repr

/-- The STATUS flags (R44). -/
structure Status where
  /-- bit 0 -/
  busy : Bool
  /-- bit 1 -/
  done : Bool
  /-- bit 2 -/
  err : Bool
  /-- bit 3 -/
  overrun : Bool
  /-- bit 4 -/
  latticeReady : Bool
  /-- bits 11:8 -/
  errcode : BitVec 4
  deriving DecidableEq, Repr

/-- The copy of the parameters, the command word and the descriptors that a command reads (R69). -/
structure Snapshot where
  par : ParamRegs
  cmd : Word
  desc : DescTable
  deriving DecidableEq, Repr

/-- The errors a command can complete with (R401). -/
inductive ErrCode where
  | invalidDim | sizeMismatch | illegalOp | emptySrc | nomem | aliased | dmaRange
  deriving DecidableEq, Repr

/-- The size of a register-window access; only an aligned 32-bit one is defined (R92). -/
inductive AccessSize where
  | b8 | b16 | b32 | b64
  deriving DecidableEq, Repr

/-- One access of the host (R40, R90, R100; 93_implementation_defined.md U7). -/
inductive HostOp where
  /-- read the register window at a byte offset -/
  | read (off : BitVec 12) (size : AccessSize)
  /-- write the register window at a byte offset -/
  | write (off : BitVec 12) (size : AccessSize) (v : Word)
  /-- read an address of the system bus, on which the window starts at HMSYN_BASE (R100) -/
  | busRead (a : Nat) (size : AccessSize)
  /-- write an address of the system bus (R100) -/
  | busWrite (a : Nat) (size : AccessSize) (v : Word)
  /-- read a byte of HMEM over the host's own bus -/
  | hmemRead (a : Nat)
  /-- write a byte of HMEM over the host's own bus -/
  | hmemWrite (a : Nat) (v : Byte)
  /-- the platform's bus fails a DMA access of the running transfer (U7) -/
  | dmaBusError
  deriving DecidableEq, Repr

/-- What the host presents in one step (logs 1, 13). -/
inductive HostCycle where
  /-- the accesses of this step, in the order the bus delivers them; an empty list is no access -/
  | accesses (ops : List HostOp)
  /-- the WAIT loop of R131: read STATUS in every step until BUSY reads 0 -/
  | waitIdle
  /-- wait until IRQ is 1 (R381 step 4) -/
  | waitIrq
  /-- RST_N is asserted in this step, while the host presents `ops` (R440) -/
  | rstN (ops : List HostOp)
  deriving DecidableEq, Repr

/-- Why a step stops although the spec gives the machine no such stop. -/
inductive Fault where
  /-- Raised by `hostHmemRead` and `hostHmemWrite`: the host's own bus access names an HMEM address at
  or above HMEM_SIZE, which R90 says does not exist. Safe: no run goes on from it (log 15). -/
  | hmemOutside (a : Nat)
  deriving DecidableEq, Repr

/-- What the model has no meaning for. -/
inductive Refusal where
  /-- Raised by an arm of `exec` whose instruction has no meaning yet; no arm is in that state. Safe. -/
  | notModelled (mnemonic : String)
  /-- Raised by `runOp`: the platform's bus fails a DMA access inside HMEM while a transfer runs, which
  93_implementation_defined.md U7 and R420 put outside the spec. Safe (log 16). -/
  | dmaBusError
  deriving DecidableEq, Repr

/-- The machine (INVENTORY.md, State). -/
structure State where
  /-- the implementation parameters (R7, R100) -/
  params : Params
  /-- CTRL.IRQ_EN (R43) -/
  irqEn : Bool
  /-- STATUS (R44) -/
  status : Status
  /-- CMD (R45) -/
  cmd : Word
  /-- TADDR (R46) -/
  taddr : Word
  /-- RDLATCH (R47) -/
  rdlatch : BitVec 64
  /-- WRLATCH (R47) -/
  wrlatch : BitVec 64
  /-- the parameter registers (R49) -/
  par : ParamRegs
  /-- the descriptors (R35) -/
  desc : DescTable
  /-- the snapshot (R69) -/
  snap : Snapshot
  /-- the lattice RAM (R60, R65) -/
  lattice : Lattice
  /-- TMEM (R90) -/
  tmem : Memory Texel
  /-- HMEM (R90) -/
  hmem : Memory Byte
  /-- texels of the running command that the host has written while it runs (R453); model's own -/
  racedTexels : List Nat
  /-- HMEM bytes of the running transfer that the host has written while it runs (R453); model's own -/
  racedBytes : List Nat
  /-- how many draws of free values have been made; model's own (log 7) -/
  draws : Nat
  /-- for each coming step, whether the engine is still short of the end of its work (R460); model's
  own (log 1) -/
  stalls : List Bool
  /-- what the host presents in each coming step; model's own (log 1) -/
  hostq : List HostCycle
  /-- what the host's reads of the last step returned, in order; model's own (log 21) -/
  hostReads : List Word
  deriving DecidableEq, Repr

/-- An empty slot with BASE = 0 (R55). -/
def Desc.empty : Desc := { base := 0, w := 0, h := 0, valid := false }

/-- Every slot empty (R441). -/
def DescTable.empty : DescTable := Vector.replicate 16 Desc.empty

/-- Every parameter register 0, or +0.0 (R49). -/
def ParamRegs.zero : ParamRegs :=
  { width := 0, height := 0, freq := 0, oct := 0, falloff := 0, seed := 0, amp := 0, gamma := 0,
    color0 := 0, color1 := 0, strength := 0, position := 0, angle := 0, len := 0, cx := 0, cy := 0,
    rx := 0, ry := 0, fx := 0, fy := 0, alpha := 0, power := 0, mlist := 0, haddr := 0, hstride := 0 }

/-- STATUS = 0 (R441). -/
def Status.zero : Status :=
  { busy := false, done := false, err := false, overrun := false, latticeReady := false, errcode := 0 }

/-- The snapshot before the first accept: the spec gives it no value. DESIGN CHOICE zero (log 8). -/
def Snapshot.zero : Snapshot := { par := ParamRegs.zero, cmd := 0, desc := DescTable.empty }

/-- The parameters of a machine the spec leaves open, with the spec's own defaults (R7, R100, log 5). -/
def Params.initial : Params :=
  { tmemTexels := Config.tmemLast.toNat + 1, hmemSize := Config.hmemLast.toNat + 1,
    lattice := defaultLattice, octaveOrigin := .absolute, powfn := .exactReal,
    hmsynBase := Config.hmsynBase }

/-- The machine right after power-on reset (R441). -/
def State.reset : State :=
  { params := Params.initial, irqEn := false, status := Status.zero, cmd := 0, taddr := 0,
    rdlatch := 0, wrlatch := 0, par := ParamRegs.zero, desc := DescTable.empty,
    snap := Snapshot.zero, lattice := blankLattice, tmem := [], hmem := [], racedTexels := [],
    racedBytes := [], draws := 0, stalls := [], hostq := [], hostReads := [] }

end Sys2Proof.Machine
end

