-- ==== Sys2Proof/Machine/Ops.lean ====
section
/-! DEFINITION. The named operations over memory, descriptors and regions, the checks of commands and
their completion (20_memory.md; 60_exceptions.md). -/

namespace Sys2Proof.Machine

/-! ### Sparse memories -/

/-- What address `a` holds, if anything has been written there. -/
def Memory.find {α : Type} : Memory α → Nat → Option α
  | [], _ => none
  | (b, v) :: m, a => if b = a then some v else Memory.find m a

/-- Store `v` at address `a`, keeping the addresses rising. -/
def Memory.write {α : Type} : Memory α → Nat → α → Memory α
  | [], a, v => [(a, v)]
  | (b, w) :: m, a, v =>
    if a < b then (a, v) :: (b, w) :: m
    else if a = b then (a, v) :: m
    else (b, w) :: Memory.write m a v

/-- Store a run of values in order, a later one at the same address winning. -/
def Memory.writeAll {α : Type} (m : Memory α) (l : List (Nat × α)) : Memory α :=
  l.foldl (fun m p => m.write p.1 p.2) m

/-- The stores of `n` consecutive addresses from `base`. -/
def consecutive {α : Type} (base n : Nat) (f : Nat → α) : List (Nat × α) :=
  (List.range n).map fun p => (base + p, f p)

/-- Store `f p` at address `base + p` for every p below `n`. -/
def Memory.fill {α : Type} (m : Memory α) (base n : Nat) (f : Nat → α) : Memory α :=
  m.writeAll (consecutive base n f)

/-- The canonical form: addresses strictly rising. -/
abbrev Memory.wf {α : Type} (m : Memory α) : Prop := m.Pairwise (fun p q => p.1 < q.1)

/-- TRead(i) (R10): the texel the memory lists, or a free value where nothing has been written since
power-on (R72, U1, log 3). -/
def treadIn (draws : Nat) (m : Memory Texel) (i : Nat) : Texel :=
  (m.find i).getD (Config.freeTexel draws i)

/-- TRead(i) in a state. -/
def tread (s : State) (i : Nat) : Texel := treadIn s.draws s.tmem i

/-- MemRead(a, 1) (R360): the byte HMEM lists, or the free value it holds (log 4). -/
def hread (s : State) (a : Nat) : Byte := (s.hmem.find a).getD (Config.hmemByte a)

/-! ### Descriptors and regions -/

/-- DESC[n] in a table. -/
def DescTable.at (t : DescTable) (n : Slot) : Desc := t[n.toNat]'n.isLt

/-- The table with DESC[n] replaced. -/
def DescTable.put (t : DescTable) (n : Slot) (d : Desc) : DescTable := t.set n.toNat d n.isLt

/-- W·H, the number of texels of a buffer (R35). -/
def Desc.count (d : Desc) : Nat := d.w.toNat * d.h.toNat

/-- A run of consecutive indices or addresses: [base, base + count) (R39). -/
structure Region where
  base : Nat
  count : Nat
  deriving DecidableEq, Repr

/-- The region of a buffer (R39). -/
def Desc.region (d : Desc) : Region := { base := d.base.toNat, count := d.count }

/-- Index `i` lies in the region. -/
def Region.has (r : Region) (i : Nat) : Bool := decide (r.base ≤ i ∧ i < r.base + r.count)

/-- The indices of a region, rising. -/
def Region.indices (r : Region) : List Nat := (List.range r.count).map (r.base + ·)

/-- Two regions share an index (R39). -/
def Region.overlaps (r q : Region) : Bool :=
  decide (max r.base q.base < min (r.base + r.count) (q.base + q.count))

/-- Two regions have the same base and the same number of texels (R39). -/
def Region.identical (r q : Region) : Bool := decide (r.base = q.base ∧ r.count = q.count)

/-! ### Checks and completion -/

/-- The codes of R401. -/
def ErrCode.code : ErrCode → BitVec 4
  | .invalidDim => 1
  | .sizeMismatch => 2
  | .illegalOp => 3
  | .emptySrc => 4
  | .nomem => 5
  | .aliased => 6
  | .dmaRange => 7

/-- The first check that fails, in the order given (R401): each check is a pair of whether it fails
and the error it raises. -/
def firstFailing (l : List (Bool × ErrCode)) : Option ErrCode := (l.find? (·.1)).map (·.2)

/-- The output region of a command that produces W·H texels in slot d, from the snapshot (R38). -/
def outRegion (s : State) (d : Slot) (count : Nat) : Region :=
  { base := (s.snap.desc.at d).base.toNat, count := count }

/-- NOMEM: DESC[d].BASE + W·H > TMEM_TEXELS (R401). -/
def nomemFails (s : State) (d : Slot) (count : Nat) : Bool × ErrCode :=
  (decide ((outRegion s d count).base + count > s.params.tmemTexels), .nomem)

/-- EMPTY_SRC: a slot the command reads has VALID = 0 (R401). -/
def emptyFails (ds : List Desc) : Bool × ErrCode := (ds.any (fun d => !d.valid), .emptySrc)

/-- DMA_RANGE: the largest byte address is at or above HMEM_SIZE (R361). -/
def dmaFails (s : State) (last : Nat) : Bool × ErrCode :=
  (decide (s.params.hmemSize ≤ last), .dmaRange)

/-- The STATUS flags after completion, with or without an error (R405). -/
def Status.complete (st : Status) : Option ErrCode → Status
  | none => { st with busy := false, done := true }
  | some e => { st with busy := false, done := true, err := true, errcode := e.code }

/-- The one step of completion (R405). -/
def State.complete (s : State) (e : Option ErrCode) : State :=
  { s with status := s.status.complete e }

/-- End a command: an error completion changes nothing but STATUS (R402); without an error the command
leaves `work`, completed (R405). -/
def runCommand (s : State) (e : Option ErrCode) (work : State) :
    Host.Outcome State Fault Refusal :=
  match e with
  | some e => .next (s.complete (some e))
  | none => .next (work.complete none)

/-- A command that produces the buffer of slot d: texel (x, y) is `px x y`; the descriptor gets BASE
from the snapshot, the output size, and VALID = 1 (R35, R38). -/
def produce (s : State) (d : Slot) (w h : Nat) (px : Nat → Nat → Texel) : State :=
  { s with
    tmem := s.tmem.fill (s.snap.desc.at d).base.toNat (w * h) (fun p => px (p % w) (p / w))
    desc := s.desc.put d
      { base := (s.snap.desc.at d).base, w := BitVec.ofNat 32 w, h := BitVec.ofNat 32 h,
        valid := true } }

/-- A command that changes the texels of slot d in place and writes no descriptor: texel number p of
the buffer becomes `f` of what it was. -/
def editInPlace (s : State) (d : Slot) (f : Texel → Texel) : State :=
  let ds := s.snap.desc.at d
  { s with
    tmem := s.tmem.fill ds.base.toNat ds.count (fun p => f (tread s (ds.base.toNat + p))) }

/-! ### Accepting a command -/

/-- The STATUS flags after accept (R45). -/
def Status.accept (st : Status) : Status :=
  { st with busy := true, done := false, err := false, errcode := 0 }

/-- The engine accepts the command word c: CMD, STATUS and the snapshot (R45, R69). -/
def State.accept (s : State) (c : Word) : State :=
  { s with
    cmd := c
    status := s.status.accept
    snap := { par := s.par, cmd := c, desc := s.desc }
    racedTexels := []
    racedBytes := [] }

end Sys2Proof.Machine
end

