-- ==== Sys2Proof/Machine/Flags.lean ====
section
/-! DEFINITION. STATUS as a register word, its write, the engine's updates within one step, and IRQ
(10_state.md R44; 60_exceptions.md R405 to R411). -/

namespace Sys2Proof.Machine

/-- STATUS as the host reads it (R44). -/
def Status.word (st : Status) : Word :=
  0#20 ++ st.errcode ++ 0#3 ++ BitVec.ofBool st.latticeReady ++ BitVec.ofBool st.overrun ++
    BitVec.ofBool st.err ++ BitVec.ofBool st.done ++ BitVec.ofBool st.busy

/-- Which STATUS bits the engine has set in the current step (R411). -/
structure StepMarks where
  done : Bool
  err : Bool
  overrun : Bool
  deriving DecidableEq, Repr

/-- Nothing set yet in this step. -/
def StepMarks.none : StepMarks := { done := false, err := false, overrun := false }

/-- A host write to STATUS: a 1 in a W1C bit clears it, and bit 2 clears ERRCODE with it (R44); a bit
that the engine has set in the same step stays set (R108, R411). -/
def Status.ack (st : Status) (m : StepMarks) (v : Word) : Status :=
  { st with
    done := st.done && (m.done || !v.getLsbD 1)
    err := st.err && (m.err || !v.getLsbD 2)
    errcode := if v.getLsbD 2 && !m.err then 0 else st.errcode
    overrun := st.overrun && (m.overrun || !v.getLsbD 3) }

/-- The marks of a completion that left the flags `st` (R411). -/
def completionMarks (st : Status) : StepMarks :=
  { done := st.done, err := st.err, overrun := false }

/-- IRQ = CTRL.IRQ_EN AND STATUS.DONE (R410). -/
def State.irq (s : State) : Bool := s.irqEn && s.status.done

end Sys2Proof.Machine
end

