-- ==== Sys2Proof/Machine/Operands.lean ====
section
/-! DEFINITION. How a command reads its operands from the snapshot: sizes, colours, lists and the
binary32 parameters (30_encoding.md R122; 40_datapath.md R174 to R176). -/

namespace Sys2Proof.Machine

/-- `clamp(v, lo, hi)` on integers (R11). -/
def clampZ (v lo hi : Int) : Int := min (max v lo) hi

/-- P_WIDTH, signed (R50, R122). -/
def widthOf (s : State) : Int := s.snap.par.width.toInt

/-- P_HEIGHT, signed (R50, R122). -/
def heightOf (s : State) : Int := s.snap.par.height.toInt

/-- INVALID_DIM: P_WIDTH < 1 or P_HEIGHT < 1 (R401). -/
def dimFails (s : State) : Bool × ErrCode :=
  (decide (widthOf s < 1 ∨ heightOf s < 1), .invalidDim)

/-- Entry k of P_MLIST, bits 4k+3 to 4k (R53). -/
def mlistAt (s : State) (k : Nat) : Slot := s.snap.par.mlist.extractLsb' (4 * k) 4

/-- The value of a binary32 pattern (R174). -/
inductive F32 where
  | nan | posInf | negInf
  | finite (q : Rat)
  deriving DecidableEq, Repr

/-- `val(f)` (R174). For a biased exponent e from 1 to 254 the value (2^23 + m)·2^(e-150) is written
(2^23 + m)·2^(e-1) / 2^149. -/
def f32Val (f : Word) : F32 :=
  let e := (f.extractLsb' 23 8).toNat
  let m := (f.extractLsb' 0 23).toNat
  let sign : Int := if f.getLsbD 31 then -1 else 1
  if e = 255 then
    if m ≠ 0 then .nan else if f.getLsbD 31 then .negInf else .posInf
  else if e = 0 then .finite (mkRat (sign * m) (2 ^ 149))
  else .finite (mkRat (sign * ((2 ^ 23 + m) * 2 ^ (e - 1) : Nat)) (2 ^ 149))

/-- MAXF = (2^24 - 1)·2^104 (R174). -/
def maxF : Rat := (((2 ^ 24 - 1) * 2 ^ 104 : Nat) : Rat)

/-- `fin(f)` (R175). -/
def fin32 (f : Word) : Rat :=
  match f32Val f with
  | .nan => 0
  | .posInf => maxF
  | .negInf => -maxF
  | .finite q => q

/-- `FixFloor(f, k, lo, hi)` (R176). -/
def fixFloor (f : Word) (k : Nat) (lo hi : Int) : Int :=
  match f32Val f with
  | .nan => 0
  | .posInf => hi
  | .negInf => lo
  | .finite q => clampZ (q * (k : Rat)).floor lo hi

/-- `FixFloor(f, k, INT32)` (R176). -/
def fixFloor32 (f : Word) (k : Nat) : Int := fixFloor f k (-2 ^ 31) (2 ^ 31 - 1)

end Sys2Proof.Machine
end

