-- ==== Sys2Proof/Machine/Datapath.lean ====
section
/-! DEFINITION. The datapath primitives every command uses (40_datapath.md R160 to R181). -/

namespace Sys2Proof.Machine

/-! ### Integers -/

/-- `fdiv(a, b)` = floor(a / b) (R11). -/
def fdiv (a b : Int) : Int := a.fdiv b

/-- `a >> n` = floor(a / 2^n), also for negative a (R11). -/
def shr (a : Int) (n : Nat) : Int := a >>> n

/-- `clamp15(v)` (R164). -/
def clamp15 (v : Int) : Nat := (clampZ v 0 0x7FFF).toNat

/-- `clampS15(v)` (R165). -/
def clampS15 (v : Int) : Int := clampZ v (-16384) 16383

/-- `lerp(a, b, w)` (R169). -/
def lerp (a b w : Int) : Int := a + fdiv ((b - a) * w) 65536

/-! ### Texels -/

/-- `lane(t, L)` (R31). -/
def lane (t : Texel) (l : Nat) : Nat := (t.extractLsb' (16 * l) 16).toNat

/-- `mk(r, g, b, a)` (R31). -/
def mk (r g b a : Nat) : Texel :=
  BitVec.ofNat 16 a ++ BitVec.ofNat 16 r ++ BitVec.ofNat 16 g ++ BitVec.ofNat 16 b

/-- The texel whose lane L is `f` of lane L of `t` and `u`, for each of the four lanes on its own
(R166). -/
def zipLanes (f : Nat → Nat → Nat) (t u : Texel) : Texel :=
  mk (f (lane t 2) (lane u 2)) (f (lane t 1) (lane u 1)) (f (lane t 0) (lane u 0))
    (f (lane t 3) (lane u 3))

/-- `pack8(c)` (R160). -/
def pack8 (c : Byte) : Nat := (((c.toNat <<< 8) ||| c.toNat) >>> 1) &&& 0x7FFF

/-- `pack32(col)` (R161): the colour word is A, R, G, B from the top byte down (R33). -/
def pack32 (col : Word) : Texel :=
  mk (pack8 (col.extractLsb' 16 8)) (pack8 (col.extractLsb' 8 8)) (pack8 (col.extractLsb' 0 8))
    (pack8 (col.extractLsb' 24 8))

/-- One lane of `blend` (R162). -/
def blendLane (fade a b : Nat) : Nat := (a * (0x10000 - fade) + b * fade) >>> 16

/-- `blend(a, b, fade)` (R162). -/
def blend (a b : Texel) (fade : Nat) : Texel := zipLanes (blendLane fade) a b

/-- `unpack8(v)` (R163). -/
def unpack8 (v : Nat) : Byte := BitVec.ofNat 8 ((v >>> 7) &&& 0xFF)

/-- `ladd` (R166). -/
def ladd (a b : Nat) : Nat := clamp15 ((a : Int) + b)

/-- `lsub` (R166). -/
def lsub (a b : Nat) : Nat := clamp15 ((a : Int) - b)

/-- `lmul` (R166). -/
def lmul (a b : Nat) : Nat := (a * b) >>> 15

/-- The bits a stored lane may have set: bit 15 of every lane is 0 (R32, R48). -/
def headroomMask : Texel := 0x7FFF7FFF7FFF7FFF#64

/-! ### Table lookups -/

/-- `GammaLookup(v, T)` (R167). -/
def gammaLookup (v : Nat) (T : Nat → Int) : Int :=
  let i := v >>> 5
  let f := v &&& 31
  T i + fdiv ((T (i + 1) - T i) * f) 32

/-- `F(t)`, the quintic fade (R168). -/
def quintic (t : Int) : Int :=
  shr (t ^ 3 * (6 * t ^ 2 - 15 * 65536 * t + 10 * 65536 ^ 2)) 64

/-- S[k] (R66). -/
def sineAt (k : Nat) : Int := sineRom.getD k 0

/-- `SineQ(p)` (R170). -/
def sineQ (p : Int) : Int :=
  let j := ((shr p 6) % 256).toNat
  let f := p % 64
  sineAt j + fdiv ((sineAt (j + 1) - sineAt j) * f) 64

/-! ### The power function and the curve tables -/

/-- A natural number known to lie between lo·2^e and hi·2^e (R177: a model may use an interval). -/
structure Bracket where
  lo : Nat
  hi : Nat
  e : Nat
  deriving DecidableEq, Repr

/-- A number itself. -/
def bracketOf (n : Nat) : Bracket := { lo := n, hi := n, e := 0 }

/-- Keep about `prec` binary digits of both ends, the lower one rounded down and the upper one up. -/
def trimBracket (prec : Nat) (b : Bracket) : Bracket :=
  let k := b.hi.log2 - prec
  if k = 0 then b else { lo := b.lo >>> k, hi := (b.hi >>> k) + 1, e := b.e + k }

/-- The product of two numbers. -/
def mulBracket (prec : Nat) (b c : Bracket) : Bracket :=
  trimBracket prec { lo := b.lo * c.lo, hi := b.hi * c.hi, e := b.e + c.e }

/-- m^n by repeated squaring, for n < 2^fuel. -/
def powBracket (prec m : Nat) : Nat → Nat → Bracket
  | 0, _ => bracketOf 1
  | fuel + 1, n =>
    let r := powBracket prec m fuel (n / 2)
    if n % 2 = 1 then mulBracket prec (mulBracket prec r r) (bracketOf m) else mulBracket prec r r

/-- Whether every number of the first bracket is at most every number of the second. -/
def bracketLe (b c : Bracket) : Bool :=
  let d := min b.e c.e
  b.hi.log2 + b.e < c.lo.log2 + c.e && 0 < c.lo ||
    b.e - d ≤ 1024 + c.lo.log2 && c.e - d ≤ 1024 + b.hi.log2 &&
      b.hi <<< (b.e - d) ≤ c.lo <<< (c.e - d)

/-- Whether every number of the first bracket is below every number of the second. -/
def bracketLt (b c : Bracket) : Bool :=
  let d := min b.e c.e
  b.hi.log2 + b.e < c.lo.log2 + c.e && 0 < c.lo ||
    b.e - d ≤ 1024 + c.lo.log2 && c.e - d ≤ 1024 + b.hi.log2 &&
      b.hi <<< (b.e - d) < c.lo <<< (c.e - d)

/-- n^q·b^p <= m^q·a^p: by brackets where they decide it, else by the numbers themselves (R177). -/
def powProductLe (n m b a q p : Nat) : Bool :=
  let prec := 64 + q.log2 + p.log2
  let pow := fun k e => powBracket prec k (e.log2 + 1) e
  let l := mulBracket prec (pow n q) (pow b p)
  let r := mulBracket prec (pow m q) (pow a p)
  if n ≤ m ∧ b ≤ a then true
  else if bracketLe l r then true
  else if bracketLt r l then false
  else decide (n ^ q * b ^ p ≤ m ^ q * a ^ p)

/-- n <= 32767·x^y for the exact real power, x > 0: with y = p/q in lowest terms this is
n^q <= 32767^q·x^p, and x = a/b clears the fractions (R177). -/
def powAtLeast (x y : Rat) (n : Nat) : Bool :=
  let a := x.num.toNat
  let b := x.den
  if 0 ≤ y.num then powProductLe n 32767 b a y.den y.num.natAbs
  else powProductLe n 32767 a b y.den y.num.natAbs

/-- n < 32767·x^y for the exact real power, x > 0 (R177). -/
def powAbove (x y : Rat) (n : Nat) : Bool :=
  let a := x.num.toNat
  let b := x.den
  if 0 ≤ y.num then !powProductLe 32767 n a b y.den y.num.natAbs
  else !powProductLe 32767 n b a y.den y.num.natAbs

/-- A power function other than the exact real one, at x in (0, 1]: 1 at x = 1; for y > 0 the running
maximum of the open function over the steps of 1/32768 up to x, kept in [0, 1], so that it is
non-decreasing in x; for y <= 0 the open function as it is (R177, log 6). -/
def otherPow (x y : Rat) : Rat :=
  if x = 1 then 1
  else if 0 < y then
    (List.range (x * 32768).floor.toNat).foldl
      (fun best m => max best (min 1 (Config.powfn (((m + 1 : Nat) : Rat) / 32768) y))) 0
  else Config.powfn x y

/-- floor(POW(x, y)·32767), or 32767 where it is larger, for x in (0, 1] (R177). -/
def powFloor (pf : PowFn) (x y : Rat) : Int :=
  match pf with
  | .exactReal => bitSearch (powAtLeast x y) 15 0
  | .other => min (otherPow x y * 32767).floor 32767

/-- floor((1 - POW(x, y))·32767), or -1 where it is smaller, for x in (0, 1] (R177, R290). -/
def oneMinusPowFloor (pf : PowFn) (x y : Rat) : Int :=
  match pf with
  | .exactReal => 32767 - ((bitSearch (powAbove x y) 15 0 : Nat) + 1 : Int)
  | .other => max ((1 - otherPow x y) * 32767).floor (-1)

/-- A curve value as `Entry` needs it: an infinity, or floor(c·32767) of a finite c, exact in
[0, 32767] and on the right side of it otherwise (R178). -/
inductive CurveVal where
  | negInf | posInf
  | scaled (n : Int)
  deriving DecidableEq, Repr

/-- `Entry(c)` (R178). -/
def entry : CurveVal → Int
  | .posInf => 65534
  | .negInf => 0
  | .scaled n => 2 * clampZ n 0 32767

/-- POW(x, y) for x in [0, 1] (R177). -/
def powCurve (pf : PowFn) (x y : Rat) : CurveVal :=
  if x = 0 then
    if 0 < y then .scaled 0 else if y = 0 then .scaled 32767 else .posInf
  else .scaled (powFloor pf x y)

/-- 1 - POW(x, y) for x in [0, 1] (R177, R290). -/
def oneMinusPowCurve (pf : PowFn) (x y : Rat) : CurveVal :=
  if x = 0 then
    if 0 < y then .scaled 32767 else if y = 0 then .scaled 0 else .negInf
  else .scaled (oneMinusPowFloor pf x y)

/-- The gamma table T[k] of γ (R67, R178). -/
def gammaTable (pf : PowFn) (γ : Rat) (k : Nat) : Int := entry (powCurve pf ((k : Rat) / 1024) γ)

/-- The curve c(t) of GLOW, of the inverted power p' (R290). -/
def falloffCurve (pf : PowFn) (curve : Bool) (p' t : Rat) : CurveVal :=
  if curve then oneMinusPowCurve pf t (2 * p') else powCurve pf (1 - t) p'

/-- Coarse[k] (R181). -/
def coarseTable (pf : PowFn) (curve : Bool) (p' : Rat) (k : Nat) : Int :=
  entry (falloffCurve pf curve p' ((k : Rat) / 1024))

/-- Fine[j] (R181). -/
def fineTable (pf : PowFn) (curve : Bool) (p' : Rat) (j : Nat) : Int :=
  entry (falloffCurve pf curve p' ((j : Rat) / 32768))

/-- `Falloff(di)` (R181). -/
def falloff (pf : PowFn) (curve : Bool) (p' : Rat) (di : Nat) : Int :=
  if di < 32 then fineTable pf curve p' di else gammaLookup di (coarseTable pf curve p')

end Sys2Proof.Machine
end

