-- ==== Sys2Proof/Machine/Compositor.lean ====
section
/-! DEFINITION. MERGE, COLORIZE, COPY and RELEASE (44_compositor.md). -/

namespace Sys2Proof.Machine

/-! ### MERGE -/

/-- The list entries L_1 .. L_{n-1} that are folded into L_0 (R320). -/
def mergeRest (s : State) (n : Nat) : List Slot := (List.range (n - 1)).map (fun k => mlistAt s (k + 1))

/-- The descriptors of the whole list, L_0 first (R320). -/
def mergeDescs (s : State) (n : Nat) : List Desc :=
  s.snap.desc.at (mlistAt s 0) :: (mergeRest s n).map s.snap.desc.at

/-- The checks of MERGE, in order (R320): EMPTY_SRC looks at every entry before SIZE_MISMATCH looks at
any, and the identical region is allowed (R403). -/
def mergeError (s : State) (d : Slot) (n : Nat) : Option ErrCode :=
  let d0 := s.snap.desc.at (mlistAt s 0)
  let ds := mergeDescs s n
  let out := outRegion s d d0.count
  firstFailing [emptyFails ds,
    (ds.any (fun q => decide (q.w ≠ d0.w ∨ q.h ≠ d0.h)), .sizeMismatch),
    nomemFails s d d0.count,
    (ds.any (fun q => out.overlaps q.region && !out.identical q.region), .aliased)]

/-- Texel number p of the result: the fold of the entries, left to right (R320, R324). -/
def mergeFold (s : State) (op : Nat → Nat → Nat) (n p : Nat) : Texel :=
  ((mergeRest s n).map s.snap.desc.at).foldl
    (fun t q => zipLanes op t (tread s (q.base.toNat + p)))
    (tread s ((s.snap.desc.at (mlistAt s 0)).base.toNat + p))

/-- What every MERGE does, with the lane operation `op` (R320). -/
def runMerge (op : Nat → Nat → Nat) (d : Slot) (n : Nat) (s : State) :
    Host.Outcome State Fault Refusal :=
  let d0 := s.snap.desc.at (mlistAt s 0)
  runCommand s (mergeError s d n)
    (produce s d d0.w.toNat d0.h.toNat (fun x y => mergeFold s op n (y * d0.w.toNat + x)))

/-- MERGE.ADD d, n (R321). -/
def execMergeAdd (d : Slot) (n : Nat) (s : State) : Host.Outcome State Fault Refusal :=
  runMerge ladd d n s

/-- MERGE.SUB d, n (R322). -/
def execMergeSub (d : Slot) (n : Nat) (s : State) : Host.Outcome State Fault Refusal :=
  runMerge lsub d n s

/-- MERGE.MUL d, n (R323). -/
def execMergeMul (d : Slot) (n : Nat) (s : State) : Host.Outcome State Fault Refusal :=
  runMerge lmul d n s

/-- MERGE mode 3: mode 0 (R321, R125). -/
def execMergeAdd3 (d : Slot) (n : Nat) (s : State) : Host.Outcome State Fault Refusal :=
  runMerge ladd d n s

/-! ### COLORIZE -/

/-- The check of COLORIZE (R330). -/
def colorizeError (s : State) (d : Slot) : Option ErrCode :=
  firstFailing [emptyFails [s.snap.desc.at d]]

/-- `C`, the packed colour (R330). -/
def colorOf (s : State) : Texel := pack32 s.snap.par.color0

/-- GRAY: the floor mean of R, G and B, with alpha kept (R334). -/
def grayTexel (t : Texel) : Texel :=
  let g := (lane t 2 + lane t 1 + lane t 0) / 3
  mk g g g (lane t 3)

/-- INV: 0x7FFF minus the lane on R, G and B, with alpha kept (R335). -/
def invTexel (t : Texel) : Texel :=
  mk (0x7FFF - lane t 2) (0x7FFF - lane t 1) (0x7FFF - lane t 0) (lane t 3)

/-- What a COLORIZE does whose texel function is `f` (R330). -/
def runColorize (f : Texel → Texel) (d : Slot) (s : State) : Host.Outcome State Fault Refusal :=
  runCommand s (colorizeError s d) (editInPlace s d f)

/-- What COLORIZE does in modes 5 to 7: its check, and no texel is written (R336). -/
def runColorizeNone (d : Slot) (s : State) : Host.Outcome State Fault Refusal :=
  runCommand s (colorizeError s d) s

/-- COLORIZE.MUL d (R331). -/
def execColorizeMul (d : Slot) (s : State) : Host.Outcome State Fault Refusal :=
  runColorize (fun t => zipLanes lmul t (colorOf s)) d s

/-- COLORIZE.ADD d (R332). -/
def execColorizeAdd (d : Slot) (s : State) : Host.Outcome State Fault Refusal :=
  runColorize (fun t => zipLanes ladd t (colorOf s)) d s

/-- COLORIZE.SUB d (R333). -/
def execColorizeSub (d : Slot) (s : State) : Host.Outcome State Fault Refusal :=
  runColorize (fun t => zipLanes lsub t (colorOf s)) d s

/-- COLORIZE.GRAY d (R334). -/
def execColorizeGray (d : Slot) (s : State) : Host.Outcome State Fault Refusal :=
  runColorize grayTexel d s

/-- COLORIZE.INV d (R335). -/
def execColorizeInv (d : Slot) (s : State) : Host.Outcome State Fault Refusal :=
  runColorize invTexel d s

/-- COLORIZE mode 5 (R336). -/
def execColorizeNop5 (d : Slot) (s : State) : Host.Outcome State Fault Refusal :=
  runColorizeNone d s

/-- COLORIZE mode 6 (R336). -/
def execColorizeNop6 (d : Slot) (s : State) : Host.Outcome State Fault Refusal :=
  runColorizeNone d s

/-- COLORIZE mode 7 (R336). -/
def execColorizeNop7 (d : Slot) (s : State) : Host.Outcome State Fault Refusal :=
  runColorizeNone d s

/-! ### COPY and RELEASE -/

/-- The checks of COPY, in order (R340): the identical region is allowed (R403). -/
def copyError (s : State) (d src : Slot) : Option ErrCode :=
  let ds := s.snap.desc.at src
  let out := outRegion s d ds.count
  firstFailing [emptyFails [ds], nomemFails s d ds.count,
    (out.overlaps ds.region && !out.identical ds.region, .aliased)]

/-- COPY d, s (R340). -/
def execCopy (d src : Slot) (s : State) : Host.Outcome State Fault Refusal :=
  let ds := s.snap.desc.at src
  runCommand s (copyError s d src)
    (produce s d ds.w.toNat ds.h.toNat (fun x y => tread s (ds.base.toNat + (y * ds.w.toNat + x))))

/-- RELEASE d: W, H and VALID become 0 and BASE keeps its value (R342). It never fails. -/
def execRelease (d : Slot) (s : State) : Host.Outcome State Fault Refusal :=
  runCommand s none
    { s with desc := s.desc.put d { (s.desc.at d) with w := 0, h := 0, valid := false } }

end Sys2Proof.Machine
end

