-- ==== Sys2Proof/Machine/Glow.lean ====
section
/-! DEFINITION. GLOW: radial or rectangular falloff mask (43_gradient_glow.md R285 to R298). -/

namespace Sys2Proof.Machine

/-- The check of GLOW (R285). -/
def glowError (s : State) (d : Slot) : Option ErrCode :=
  firstFailing [emptyFails [s.snap.desc.at d]]

/-- EPS_R (R7, R286). -/
def epsR : Rat := 1 / 65536

/-- EPS_P (R7, R289). -/
def epsP : Rat := 1 / 1048576

/-- The decoded geometry in pixel units (R286). -/
structure GlowGeometry where
  cx : Rat
  cy : Rat
  rx : Rat
  ry : Rat
  fx : Rat
  fy : Rat
  deriving DecidableEq, Repr

/-- Decode the geometry for a buffer of W x H pixels (R286). -/
def glowGeometry (p : ParamRegs) (w h : Nat) : GlowGeometry :=
  { cx := fin32 p.cx * w
    cy := fin32 p.cy * h
    rx := max (fin32 p.rx) epsR * w
    ry := max (fin32 p.ry) epsR * h
    fx := max (fin32 p.fx) 0 * w
    fy := max (fin32 p.fy) 0 * h }

/-- A pass of GLOW: the shift of the centre, and the wrapped-copy flag (R70, R296). -/
structure Pass where
  ox : Int
  oy : Int
  wrapped : Bool
  deriving DecidableEq, Repr

/-- `Passes(wrapx, wrapy, W, H)` in order (R296). -/
def glowPasses (wrapx wrapy : Bool) (w h : Nat) : List Pass :=
  [{ ox := 0, oy := 0, wrapped := false }]
  ++ (if wrapx then
        [{ ox := -(w : Int), oy := 0, wrapped := true }, { ox := w, oy := 0, wrapped := true }]
      else [])
  ++ (if wrapy then
        [{ ox := 0, oy := -(h : Int), wrapped := true }, { ox := 0, oy := h, wrapped := true }]
      else [])

/-- The distance d of pixel (x, y) in a pass (R287). -/
def glowDistance (g : GlowGeometry) (rect : Bool) (p : Pass) (x y : Nat) : Rat :=
  let ddx := max (|(x : Rat) - (g.cx + p.ox)| - g.fx) 0
  let ddy := max (|(y : Rat) - (g.cy + p.oy)| - g.fy) 0
  if rect then max (ddx / g.rx) (ddy / g.ry) else (ddx / g.rx) ^ 2 + (ddy / g.ry) ^ 2

/-- The quantized distance di, a natural number as d >= 0 (R288). -/
def glowQuant (g : GlowGeometry) (rect : Bool) (p : Pass) (x y : Nat) : Nat :=
  (glowDistance g rect p x y * 32768).floor.toNat

/-- The inverted power p' (R289). -/
def glowPower (p : ParamRegs) : Rat :=
  let pw := fin32 p.power
  (1 / 4) / (if pw = 0 then epsP else pw)

/-- ALPHA (R291). -/
def glowAlpha (p : ParamRegs) : Int := fixFloor p.alpha 65536 0 65535

/-- The fade of a pixel inside the mask (R291). -/
def glowFade (s : State) (curve : Bool) (di : Nat) : Nat :=
  (shr (falloff s.params.powfn curve (glowPower s.snap.par) di * glowAlpha s.snap.par) 16).toNat

/-- One pass over the buffer, reading the texels as the earlier passes left them (R285, R292). -/
def glowPass (s : State) (ds : Desc) (curve rect : Bool) (m : Memory Texel) (p : Pass) :
    Memory Texel :=
  let g := glowGeometry s.snap.par ds.w.toNat ds.h.toNat
  let di := fun k => glowQuant g rect p (k % ds.w.toNat) (k / ds.w.toNat)
  m.writeAll
    (((List.range ds.count).filter (fun k => di k < 32768)).map (fun k =>
      (ds.base.toNat + k,
        blend (treadIn s.draws m (ds.base.toNat + k)) (pack32 s.snap.par.color0)
          (glowFade s curve (di k)))))

/-- TMEM after each of the passes in order (R292, R296). -/
def glowStages (s : State) (ds : Desc) (curve rect : Bool) :
    List Pass → Memory Texel → List (Memory Texel)
  | [], _ => []
  | p :: ps, m =>
    glowPass s ds curve rect m p :: glowStages s ds curve rect ps (glowPass s ds curve rect m p)

/-- GLOW d (R285): the passes one after the other. The descriptor is not written. -/
def execGlow (d : Slot) (wrapx wrapy curve rect : Bool) (s : State) :
    Host.Outcome State Fault Refusal :=
  let ds := s.snap.desc.at d
  runCommand s (glowError s d)
    { s with
      tmem := (glowPasses wrapx wrapy ds.w.toNat ds.h.toNat).foldl
        (glowPass s ds curve rect) s.tmem }

end Sys2Proof.Machine
end

