-- ==== Sys2Proof/Machine/Gradient.lean ====
section
/-! DEFINITION. GRAD: directional gradient fill (43_gradient_glow.md R270 to R278). -/

namespace Sys2Proof.Machine

/-- The checks of GRAD, in order (R270). -/
def gradError (s : State) (d : Slot) : Option ErrCode :=
  firstFailing [dimFails s, nomemFails s d ((widthOf s).toNat * (heightOf s).toNat)]

/-- EPS_L (R7, R272). -/
def epsL : Rat := 1 / 65536

/-- The phase `pa` of P_ANGLE (R271). -/
def gradPhase (s : State) : Int := fixFloor32 s.snap.par.angle 16384 % 16384

/-- `L` (R272). -/
def gradLength (s : State) : Rat :=
  let l := fin32 s.snap.par.len
  if l < epsL then epsL else l

/-- `DX` (R273). -/
def gradDX (s : State) : Int :=
  (((sineQ (gradPhase s + 4096) * 131072 : Int) : Rat) / (gradLength s * widthOf s)).floor

/-- `DY` (R273). -/
def gradDY (s : State) : Int :=
  (((sineQ (gradPhase s) * 131072 : Int) : Rat) / (gradLength s * heightOf s)).floor

/-- `A0` (R273). -/
def gradA0 (s : State) : Int :=
  (-fin32 s.snap.par.position * 2 ^ 31 / gradLength s).floor

/-- `v(x, y)` (R274). -/
def gradV (s : State) (x y : Nat) : Int := shr (gradA0 s + x * gradDX s + y * gradDY s) 16

/-- `Ramp(mode, v)` (R275). -/
def gradRamp (mode : BitVec 2) (v : Int) : Int :=
  match mode with
  | 1#2 => 0x4000 + sineQ (12288 + shr (clampZ v 0 32768) 2)
  | 2#2 => 0x4000 + sineQ (12288 + shr v 1)
  | _ => v

/-- Texel (x, y) of GRAD (R276). -/
def gradTexel (s : State) (mode : BitVec 2) (x y : Nat) : Texel :=
  blend (pack32 s.snap.par.color0) (pack32 s.snap.par.color1)
    (2 * clamp15 (gradRamp mode (gradV s x y)))

/-- GRAD d, mode (R270). -/
def execGrad (d : Slot) (mode : BitVec 2) (s : State) : Host.Outcome State Fault Refusal :=
  runCommand s (gradError s d)
    (produce s d (widthOf s).toNat (heightOf s).toNat (gradTexel s mode))

end Sys2Proof.Machine
end

