-- ==== Sys2Proof/Machine/Noise.lean ====
section
/-! DEFINITION. SYNTH: multi-octave tileable gradient noise (41_noise.md). -/

namespace Sys2Proof.Machine

/-- The checks of SYNTH, in order (R200). -/
def synthError (s : State) (d : Slot) : Option ErrCode :=
  firstFailing [dimFails s, nomemFails s d ((widthOf s).toNat * (heightOf s).toNat)]

/-- `ux(x)` for a size W, and `uy(y)` for a size H (R204). -/
def samplePos (x size : Nat) : Nat := x * 65536 / size

/-- P[k] of the lattice RAM. -/
def permAt (l : Lattice) (k : Nat) : Nat := l.perm.getD k 0

/-- `grad(ix, iy)` (R205): the seed is XORed into the Y index only. -/
def latticeGrad (l : Lattice) (seed ix iy : Nat) : Int × Int :=
  l.grad.getD (permAt l (permAt l ix + (iy ^^^ seed))) (0, 0)

/-- The Q16 fraction of position u at octave i (R206). -/
def cellFrac (i u : Nat) : Nat := (u <<< i) % 65536

/-- The cell of position u at octave i, 0 <= i <= 15 (R206). -/
def cellIndex (i u : Nat) : Nat := u >>> (16 - i)

/-- `dot(g, dx, dy)` (R206). -/
def cornerDot (g : Int × Int) (dx dy : Int) : Int := fdiv (g.1 * dx + g.2 * dy) 16384

/-- N_i at position (u, w) of the torus (R206). -/
def octaveNoise (l : Lattice) (seed i u w : Nat) : Int :=
  let m := (2 ^ i - 1) &&& 255
  let tx : Int := cellFrac i u
  let ty : Int := cellFrac i w
  let ix0 := cellIndex i u &&& m
  let ix1 := (cellIndex i u + 1) &&& m
  let iy0 := cellIndex i w &&& m
  let iy1 := (cellIndex i w + 1) &&& m
  let n00 := cornerDot (latticeGrad l seed ix0 iy0) tx ty
  let n10 := cornerDot (latticeGrad l seed ix1 iy0) (tx - 65536) ty
  let n01 := cornerDot (latticeGrad l seed ix0 iy1) tx (ty - 65536)
  let n11 := cornerDot (latticeGrad l seed ix1 iy1) (tx - 65536) (ty - 65536)
  lerp (lerp n00 n10 (quintic tx)) (lerp n01 n11 (quintic tx)) (quintic ty)

/-- The exponent e of octave i (R207). -/
def octaveExponent (o : OctaveOrigin) (base i : Nat) : Nat :=
  match o with
  | .absolute => i
  | .relative => i - base

/-- A_i (R207). -/
def octaveAmplitude (o : OctaveOrigin) (q : Rat) (base i : Nat) : Int :=
  clampZ (q ^ octaveExponent o base i * 16384).floor (-2 ^ 31) (2 ^ 31 - 1)

/-- `skip(i)` for a W x H output (R208). -/
def octaveSkipped (w h i : Nat) : Bool :=
  (List.range w).all (fun x => cellFrac i (samplePos x w) == 0) &&
    (List.range h).all (fun y => cellFrac i (samplePos y h) == 0)

/-- K, the kept octaves in increasing order (R200, R208). -/
def keptOctaves (w h base count : Nat) : List Nat :=
  ((List.range count).map (base + ·)).filter (fun i => !octaveSkipped w h i)

/-- `acc` of one pixel (R209). -/
def noiseAcc (l : Lattice) (seed : Nat) (octs : List (Nat × Int)) (u w : Nat) : Int :=
  octs.foldl (fun acc ia => acc + fdiv (octaveNoise l seed ia.1 u w * ia.2) 65536) 0

/-- `Remap(mode, acc)` (R212). -/
def noiseRemap (mode : BitVec 2) (acc : Int) : Int :=
  match mode with
  | 0#2 => acc
  | 1#2 => |acc|
  | 2#2 => sineQ acc
  | _ => sineQ |acc|

/-- `Scale(mode, r)` with AMPF (R213). -/
def noiseScale (mode : BitVec 2) (ampf r : Int) : Int :=
  if mode.getLsbD 0 then fdiv (r * ampf) (2 ^ 14) else fdiv (r * ampf) (2 ^ 15) + 0x4000

/-- AMPF of the snapshot (R213). -/
def ampOf (s : State) : Int := fixFloor32 s.snap.par.amp 32768

/-- The kept octaves with their amplitudes, from the snapshot (R200, R207). -/
def synthOctaves (s : State) : List (Nat × Int) :=
  let base := s.snap.par.freq.toNat
  (keptOctaves (widthOf s).toNat (heightOf s).toNat base s.snap.par.oct.toNat).map
    (fun i => (i, octaveAmplitude s.params.octaveOrigin (fin32 s.snap.par.falloff) base i))

/-- The fade of one SYNTH pixel, from its accumulator (R212 to R214). -/
def synthFade (s : State) (mode : BitVec 2) (acc : Int) : Nat :=
  (gammaLookup (clamp15 (noiseScale mode (ampOf s) (noiseRemap mode acc)))
    (gammaTable s.params.powfn (fin32 s.snap.par.gamma))).toNat

/-- Texel (x, y) of SYNTH (R200, R203, R214). -/
def synthTexel (s : State) (mode : BitVec 2) (x y : Nat) : Texel :=
  let c0 := pack32 s.snap.par.color0
  let c1 := pack32 s.snap.par.color1
  if s.snap.par.oct.toNat = 0 then c0
  else
    blend c0 c1 (synthFade s mode
      (noiseAcc s.lattice s.snap.par.seed.toNat (synthOctaves s)
        (samplePos x (widthOf s).toNat) (samplePos y (heightOf s).toNat)))

/-- SYNTH d, mode (R200). -/
def execSynth (d : Slot) (mode : BitVec 2) (s : State) : Host.Outcome State Fault Refusal :=
  runCommand s (synthError s d)
    (produce s d (widthOf s).toNat (heightOf s).toNat (synthTexel s mode))

end Sys2Proof.Machine
end

