-- ==== Sys2Proof/Machine/Normal.lean ====
section
/-! DEFINITION. NORMAL: finite-difference normal maps (42_normal.md). -/

namespace Sys2Proof.Machine

/-- The checks of NORMAL, in order (R240): the identical region is refused as well (R403). -/
def normalError (s : State) (d src : Slot) : Option ErrCode :=
  let ds := s.snap.desc.at src
  firstFailing [emptyFails [ds], nomemFails s d ds.count,
    ((outRegion s d ds.count).overlaps ds.region, .aliased)]

/-- The TMEM index of source pixel (x, y) with toroidal indices (R241). -/
def wrapIndex (ds : Desc) (x y : Int) : Nat :=
  ds.base.toNat + (y % ds.h.toNat).toNat * ds.w.toNat + (x % ds.w.toNat).toNat

/-- `h(x, y)`, the R lane of the source texel (R241). -/
def heightAt (s : State) (ds : Desc) (x y : Int) : Int := lane (tread s (wrapIndex ds x y)) 2

/-- The taps of the two kernels: offset and weight (R242, R243). -/
def kernelTaps (sharp : Bool) : List (Int × Int) :=
  if sharp then [(-1, 4), (1, -4)] else [(-2, 1), (-1, 3), (1, -3), (2, -1)]

/-- `gx` (R242, R243). -/
def diffX (s : State) (ds : Desc) (sharp : Bool) (x y : Int) : Int :=
  ((kernelTaps sharp).map (fun t => t.2 * heightAt s ds (x + t.1) y)).sum

/-- `gy` (R242, R243). -/
def diffY (s : State) (ds : Desc) (sharp : Bool) (x y : Int) : Int :=
  ((kernelTaps sharp).map (fun t => t.2 * heightAt s ds x (y + t.1))).sum

/-- STR of the snapshot (R244). -/
def strengthOf (s : State) : Int := fixFloor32 s.snap.par.strength 256

/-- `nx` or `ny` from a difference, for a buffer of the given size along that axis (R244). -/
def slope (g str : Int) (size : Nat) : Int :=
  clampS15 (fdiv (g * str * (2 ^ size.log2 : Nat)) (2 ^ 12))

/-- The z reconstruction: nx, ny, z (R245, R246). -/
def zRec (z3d : Bool) (nx ny : Int) : Int × Int × Int :=
  if z3d then
    let rad := 16383 ^ 2 - nx ^ 2 - ny ^ 2
    if 0 ≤ rad then (nx, ny, (isqrt rad.toNat : Int))
    else
      let l : Int := isqrt (nx ^ 2 + ny ^ 2).toNat
      (clampS15 (fdiv (nx * 16383) l), clampS15 (fdiv (ny * 16383) l), 0)
  else (nx, ny, 16383)

/-- The tangent-space flip of ny (R247). -/
def tangentFlip (tan : Bool) (ny : Int) : Int := if tan then clampS15 (-ny) else ny

/-- The output texel of a normal (R248). -/
def encodeNormal (nx ny z : Int) : Texel :=
  mk (nx + 0x4000).toNat (ny + 0x4000).toNat (z + 0x4000).toNat 0x7FFF

/-- Texel (x, y) of NORMAL (R240). -/
def normalTexel (s : State) (ds : Desc) (z3d tan sharp : Bool) (x y : Nat) : Texel :=
  let n := zRec z3d
    (slope (diffX s ds sharp x y) (strengthOf s) ds.w.toNat)
    (slope (diffY s ds sharp x y) (strengthOf s) ds.h.toNat)
  encodeNormal n.1 (tangentFlip tan n.2.1) n.2.2

/-- NORMAL d, s (R240). -/
def execNormal (d src : Slot) (z3d tan sharp : Bool) (s : State) :
    Host.Outcome State Fault Refusal :=
  let ds := s.snap.desc.at src
  runCommand s (normalError s d src)
    (produce s d ds.w.toNat ds.h.toNat (normalTexel s ds z3d tan sharp))

end Sys2Proof.Machine
end

