-- ==== Sys2Proof/Machine/Transfer.lean ====
section
/-! DEFINITION. IMPORT, EXPORT, RAWFILL, NOP and the illegal commands (45_transfer_system.md;
30_encoding.md R127). -/

namespace Sys2Proof.Machine

/-- P_HADDR (R54). -/
def haddrOf (s : State) : Nat := s.snap.par.haddr.toNat

/-! ### IMPORT -/

/-- The HMEM range an IMPORT with n channels reads: P_HADDR to LAST (R361). -/
def importRange (s : State) (n : Nat) : Region :=
  { base := haddrOf s, count := n * ((widthOf s).toNat * (heightOf s).toNat) }

/-- The checks of IMPORT with n channels, in order (R362). -/
def importError (s : State) (d : Slot) (n : Nat) : Option ErrCode :=
  firstFailing [dimFails s, nomemFails s d ((widthOf s).toNat * (heightOf s).toNat),
    dmaFails s ((importRange s n).base + (importRange s n).count - 1)]

/-- The byte k of the pixel that starts at address a (R362). -/
def importByte (s : State) (a k : Nat) : Nat := pack8 (hread s (a + k))

/-- `Expand(0, b_0)` of the pixel at a (R363). -/
def expandG (s : State) (a : Nat) : Texel :=
  mk (importByte s a 0) (importByte s a 0) (importByte s a 0) 0x7FFF

/-- `Expand(1, b_0 .. b_2)` of the pixel at a (R364). -/
def expandRgb (s : State) (a : Nat) : Texel :=
  mk (importByte s a 0) (importByte s a 1) (importByte s a 2) 0x7FFF

/-- `Expand(2, b_0 .. b_3)` of the pixel at a (R365). -/
def expandRgba (s : State) (a : Nat) : Texel :=
  mk (importByte s a 0) (importByte s a 1) (importByte s a 2) (importByte s a 3)

/-- What every IMPORT does: n channels, expanded by `expand` (R362). -/
def runImport (n : Nat) (expand : State → Nat → Texel) (d : Slot) (s : State) :
    Host.Outcome State Fault Refusal :=
  let w := (widthOf s).toNat
  runCommand s (importError s d n)
    (produce s d w (heightOf s).toNat (fun x y => expand s (haddrOf s + n * (y * w + x))))

/-- IMPORT.G d (R363). -/
def execImportG (d : Slot) (s : State) : Host.Outcome State Fault Refusal :=
  runImport 1 expandG d s

/-- IMPORT.RGB d (R364). -/
def execImportRgb (d : Slot) (s : State) : Host.Outcome State Fault Refusal :=
  runImport 3 expandRgb d s

/-- IMPORT.RGBA d (R365). -/
def execImportRgba (d : Slot) (s : State) : Host.Outcome State Fault Refusal :=
  runImport 4 expandRgba d s

/-! ### EXPORT and RAWFILL -/

/-- The HMEM range EXPORT writes: P_HADDR to LAST (R361). -/
def exportRange (s : State) (ds : Desc) : Region := { base := haddrOf s, count := 4 * ds.count }

/-- The HMEM range from P_HADDR to LAST of RAWFILL (R361), with the gaps that a stride above 4·W leaves between
rows; that the gaps count for a data race is the model's choice (log 22). -/
def rawfillRange (s : State) (ds : Desc) : Region :=
  { base := haddrOf s,
    count := (ds.h.toNat - 1) * s.snap.par.hstride.toNat + 4 * ds.w.toNat }

/-- The checks of EXPORT, in order (R366). -/
def exportError (s : State) (src : Slot) : Option ErrCode :=
  let ds := s.snap.desc.at src
  let r := exportRange s ds
  firstFailing [emptyFails [ds], dmaFails s (r.base + r.count - 1)]

/-- The checks of RAWFILL, in order (R370). -/
def rawfillError (s : State) (src : Slot) : Option ErrCode :=
  let ds := s.snap.desc.at src
  let r := rawfillRange s ds
  firstFailing [emptyFails [ds], dmaFails s (r.base + r.count - 1)]

/-- One byte a transfer stores: the address, the TMEM index of the texel it comes from, the byte. -/
structure ByteStore where
  addr : Nat
  src : Nat
  byte : Byte
  deriving DecidableEq, Repr

/-- The four stores of one pixel at address a, the lanes in the order given (R366, R370). -/
def pixelStores (s : State) (src a : Nat) (lanes : List Nat) : List ByteStore :=
  lanes.zipIdx.map (fun lk =>
    { addr := a + lk.2, src := src, byte := unpack8 (lane (tread s src) lk.1) })

/-- The stores of EXPORT in order: R, G, B, A of each pixel (R366). -/
def exportStores (s : State) (ds : Desc) : List ByteStore :=
  (List.range ds.count).flatMap (fun p =>
    pixelStores s (ds.base.toNat + p) (haddrOf s + 4 * p) [2, 1, 0, 3])

/-- The stores of RAWFILL in order: the word 0xAARRGGBB of each pixel, little-endian, so B, G, R, A,
row after row at the stride (R370). -/
def rawfillStores (s : State) (ds : Desc) : List ByteStore :=
  (List.range ds.count).flatMap (fun p =>
    pixelStores s (ds.base.toNat + p)
      (haddrOf s + (p / ds.w.toNat) * s.snap.par.hstride.toNat + 4 * (p % ds.w.toNat)) [0, 1, 2, 3])

/-- MemWrite of each store in order: a later one at the same address wins (R371). -/
def storeBytes (s : State) (l : List ByteStore) : State :=
  { s with hmem := s.hmem.writeAll (l.map (fun b => (b.addr, b.byte))) }

/-- EXPORT s (R366). -/
def execExport (src : Slot) (s : State) : Host.Outcome State Fault Refusal :=
  runCommand s (exportError s src) (storeBytes s (exportStores s (s.snap.desc.at src)))

/-- RAWFILL s (R370). -/
def execRawfill (src : Slot) (s : State) : Host.Outcome State Fault Refusal :=
  runCommand s (rawfillError s src) (storeBytes s (rawfillStores s (s.snap.desc.at src)))

/-! ### NOP and the illegal commands -/

/-- NOP: completion only (R375). -/
def execNop (s : State) : Host.Outcome State Fault Refusal := runCommand s none s

/-- The error completion ILLEGAL_OP (R127). -/
def runIllegal (s : State) : Host.Outcome State Fault Refusal := runCommand s (some .illegalOp) s

/-- IMPORT with CH = 3 (R127). -/
def execIllegalImport3 (s : State) : Host.Outcome State Fault Refusal := runIllegal s

/-- OP = 0xC to 0xF (R127): the OP value makes no difference. -/
def execIllegal (_op : BitVec 4) (s : State) : Host.Outcome State Fault Refusal := runIllegal s

end Sys2Proof.Machine
end

