-- ==== Sys2Proof/Machine/Dispatch.lean ====
section
/-! DEFINITION. One arm per command: the running command's effect from the state at accept to the
state at completion (R103, R430). -/

namespace Sys2Proof.Machine

def exec (i : Instr) (s : State) : Host.Outcome State Fault Refusal :=
  match i with
  | .nop => Sys2Proof.Machine.execNop s
  | .synth d mode => Sys2Proof.Machine.execSynth d mode s
  | .normal d src z3d tan sharp => Sys2Proof.Machine.execNormal d src z3d tan sharp s
  | .grad d mode => Sys2Proof.Machine.execGrad d mode s
  | .glow d wrapx wrapy curve rect => Sys2Proof.Machine.execGlow d wrapx wrapy curve rect s
  | .mergeAdd d n => Sys2Proof.Machine.execMergeAdd d n s
  | .mergeSub d n => Sys2Proof.Machine.execMergeSub d n s
  | .mergeMul d n => Sys2Proof.Machine.execMergeMul d n s
  | .mergeAdd3 d n => Sys2Proof.Machine.execMergeAdd3 d n s
  | .colorizeMul d => Sys2Proof.Machine.execColorizeMul d s
  | .colorizeAdd d => Sys2Proof.Machine.execColorizeAdd d s
  | .colorizeSub d => Sys2Proof.Machine.execColorizeSub d s
  | .colorizeGray d => Sys2Proof.Machine.execColorizeGray d s
  | .colorizeInv d => Sys2Proof.Machine.execColorizeInv d s
  | .colorizeNop5 d => Sys2Proof.Machine.execColorizeNop5 d s
  | .colorizeNop6 d => Sys2Proof.Machine.execColorizeNop6 d s
  | .colorizeNop7 d => Sys2Proof.Machine.execColorizeNop7 d s
  | .copy d src => Sys2Proof.Machine.execCopy d src s
  | .release d => Sys2Proof.Machine.execRelease d s
  | .importG d => Sys2Proof.Machine.execImportG d s
  | .importRgb d => Sys2Proof.Machine.execImportRgb d s
  | .importRgba d => Sys2Proof.Machine.execImportRgba d s
  | .illegalImport3 => Sys2Proof.Machine.execIllegalImport3 s
  | .exportBuf src => Sys2Proof.Machine.execExport src s
  | .rawfill src => Sys2Proof.Machine.execRawfill src s
  | .illegal op => Sys2Proof.Machine.execIllegal op s

end Sys2Proof.Machine
end

