-- ==== Sys2Proof/Machine/Hazard.lean ====
section
/-! DEFINITION. What a running command touches, what a data race leaves (R453, U5, U6) and what an
abandoned command leaves (R443, R444, U3, U4). -/

namespace Sys2Proof.Machine

/-! ### Footprints -/

/-- The running command: the decoder reads the word from the snapshot (R120). -/
def State.running (s : State) : Instr := decode s.snap.cmd

/-- What a command reads and writes: TMEM regions it reads, the TMEM region it writes, the HMEM range of
its transfer, and the HMEM range if the transfer writes it (R453, R361). The range of a RAWFILL is the whole
of P_HADDR to LAST, stride gaps included: DESIGN CHOICE, log 22. -/
structure Footprint where
  reads : List Region
  writes : List Region
  hmem : List Region
  hmemWrites : List Region
  deriving DecidableEq, Repr

/-- A command that touches no memory. -/
def Footprint.none : Footprint := { reads := [], writes := [], hmem := [], hmemWrites := [] }

/-- A command whose check fails touches nothing (R402). -/
def Footprint.unless (fp : Footprint) (e : Option ErrCode) : Footprint :=
  if e.isSome then Footprint.none else fp

/-- The footprint of a MERGE. -/
def mergeFootprint (s : State) (d : Slot) (n : Nat) : Footprint :=
  Footprint.unless
    { Footprint.none with
      reads := (mergeDescs s n).map Desc.region
      writes := [outRegion s d (s.snap.desc.at (mlistAt s 0)).count] }
    (mergeError s d n)

/-- The footprint of a COLORIZE: its in-place region. -/
def colorizeFootprint (s : State) (d : Slot) : Footprint :=
  Footprint.unless { Footprint.none with writes := [(s.snap.desc.at d).region] } (colorizeError s d)

/-- The footprint of an IMPORT with n channels. -/
def importFootprint (s : State) (d : Slot) (n : Nat) : Footprint :=
  Footprint.unless
    { Footprint.none with
      writes := [outRegion s d ((widthOf s).toNat * (heightOf s).toNat)]
      hmem := [importRange s n] }
    (importError s d n)

/-- The footprint of a command in the state that runs it. A RAWFILL has the bytes of its stride gaps in it
(DESIGN CHOICE, log 22). -/
def footprint (i : Instr) (s : State) : Footprint :=
  match i with
  | .nop => Footprint.none
  | .synth d _ =>
    Footprint.unless
      { Footprint.none with writes := [outRegion s d ((widthOf s).toNat * (heightOf s).toNat)] }
      (synthError s d)
  | .normal d src _ _ _ =>
    Footprint.unless
      { Footprint.none with
        reads := [(s.snap.desc.at src).region]
        writes := [outRegion s d (s.snap.desc.at src).count] }
      (normalError s d src)
  | .grad d _ =>
    Footprint.unless
      { Footprint.none with writes := [outRegion s d ((widthOf s).toNat * (heightOf s).toNat)] }
      (gradError s d)
  | .glow d _ _ _ _ =>
    Footprint.unless { Footprint.none with writes := [(s.snap.desc.at d).region] } (glowError s d)
  | .mergeAdd d n => mergeFootprint s d n
  | .mergeSub d n => mergeFootprint s d n
  | .mergeMul d n => mergeFootprint s d n
  | .mergeAdd3 d n => mergeFootprint s d n
  | .colorizeMul d => colorizeFootprint s d
  | .colorizeAdd d => colorizeFootprint s d
  | .colorizeSub d => colorizeFootprint s d
  | .colorizeGray d => colorizeFootprint s d
  | .colorizeInv d => colorizeFootprint s d
  | .colorizeNop5 d => colorizeFootprint s d
  | .colorizeNop6 d => colorizeFootprint s d
  | .colorizeNop7 d => colorizeFootprint s d
  | .copy d src =>
    Footprint.unless
      { Footprint.none with
        reads := [(s.snap.desc.at src).region]
        writes := [outRegion s d (s.snap.desc.at src).count] }
      (copyError s d src)
  | .release _ => Footprint.none
  | .importG d => importFootprint s d 1
  | .importRgb d => importFootprint s d 3
  | .importRgba d => importFootprint s d 4
  | .illegalImport3 => Footprint.none
  | .exportBuf src =>
    Footprint.unless
      { reads := [(s.snap.desc.at src).region], writes := []
        hmem := [exportRange s (s.snap.desc.at src)]
        hmemWrites := [exportRange s (s.snap.desc.at src)] }
      (exportError s src)
  | .rawfill src =>
    Footprint.unless
      { reads := [(s.snap.desc.at src).region], writes := []
        hmem := [rawfillRange s (s.snap.desc.at src)]
        hmemWrites := [rawfillRange s (s.snap.desc.at src)] }
      (rawfillError s src)
  | .illegal _ => Footprint.none

/-- TMEM texel `a` is in a region the running command reads or writes (R453). -/
def State.texelInFlight (s : State) (a : Nat) : Bool :=
  s.status.busy &&
    ((footprint s.running s).reads ++ (footprint s.running s).writes).any (·.has a)

/-- HMEM byte `a` is in the range of the running transfer (R453). Of a RAWFILL this counts the stride gaps in,
which it does not write (R371): DESIGN CHOICE, log 22. -/
def State.byteInFlight (s : State) (a : Nat) : Bool :=
  s.status.busy && (footprint s.running s).hmem.any (·.has a)

/-! ### What depends on what -/

/-- The TMEM texels that output texel number p of a command depends on, other than by an error. -/
def texelInputs (i : Instr) (s : State) (p : Nat) : List Nat :=
  match i with
  | .normal _ src _ _ sharp =>
    let ds := s.snap.desc.at src
    let x : Int := ((p % ds.w.toNat : Nat) : Int)
    let y : Int := ((p / ds.w.toNat : Nat) : Int)
    (kernelTaps sharp).map (fun t => wrapIndex ds (x + t.1) y) ++
      (kernelTaps sharp).map (fun t => wrapIndex ds x (y + t.1))
  | .mergeAdd _ n => (mergeDescs s n).map (fun q => q.base.toNat + p)
  | .mergeSub _ n => (mergeDescs s n).map (fun q => q.base.toNat + p)
  | .mergeMul _ n => (mergeDescs s n).map (fun q => q.base.toNat + p)
  | .mergeAdd3 _ n => (mergeDescs s n).map (fun q => q.base.toNat + p)
  | .copy _ src => [(s.snap.desc.at src).base.toNat + p]
  | _ => []

/-- The HMEM bytes that output texel number p of an IMPORT depends on (R362). -/
def byteInputs (i : Instr) (s : State) (p : Nat) : List Nat :=
  match i with
  | .importG _ => [haddrOf s + p]
  | .importRgb _ => (List.range 3).map (fun k => haddrOf s + 3 * p + k)
  | .importRgba _ => (List.range 4).map (fun k => haddrOf s + 4 * p + k)
  | _ => []

/-- The byte stores of the running EXPORT or RAWFILL, none where its check fails. -/
def byteStores (i : Instr) (s : State) : List ByteStore :=
  match i with
  | .exportBuf src =>
    if (exportError s src).isSome then [] else exportStores s (s.snap.desc.at src)
  | .rawfill src =>
    if (rawfillError s src).isSome then [] else rawfillStores s (s.snap.desc.at src)
  | _ => []

/-- The output texels of region `r` that depend on a texel or byte the host has written (U6). -/
def dependentTexels (i : Instr) (s : State) (r : Region) : List Nat :=
  ((List.range r.count).filter (fun p =>
    (texelInputs i s p).any (fun a => s.racedTexels.contains a) ||
      (byteInputs i s p).any (fun a => s.racedBytes.contains a))).map (r.base + ·)

/-- Every texel that a race leaves with any value: those the host wrote, and the output texels that
depend on what it wrote (R453, U6). -/
def taintedTexels (i : Instr) (s : State) : List Nat :=
  s.racedTexels ++ (footprint i s).writes.flatMap (dependentTexels i s)

/-- A free texel with bit 15 of every lane clear (U3, U5, U6). -/
def freeStored (draw a : Nat) : Texel := Config.freeTexel draw a &&& headroomMask

/-- The byte stores of a raced transfer: a byte of a raced texel is free (U6). -/
def taintedStores (i : Instr) (s : State) : List (Nat × Byte) :=
  (byteStores i s).map (fun b =>
    (b.addr, if s.racedTexels.contains b.src then Config.freeByte (s.draws + 1) b.addr else b.byte))

/-- What a race leaves at completion: `t` is the state the command's rule gives from `s`. Where the host
has written nothing the command touches, nothing changes (R453, U6, log 12). -/
def applyRaces (i : Instr) (s t : State) : State :=
  if s.racedTexels.isEmpty && s.racedBytes.isEmpty then t
  else
    { t with
      tmem := t.tmem.writeAll
        ((taintedTexels i s).map (fun a => (a, freeStored (s.draws + 1) a)))
      hmem := Memory.writeAll (t.hmem.writeAll (taintedStores i s))
        (s.racedBytes.map (fun a => (a, Config.freeByte (s.draws + 1) a)))
      racedTexels := []
      racedBytes := []
      draws := s.draws + 2 }

/-! ### Abandoned commands -/

/-- TMEM at the points a command passes through: after each pass of GLOW, with each length of the MERGE
fold, and at the end of any other command (U3). -/
def stageImages (i : Instr) (s : State) : List (Memory Texel) :=
  let mergeStages := fun (op : Nat → Nat → Nat) (d : Slot) (n : Nat) =>
    (List.range n).map (fun k =>
      s.tmem.fill (outRegion s d 0).base (s.snap.desc.at (mlistAt s 0)).count (mergeFold s op (k + 1)))
  match i with
  | .glow d wrapx wrapy curve rect =>
    let ds := s.snap.desc.at d
    glowStages s ds curve rect (glowPasses wrapx wrapy ds.w.toNat ds.h.toNat) s.tmem
  | .mergeAdd d n => mergeStages ladd d n
  | .mergeSub d n => mergeStages lsub d n
  | .mergeMul d n => mergeStages lmul d n
  | .mergeAdd3 d n => mergeStages ladd d n
  | i =>
    match exec i s with
    | .next t => [t.tmem]
    | .fault _ => []
    | .refused _ => []

/-- A texel of the region of an abandoned command: its old value, its new value or an intermediate one,
by free choice, and any value where a race has reached it; bit 15 of each lane clear (R444, U3). -/
def abandonedTexel (i : Instr) (s : State) (a : Nat) : Texel :=
  let values := tread s a :: (stageImages i s).map (fun m => treadIn s.draws m a)
  if (taintedTexels i s).contains a then freeStored (s.draws + 1) a
  else values.getD (Config.freeChoice s.draws a % values.length) 0 &&& headroomMask

/-- The bytes of HMEM after a transfer is stopped before its end: every byte of the range of an EXPORT or
RAWFILL is free (R444, U4). So is every byte the host raced on, one in the range of an IMPORT too, of which
the spec speaks at completion only: DESIGN CHOICE, log 24. -/
def abandonedHmem (i : Instr) (s : State) : Memory Byte :=
  s.hmem.writeAll
    (((footprint i s).hmemWrites.flatMap Region.indices ++ s.racedBytes).map
      (fun a => (a, Config.freeByte (s.draws + 1) a)))

/-- Abandon the running command at whatever point it has reached (R443, R444, logs 10, 11 and 24). -/
def State.abandon (s : State) : State :=
  let built := { s with lattice := s.params.lattice }
  { s with
    tmem := s.tmem.writeAll
      (((footprint s.running s).writes.flatMap Region.indices ++ s.racedTexels).map
        (fun a => (a, abandonedTexel s.running built a)))
    hmem := abandonedHmem s.running s
    racedTexels := []
    racedBytes := []
    draws := s.draws + 2 }

end Sys2Proof.Machine
end

