-- ==== Sys2Proof/Machine/Bus.lean ====
section
/-! DEFINITION. The register window, resets, and the accesses of the host (10_state.md R40 to R55;
20_memory.md R92, R100; 70_reset_and_hazards.md R440 to R444). -/

namespace Sys2Proof.Machine

/-! ### The register map -/

/-- The parameter registers in the order of their offsets, 0x020 to 0x080 (R49). -/
def Param.all : List Param :=
  [.width, .height, .freq, .oct, .falloff, .seed, .amp, .gamma, .color0, .color1, .strength,
   .position, .angle, .len, .cx, .cy, .rx, .ry, .fx, .fy, .alpha, .power, .mlist, .haddr, .hstride]

/-- The register of a descriptor group at byte `b` of its 16 bytes (R55). -/
def descRegAt (n : Slot) (b : Nat) : Option Reg :=
  if b = 0 then some (.descBase n)
  else if b = 4 then some (.descW n)
  else if b = 8 then some (.descH n)
  else if b = 12 then some (.descStat n)
  else none

/-- The register at a byte offset; none at a reserved or misaligned offset (R40). -/
def regAt (off : BitVec 12) : Option Reg :=
  let o := off.toNat
  if o % 4 ≠ 0 then none
  else if o = 0x000 then some .id
  else if o = 0x004 then some .ctrl
  else if o = 0x008 then some .status
  else if o = 0x00C then some .cmd
  else if o = 0x010 then some .taddr
  else if o = 0x014 then some .tdataLo
  else if o = 0x018 then some .tdataHi
  else if 0x020 ≤ o ∧ o ≤ 0x080 then (Param.all[(o - 0x020) / 4]?).map Reg.param
  else if 0x100 ≤ o ∧ o < 0x200 then descRegAt (BitVec.ofNat 4 ((o - 0x100) / 16)) (o % 16)
  else none

/-- A parameter register as the host reads it; an 8-bit one reads 0 in bits 31:8 (R49). -/
def ParamRegs.get (p : ParamRegs) : Param → Word
  | .width => p.width
  | .height => p.height
  | .freq => p.freq.setWidth 32
  | .oct => p.oct.setWidth 32
  | .falloff => p.falloff
  | .seed => p.seed.setWidth 32
  | .amp => p.amp
  | .gamma => p.gamma
  | .color0 => p.color0
  | .color1 => p.color1
  | .strength => p.strength
  | .position => p.position
  | .angle => p.angle
  | .len => p.len
  | .cx => p.cx
  | .cy => p.cy
  | .rx => p.rx
  | .ry => p.ry
  | .fx => p.fx
  | .fy => p.fy
  | .alpha => p.alpha
  | .power => p.power
  | .mlist => p.mlist
  | .haddr => p.haddr
  | .hstride => p.hstride

/-- A host write to a parameter register; an 8-bit one keeps bits 7:0 (R49). -/
def ParamRegs.put (p : ParamRegs) (r : Param) (v : Word) : ParamRegs :=
  match r with
  | .width => { p with width := v }
  | .height => { p with height := v }
  | .freq => { p with freq := v.setWidth 8 }
  | .oct => { p with oct := v.setWidth 8 }
  | .falloff => { p with falloff := v }
  | .seed => { p with seed := v.setWidth 8 }
  | .amp => { p with amp := v }
  | .gamma => { p with gamma := v }
  | .color0 => { p with color0 := v }
  | .color1 => { p with color1 := v }
  | .strength => { p with strength := v }
  | .position => { p with position := v }
  | .angle => { p with angle := v }
  | .len => { p with len := v }
  | .cx => { p with cx := v }
  | .cy => { p with cy := v }
  | .rx => { p with rx := v }
  | .ry => { p with ry := v }
  | .fx => { p with fx := v }
  | .fy => { p with fy := v }
  | .alpha => { p with alpha := v }
  | .power => { p with power := v }
  | .mlist => { p with mlist := v }
  | .haddr => { p with haddr := v }
  | .hstride => { p with hstride := v }

/-! ### The window on the system bus -/

/-- An access of the system bus as the register slave port sees it: an address inside the 4 KiB from
HMSYN_BASE on is a byte offset of the window, and any other access stays what it is (R100). -/
def HostOp.atPort (base : Nat) : HostOp → HostOp
  | .busRead a size =>
    if base ≤ a ∧ a < base + 4096 then .read (BitVec.ofNat 12 (a - base)) size else .busRead a size
  | .busWrite a size v =>
    if base ≤ a ∧ a < base + 4096 then .write (BitVec.ofNat 12 (a - base)) size v
    else .busWrite a size v
  | op => op

/-- What the host presents in a step, its accesses of the system bus taken to the window (R100). -/
def HostCycle.atPort (base : Nat) : HostCycle → HostCycle
  | .accesses ops => .accesses (ops.map (HostOp.atPort base))
  | .rstN ops => .rstN (ops.map (HostOp.atPort base))
  | .waitIdle => .waitIdle
  | .waitIrq => .waitIrq

/-! ### Resets -/

/-- Soft reset, in the step of the CTRL write: a running command is abandoned, and every register, latch
and descriptor takes its value after soft reset; TMEM, HMEM and the parameters of the machine stay
(R441, R443). -/
def State.softReset (s : State) : State :=
  let a := if s.status.busy then s.abandon else s
  { a with
    irqEn := false
    status := Status.zero
    cmd := 0
    taddr := 0
    rdlatch := 0
    wrlatch := 0
    par := ParamRegs.zero
    desc := DescTable.empty
    snap := Snapshot.zero
    lattice := blankLattice
    racedTexels := []
    racedBytes := [] }

/-- Power-on reset: everything takes the value of R441; TMEM is unspecified anew; HMEM is not HMSYN's,
but a transfer that was running has left its range half written (R440, R441, log 11), and a byte the host
raced on is free (log 24). -/
def State.powerOn (s : State) : State :=
  { State.reset with
    params := s.params
    hmem := if s.status.busy then abandonedHmem s.running s else s.hmem
    draws := s.draws + 2
    stalls := s.stalls
    hostq := s.hostq
    hostReads := s.hostReads }

/-! ### Register accesses -/

/-- What a host read of a TMEM texel finds, and the draws made: 0 outside TMEM; a free value where the
running command works (R453, U5); a free value where nothing has been written since power-on (U1). -/
def hostTexel (s : State) (a : Nat) : Texel × Nat :=
  if s.params.tmemTexels ≤ a then (0, s.draws)
  else if s.texelInFlight a then (freeStored s.draws a, s.draws + 1)
  else
    match s.tmem.find a with
    | some t => (t, s.draws)
    | none => (Config.freeTexel s.draws a, s.draws + 1)

/-- The host's store of a TMEM texel: nothing outside TMEM; remembered as a race where the running command
works (R48, R453). -/
def hostStoreTexel (s : State) (a : Nat) (t : Texel) : State :=
  if s.params.tmemTexels ≤ a then s
  else if s.texelInFlight a then { s with racedTexels := a :: s.racedTexels }
  else { s with tmem := s.tmem.write a t }

/-- A host read of a register: the value, and the state after it (R41 to R55, R99). -/
def readReg (s : State) : Reg → Word × State
  | .id => (0x484D0001#32, s)
  | .ctrl => ((BitVec.ofBool s.irqEn).setWidth 32, s)
  | .status => (s.status.word, s)
  | .cmd => (s.cmd, s)
  | .taddr => (s.taddr, s)
  | .tdataLo =>
    let r := hostTexel s s.taddr.toNat
    (r.1.extractLsb' 0 32, { s with rdlatch := r.1, draws := r.2 })
  | .tdataHi => (s.rdlatch.extractLsb' 32 32, { s with taddr := s.taddr + 1 })
  | .param p => (s.par.get p, s)
  | .descBase n => ((s.desc.at n).base, s)
  | .descW n => ((s.desc.at n).w, s)
  | .descH n => ((s.desc.at n).h, s)
  | .descStat n => ((BitVec.ofBool (s.desc.at n).valid).setWidth 32, s)

/-- A host write to CMD: accepted when idle, dropped with OVERRUN while busy (R45), and ignored in the step
of a soft reset (R443). -/
def writeCmd (resetting : Bool) (m : StepMarks) (s : State) (v : Word) : State × StepMarks :=
  if resetting then (s, m)
  else if s.status.busy then
    ({ s with status := { s.status with overrun := true } }, { m with overrun := true })
  else (s.accept v, m)

/-- A host write of a register (R41 to R55). `resetting` says that the step holds a soft reset; the marks
say what the engine has set in this step (R411). -/
def writeReg (resetting : Bool) (m : StepMarks) (s : State) (r : Reg) (v : Word) :
    State × StepMarks :=
  match r with
  | .id => (s, m)
  | .ctrl =>
    if v.getLsbD 1 then (s.softReset, StepMarks.none) else ({ s with irqEn := v.getLsbD 0 }, m)
  | .status => ({ s with status := s.status.ack m v }, m)
  | .cmd => writeCmd resetting m s v
  | .taddr => ({ s with taddr := v }, m)
  | .tdataLo => ({ s with wrlatch := s.wrlatch.extractLsb' 32 32 ++ v }, m)
  | .tdataHi =>
    let t : Texel := (v ++ s.wrlatch.extractLsb' 0 32) &&& headroomMask
    ({ hostStoreTexel s s.taddr.toNat t with taddr := s.taddr + 1 }, m)
  | .param p => ({ s with par := s.par.put p v }, m)
  | .descBase n =>
    if (s.desc.at n).valid then (s, m)
    else ({ s with desc := s.desc.put n { (s.desc.at n) with base := v } }, m)
  | .descW _ => (s, m)
  | .descH _ => (s, m)
  | .descStat _ => (s, m)

/-- Hand a value to the host (log 21). -/
def State.answer (s : State) (v : Word) : State := { s with hostReads := s.hostReads ++ [v] }

/-- A read of the window: only an aligned 32-bit access at a defined offset reaches a register; any other
returns 0 (R41, R92, log 14). -/
def windowRead (s : State) (off : BitVec 12) (size : AccessSize) : State :=
  match size, regAt off with
  | .b32, some r => (readReg s r).2.answer (readReg s r).1
  | _, _ => s.answer 0

/-- A write of the window: any access but an aligned 32-bit one at a defined offset is ignored (R41, R92,
log 14). -/
def windowWrite (resetting : Bool) (m : StepMarks) (s : State) (off : BitVec 12)
    (size : AccessSize) (v : Word) : State × StepMarks :=
  match size, regAt off with
  | .b32, some r => writeReg resetting m s r v
  | _, _ => (s, m)

/-! ### Host accesses to HMEM -/

/-- The host reads a byte of HMEM over its own bus; a byte of the running transfer is free (R453, U5). -/
def hostHmemRead (s : State) (a : Nat) : Host.Outcome State Fault Refusal :=
  if s.params.hmemSize ≤ a then .fault (.hmemOutside a)
  else if s.byteInFlight a then
    .next ({ s with draws := s.draws + 1 }.answer ((Config.freeByte s.draws a).setWidth 32))
  else .next (s.answer ((hread s a).setWidth 32))

/-- The host writes a byte of HMEM over its own bus; on a byte of the running transfer it is a race
(R453, U6). -/
def hostHmemWrite (s : State) (a : Nat) (v : Byte) : Host.Outcome State Fault Refusal :=
  if s.params.hmemSize ≤ a then .fault (.hmemOutside a)
  else if s.byteInFlight a then .next { s with racedBytes := a :: s.racedBytes }
  else .next { s with hmem := s.hmem.write a v }

/-- The same state with marks that stay. -/
def keepMarks (m : StepMarks) :
    Host.Outcome State Fault Refusal → Host.Outcome (State × StepMarks) Fault Refusal
  | .next s => .next (s, m)
  | .fault f => .fault f
  | .refused r => .refused r

/-- One access of the host, as `HostOp.atPort` gives it: an access of the system bus that is left is outside
the window, and nothing of HMSYN sees it (R100, log 18). A DMA bus error can only strike a running transfer,
and is outside the spec there (R420, U7, log 16). -/
def runOp (resetting : Bool) (m : StepMarks) (s : State) :
    HostOp → Host.Outcome (State × StepMarks) Fault Refusal
  | .read off size => .next (windowRead s off size, m)
  | .write off size v => .next (windowWrite resetting m s off size v)
  | .busRead _ _ => .next (s, m)
  | .busWrite _ _ _ => .next (s, m)
  | .hmemRead a => keepMarks m (hostHmemRead s a)
  | .hmemWrite a v => keepMarks m (hostHmemWrite s a v)
  | .dmaBusError =>
    if s.status.busy && !(footprint s.running s).hmem.isEmpty then .refused .dmaBusError
    else .next (s, m)

/-- The accesses of one step, in order (R106). -/
def runOps (resetting : Bool) :
    List HostOp → StepMarks → State → Host.Outcome State Fault Refusal
  | [], _, s => .next s
  | op :: ops, m, s =>
    match runOp resetting m s op with
    | .next sm => runOps resetting ops sm.2 sm.1
    | .fault f => .fault f
    | .refused r => .refused r

/-- The access is a write of CTRL with SRST = 1 (R43, R443). -/
def HostOp.isSoftReset : HostOp → Bool
  | .write off .b32 v => regAt off == some .ctrl && v.getLsbD 1
  | _ => false

/-- The step holds a soft reset. -/
def HostCycle.softResets : HostCycle → Bool
  | .accesses ops => ops.any HostOp.isSoftReset
  | _ => false

/-- The accesses of the host while RST_N is asserted: window accesses are ignored and read 0 (R440); the
host's own accesses to HMEM do not pass HMSYN. -/
def runOpsInReset : List HostOp → State → Host.Outcome State Fault Refusal
  | [], s => .next s
  | .read _ _ :: ops, s => runOpsInReset ops (s.answer 0)
  | .write _ _ _ :: ops, s => runOpsInReset ops s
  | .busRead _ _ :: ops, s => runOpsInReset ops s
  | .busWrite _ _ _ :: ops, s => runOpsInReset ops s
  | .dmaBusError :: ops, s => runOpsInReset ops s
  | .hmemRead a :: ops, s =>
    match hostHmemRead s a with
    | .next t => runOpsInReset ops t
    | .fault f => .fault f
    | .refused r => .refused r
  | .hmemWrite a v :: ops, s =>
    match hostHmemWrite s a v with
    | .next t => runOpsInReset ops t
    | .fault f => .fault f
    | .refused r => .refused r

end Sys2Proof.Machine
end

