-- ==== Sys2Proof/Machine/Assembler.lean ====
section
/-! DEFINITION. The host statements of the assembler and their pseudo-instructions as what the host
presents (30_encoding.md R130, R131, log 20). -/

namespace Sys2Proof.Machine

/-- The offset of a parameter register (R49). -/
def Param.offset (p : Param) : Nat := 0x020 + 4 * Param.all.idxOf p

/-- The offset of a register (R40). -/
def Reg.offset : Reg → BitVec 12
  | .id => 0x000
  | .ctrl => 0x004
  | .status => 0x008
  | .cmd => 0x00C
  | .taddr => 0x010
  | .tdataLo => 0x014
  | .tdataHi => 0x018
  | .param p => BitVec.ofNat 12 p.offset
  | .descBase n => BitVec.ofNat 12 (0x100 + 16 * n.toNat)
  | .descW n => BitVec.ofNat 12 (0x104 + 16 * n.toNat)
  | .descH n => BitVec.ofNat 12 (0x108 + 16 * n.toNat)
  | .descStat n => BitVec.ofNat 12 (0x10C + 16 * n.toNat)

/-- The host statements of R130 and the pseudo-instructions of R131. -/
inductive HostStmt where
  /-- a command statement: a host write of its word to CMD -/
  | command (i : Instr)
  /-- `.word v` -/
  | word (v : Word)
  /-- `WR reg, v` -/
  | wr (r : Reg) (v : Word)
  /-- `RD reg` -/
  | rd (r : Reg)
  /-- `TW lo, hi` -/
  | tw (lo hi : Word)
  /-- `TR` -/
  | tr
  /-- `WAIT` -/
  | wait
  /-- `SOLID d, color` -/
  | solid (d : Slot) (color : Word)
  /-- `MERGE2.ADD d, a, b` -/
  | merge2Add (d a b : Slot)
  /-- `MERGE2.SUB d, a, b` -/
  | merge2Sub (d a b : Slot)
  /-- `MERGE2.MUL d, a, b` -/
  | merge2Mul (d a b : Slot)
  /-- `ACK` -/
  | ack
  /-- `SETDIM w, h` -/
  | setdim (w h : Word)
  deriving DecidableEq, Repr

/-- A 32-bit host write of v to a register, in a step of its own. -/
def cycleWrite (r : Reg) (v : Word) : HostCycle := .accesses [.write r.offset .b32 v]

/-- A 32-bit host read of a register, in a step of its own. -/
def cycleRead (r : Reg) : HostCycle := .accesses [.read r.offset .b32]

/-- `a | b<<4`, the list register of MERGE2 (R131). -/
def mlistOf2 (a b : Slot) : Word := 0#24 ++ b ++ a

/-- What the host presents for a statement, its pseudo-instructions expanded (R130, R131). -/
def HostStmt.cycles : HostStmt → List HostCycle
  | .command i => [cycleWrite .cmd (encode i)]
  | .word v => [cycleWrite .cmd v]
  | .wr r v => [cycleWrite r v]
  | .rd r => [cycleRead r]
  | .tw lo hi => [cycleWrite .tdataLo lo, cycleWrite .tdataHi hi]
  | .tr => [cycleRead .tdataLo, cycleRead .tdataHi]
  | .wait => [.waitIdle]
  | .solid d color =>
    [cycleWrite (.param .oct) 0, cycleWrite (.param .color0) color,
     cycleWrite .cmd (encode (.synth d 0))]
  | .merge2Add d a b =>
    [cycleWrite (.param .mlist) (mlistOf2 a b), cycleWrite .cmd (encode (.mergeAdd d 2))]
  | .merge2Sub d a b =>
    [cycleWrite (.param .mlist) (mlistOf2 a b), cycleWrite .cmd (encode (.mergeSub d 2))]
  | .merge2Mul d a b =>
    [cycleWrite (.param .mlist) (mlistOf2 a b), cycleWrite .cmd (encode (.mergeMul d 2))]
  | .ack => [cycleWrite .status 0x0000000E#32]
  | .setdim w h => [cycleWrite (.param .width) w, cycleWrite (.param .height) h]

/-- The host's program: its statements one after the other (R130). -/
def hostProgram (l : List HostStmt) : List HostCycle := l.flatMap HostStmt.cycles

/-- The integer nearest to a rational, ties to even (R130). -/
def roundHalfEven (x : Rat) : Int :=
  let f := x.floor
  let r := x - f
  if r < 1 / 2 then f else if 1 / 2 < r then f + 1 else if f % 2 = 0 then f else f + 1

/-- The greatest e with 2^e <= a, for a positive rational a. -/
def binaryExponent (a : Rat) : Int :=
  let e : Int := (a.num.toNat.log2 : Int) - (a.den.log2 : Int)
  if (2 : Rat) ^ e ≤ a then e else e - 1

/-- `f:<decimal>`: the binary32 nearest to a number, ties to even (R130). A pattern is sign, biased exponent
and fraction, so the number of a finite magnitude pattern is its place among them; beyond the largest one
it is the infinity (log 20). A negative number that rounds to zero keeps its sign, 0x80000000: R130
leaves it open which zero is meant, PRESUMED from IEEE 754 (log 23). -/
def f32OfRat (q : Rat) : Word :=
  let a := |q|
  let e : Int := max (binaryExponent a) (-126)
  let mant := roundHalfEven (a * (2 : Rat) ^ (23 - e))
  let magnitude := ((e + 126) * 2 ^ 23 + mant).toNat
  let sign : Nat := if q < 0 then 2 ^ 31 else 0
  if a = 0 then 0 else BitVec.ofNat 32 (sign + min magnitude 0x7F800000)

end Sys2Proof.Machine
end

