-- ==== Sys2Proof/Machine/Engine.lean ====
section
/-! DEFINITION. One step of the machine: the engine's part, then the host's (R411, R443, R460, logs 1
and 13). -/

namespace Sys2Proof.Machine

/-- The end of the lattice build (R65, R442). -/
def State.finishBuild (s : State) : State :=
  { s with lattice := s.params.lattice, status := { s.status with latticeReady := true } }

/-- The running command runs to its completion, with what the host's races leave (R103, R405, R453). -/
def runToCompletion (s : State) : Host.Outcome State Fault Refusal :=
  match exec s.running s with
  | .next t => .next (applyRaces s.running s t)
  | .fault f => .fault f
  | .refused r => .refused r

/-- The engine's part of a step: nothing while its work is not at its end; else the lattice build ends;
else the running command completes; an idle engine does nothing (R65, R419, R460). -/
def engineTick (stalled : Bool) (s : State) : Host.Outcome (State × StepMarks) Fault Refusal :=
  if stalled then .next (s, StepMarks.none)
  else if !s.status.latticeReady then .next (s.finishBuild, StepMarks.none)
  else if s.status.busy then
    match runToCompletion s with
    | .next t => .next (t, completionMarks t.status)
    | .fault f => .fault f
    | .refused r => .refused r
  else .next (s, StepMarks.none)

/-- The host's part of a step. WAIT and the wait for IRQ stay in front of the queue until they end
(R131, R381). -/
def hostTick (resetting : Bool) (c : HostCycle) (m : StepMarks) (s : State) :
    Host.Outcome State Fault Refusal :=
  match c with
  | .accesses ops => runOps resetting ops m s
  | .waitIdle =>
    let t := s.answer s.status.word
    .next (if s.status.busy then { t with hostq := .waitIdle :: t.hostq } else t)
  | .waitIrq => .next (if s.irq then s else { s with hostq := .waitIrq :: s.hostq })
  | .rstN ops => runOpsInReset ops s.powerOn

/-- What the host presents in the coming step, as the register port sees it (R100); an empty queue is a host
that does nothing. -/
def State.nextCycle (s : State) : HostCycle :=
  (s.hostq.headD (.accesses [])).atPort s.params.hmsynBase

/-- The engine does not reach the end of its work in the coming step. -/
def State.nextStall (s : State) : Bool := s.stalls.headD false

/-- The state with the coming step's input taken from the queues. -/
def State.popInput (s : State) : State :=
  { s with hostq := s.hostq.tail, stalls := s.stalls.tail, hostReads := [] }

/-- The step holds a reset of either kind, and then no completion takes place in it (R440, R443). -/
def HostCycle.resets : HostCycle → Bool
  | .rstN _ => true
  | c => c.softResets

/-- One step of the machine: the engine's update first, then the host's accesses (R411); a reset in the
step discards the engine's update (R443). -/
def machineStep (s : State) : Host.Outcome State Fault Refusal :=
  if s.nextCycle.resets then hostTick true s.nextCycle StepMarks.none s.popInput
  else
    match engineTick s.nextStall s.popInput with
    | .next tm => hostTick false s.nextCycle tm.2 tm.1
    | .fault f => .fault f
    | .refused r => .refused r

end Sys2Proof.Machine
end

