-- ==== Sys2Proof/Machine/Step.lean ====
section
/-! DEFINITION. The step function, and how a command word is placed for the next step. -/

namespace Sys2Proof.Machine

/-- One step of the machine (`machineStep`). -/
def step (s : State) : Host.Outcome State Fault Refusal := machineStep s

/-- The state in which the engine has just accepted the command word held in the low `nbits` bits of `w`,
with the lattice built, no stall, and no access of the host in the way: the next step runs exactly that
command (log 2). -/
def State.withFetchWord (s : State) (nbits w : Nat) : State :=
  State.accept
    { s with
      lattice := s.params.lattice
      status := { s.status with latticeReady := true }
      stalls := []
      hostq := [] }
    (BitVec.ofNat 32 (w % 2 ^ nbits))

end Sys2Proof.Machine
end

