-- ==== Sys2Proof/Safety.lean ====
section
/-! DEFINITION. The invariants of the machine and the terms in which statements speak of a command's
effect and of what it leaves unchanged. -/

namespace Sys2Proof.Machine

/-! ### Invariants -/

/-- The domain of the parameters (R7, R61; 93_implementation_defined.md section 3). -/
structure Params.Ok (p : Params) : Prop where
  tmem : 1 ≤ p.tmemTexels ∧ p.tmemTexels ≤ 2 ^ 32
  hmem : 1 ≤ p.hmemSize ∧ p.hmemSize ≤ 2 ^ 32
  permLength : p.lattice.perm.length = 512
  permBijection : (p.lattice.perm.take 256).Perm (List.range 256)
  permRepeat : p.lattice.perm.drop 256 = p.lattice.perm.take 256
  gradLength : p.lattice.grad.length = 256
  gradBound : ∀ g ∈ p.lattice.grad, |g.1| ≤ 16384 ∧ |g.2| ≤ 16384

/-- The descriptor invariants of R36. -/
def Desc.Ok (p : Params) (d : Desc) : Prop :=
  if d.valid then 1 ≤ d.w.toNat ∧ 1 ≤ d.h.toNat ∧ d.base.toNat + d.count ≤ p.tmemTexels
  else d.w = 0 ∧ d.h = 0

/-- Every descriptor, live or in the snapshot, keeps R36. -/
def State.DescsOk (s : State) : Prop :=
  ∀ n : Slot, (s.desc.at n).Ok s.params ∧ (s.snap.desc.at n).Ok s.params

/-- Both memories are in canonical form. -/
def State.MemoriesOk (s : State) : Prop := s.tmem.wf ∧ s.hmem.wf

/-- Nothing is stored at an address that does not exist (R91, R93). -/
def State.AddressesOk (s : State) : Prop :=
  (∀ a t, s.tmem.find a = some t → a < s.params.tmemTexels) ∧
    (∀ a b, s.hmem.find a = some b → a < s.params.hmemSize)

/-- Bit 15 of every lane of every stored texel is 0 (R32). -/
def State.HeadroomOk (s : State) : Prop :=
  ∀ a t, s.tmem.find a = some t → t &&& headroomMask = t

/-- Every texel of a valid buffer has been written since power-on (R72). -/
def State.RegionsWritten (s : State) : Prop :=
  ∀ (n : Slot) (p : Nat),
    ((s.desc.at n).valid = true → p < (s.desc.at n).count →
      (s.tmem.find ((s.desc.at n).base.toNat + p)).isSome) ∧
    ((s.snap.desc.at n).valid = true → p < (s.snap.desc.at n).count →
      (s.tmem.find ((s.snap.desc.at n).base.toNat + p)).isSome)

/-- What STATUS can hold: ERRCODE is 0 exactly when ERR is 0, no code above 7 is reported, and a running
command has cleared DONE and ERR (R44, R45, R401; 93_implementation_defined.md section 2). -/
def State.StatusOk (s : State) : Prop :=
  (s.status.err = false ↔ s.status.errcode = 0) ∧ s.status.errcode.toNat ≤ 7 ∧
    (s.status.busy = true → s.status.done = false ∧ s.status.err = false)

/-- Once built, the lattice RAM holds the lattice of the machine (R60, R64, R65). -/
def State.LatticeOk (s : State) : Prop :=
  s.status.latticeReady = true → s.lattice = s.params.lattice

/-- The snapshot of a running command holds the word CMD shows (R45, R69). -/
def State.SnapshotOk (s : State) : Prop := s.status.busy = true → s.snap.cmd = s.cmd

/-- What the host has raced on lies in the memories (R91, R93, R453). -/
def State.RacesOk (s : State) : Prop :=
  (∀ a ∈ s.racedTexels, a < s.params.tmemTexels) ∧ (∀ a ∈ s.racedBytes, a < s.params.hmemSize)

/-- The host has written no texel and no byte of the running command's data (R453 is kept). -/
def State.NoRace (s : State) : Prop := s.racedTexels = [] ∧ s.racedBytes = []

/-! ### Effects and frames of a command -/

/-- Every register, latch and internal piece of state but STATUS, the descriptors and the two memories is
as before: no command writes any of them (R30, R402). -/
structure SameRegisters (s t : State) : Prop where
  params : t.params = s.params
  irqEn : t.irqEn = s.irqEn
  cmd : t.cmd = s.cmd
  taddr : t.taddr = s.taddr
  rdlatch : t.rdlatch = s.rdlatch
  wrlatch : t.wrlatch = s.wrlatch
  par : t.par = s.par
  snap : t.snap = s.snap
  lattice : t.lattice = s.lattice
  racedTexels : t.racedTexels = s.racedTexels
  racedBytes : t.racedBytes = s.racedBytes
  draws : t.draws = s.draws
  stalls : t.stalls = s.stalls
  hostq : t.hostq = s.hostq
  hostReads : t.hostReads = s.hostReads

/-- Command `i` answers a next state in which STATUS shows success (BUSY 0, DONE 1, the other flags as
before), every register is as before, and `P` holds. -/
def Succeeds (i : Instr) (s : State) (P : State → Prop) : Prop :=
  ∃ t, exec i s = .next t ∧
    t.status = { s.status with busy := false, done := true } ∧ SameRegisters s t ∧ P t

/-- Every texel outside `n` texels from `base` reads as before. -/
def SameTexelsOutside (s t : State) (base n : Nat) : Prop :=
  ∀ a, (a < base ∨ base + n ≤ a) → t.tmem.find a = s.tmem.find a

/-- Slot d holds a buffer of W x H texels at the snapshot's BASE, texel (x, y) being `px x y`; every other
texel, every other slot and all of HMEM are as before (R35, R38). -/
structure ProducedBuffer (s t : State) (d : Slot) (w h : Word) (px : Nat → Nat → Texel) : Prop where
  texels : ∀ x y, x < w.toNat → y < h.toNat →
    t.tmem.find ((s.snap.desc.at d).base.toNat + (y * w.toNat + x)) = some (px x y)
  otherTexels : SameTexelsOutside s t (s.snap.desc.at d).base.toNat (w.toNat * h.toNat)
  slot : t.desc.at d = { base := (s.snap.desc.at d).base, w := w, h := h, valid := true }
  otherSlots : ∀ n, n ≠ d → t.desc.at n = s.desc.at n
  hmem : t.hmem = s.hmem

/-- The buffer of slot d, as the snapshot describes it, has texel number p equal to `px p`; every other
texel, every descriptor and all of HMEM are as before. -/
structure EditedBuffer (s t : State) (d : Slot) (px : Nat → Texel) : Prop where
  texels : ∀ p, p < (s.snap.desc.at d).count →
    tread t ((s.snap.desc.at d).base.toNat + p) = px p
  otherTexels : SameTexelsOutside s t (s.snap.desc.at d).base.toNat (s.snap.desc.at d).count
  desc : t.desc = s.desc
  hmem : t.hmem = s.hmem

/-- STATUS of a command that runs and has not ended: BUSY = 1, DONE, ERR and ERRCODE cleared (R45). -/
def State.Accepted (s : State) : Prop :=
  s.status.busy = true ∧ s.status.done = false ∧ s.status.err = false ∧ s.status.errcode = 0

/-- Command `i` answers a next state in which STATUS shows success and no memory, no descriptor and no
register is changed. -/
def ChangesOnlyStatus (i : Instr) (s : State) : Prop :=
  exec i s = .next { s with status := { s.status with busy := false, done := true } }

/-- The output region of slot d fits TMEM (R401, NOMEM passes). -/
def OutputFits (s : State) (d : Slot) (count : Nat) : Prop :=
  (s.snap.desc.at d).base.toNat + count ≤ s.params.tmemTexels

/-- Two regions share no index (R39). -/
def NoOverlap (a m b n : Nat) : Prop := ∀ i, ¬(a ≤ i ∧ i < a + m ∧ b ≤ i ∧ i < b + n)

/-! ### The checks of R401, read from the rule and not from the meanings -/

/-- The first cause that holds gives the code; where none holds the code is 0 (R401). -/
def FirstCause : List (Prop × BitVec 4) → BitVec 4 → Prop
  | [], c => c = 0
  | (p, e) :: l, c => (p ∧ c = e) ∨ (¬p ∧ FirstCause l c)

/-- INVALID_DIM (R401). -/
def DimCause (s : State) : Prop := s.snap.par.width.toInt < 1 ∨ s.snap.par.height.toInt < 1

/-- P_WIDTH times P_HEIGHT, for positive ones. -/
def parCount (s : State) : Nat := s.snap.par.width.toInt.toNat * s.snap.par.height.toInt.toNat

/-- NOMEM for W·H = count texels of output in slot d (R401). -/
def NomemCause (s : State) (d : Slot) (count : Nat) : Prop :=
  s.params.tmemTexels < (s.snap.desc.at d).base.toNat + count

/-- The slot is empty (R401, EMPTY_SRC). -/
def EmptyCause (s : State) (n : Slot) : Prop := (s.snap.desc.at n).valid = false

/-- The output of `count` texels in slot d shares a texel index with the region of slot n (R39). -/
def SharesTexel (s : State) (d : Slot) (count : Nat) (n : Slot) : Prop :=
  ¬NoOverlap (s.snap.desc.at d).base.toNat count
    (s.snap.desc.at n).base.toNat (s.snap.desc.at n).count

/-- The output of `count` texels in slot d has the base and the size of the region of slot n (R39). -/
def SameRegion (s : State) (d : Slot) (count : Nat) (n : Slot) : Prop :=
  (s.snap.desc.at d).base = (s.snap.desc.at n).base ∧ count = (s.snap.desc.at n).count

/-- The causes of MERGE d, n, in order (R320, R401, R403). -/
def mergeCauses (s : State) (d : Slot) (n : Nat) : List (Prop × BitVec 4) :=
  let l := fun k => s.snap.desc.at (mlistAt s k)
  [(∃ k, k < n ∧ EmptyCause s (mlistAt s k), 4),
   (∃ k, k < n ∧ ((l k).w ≠ (l 0).w ∨ (l k).h ≠ (l 0).h), 2),
   (NomemCause s d (l 0).count, 5),
   (∃ k, k < n ∧ SharesTexel s d (l 0).count (mlistAt s k) ∧
      ¬SameRegion s d (l 0).count (mlistAt s k), 6)]

/-- The causes of IMPORT with n channels, in order (R361, R362). -/
def importCauses (s : State) (d : Slot) (n : Nat) : List (Prop × BitVec 4) :=
  [(DimCause s, 1), (NomemCause s d (parCount s), 5),
   (s.params.hmemSize < s.snap.par.haddr.toNat + n * parCount s, 7)]

/-- The checks that apply to a command, in order, with their codes (R404). -/
def causes (i : Instr) (s : State) : List (Prop × BitVec 4) :=
  match i with
  | .nop => []
  | .synth d _ => [(DimCause s, 1), (NomemCause s d (parCount s), 5)]
  | .normal d src _ _ _ =>
    [(EmptyCause s src, 4), (NomemCause s d (s.snap.desc.at src).count, 5),
     (SharesTexel s d (s.snap.desc.at src).count src, 6)]
  | .grad d _ => [(DimCause s, 1), (NomemCause s d (parCount s), 5)]
  | .glow d _ _ _ _ => [(EmptyCause s d, 4)]
  | .mergeAdd d n => mergeCauses s d n
  | .mergeSub d n => mergeCauses s d n
  | .mergeMul d n => mergeCauses s d n
  | .mergeAdd3 d n => mergeCauses s d n
  | .colorizeMul d => [(EmptyCause s d, 4)]
  | .colorizeAdd d => [(EmptyCause s d, 4)]
  | .colorizeSub d => [(EmptyCause s d, 4)]
  | .colorizeGray d => [(EmptyCause s d, 4)]
  | .colorizeInv d => [(EmptyCause s d, 4)]
  | .colorizeNop5 d => [(EmptyCause s d, 4)]
  | .colorizeNop6 d => [(EmptyCause s d, 4)]
  | .colorizeNop7 d => [(EmptyCause s d, 4)]
  | .copy d src =>
    [(EmptyCause s src, 4), (NomemCause s d (s.snap.desc.at src).count, 5),
     (SharesTexel s d (s.snap.desc.at src).count src ∧
        ¬SameRegion s d (s.snap.desc.at src).count src, 6)]
  | .release _ => []
  | .importG d => importCauses s d 1
  | .importRgb d => importCauses s d 3
  | .importRgba d => importCauses s d 4
  | .illegalImport3 => [(True, 3)]
  | .exportBuf src =>
    [(EmptyCause s src, 4),
     (s.params.hmemSize < s.snap.par.haddr.toNat + 4 * (s.snap.desc.at src).count, 7)]
  | .rawfill src =>
    [(EmptyCause s src, 4),
     (s.params.hmemSize < s.snap.par.haddr.toNat +
        ((s.snap.desc.at src).h.toNat - 1) * s.snap.par.hstride.toNat +
        4 * (s.snap.desc.at src).w.toNat, 7)]
  | .illegal _ => [(True, 3)]

/-- The STATUS word of R406 for an error code, LATTICE_READY being 1 and OVERRUN 0. -/
def completionWord (code : BitVec 4) : Word := if code = 0 then 0x12 else 0x16 ||| (code.setWidth 32 <<< 8)

/-! ### The register window -/

/-- Every register, latch and descriptor has its value after a reset (R441). -/
structure ResetRegisters (t : State) : Prop where
  irqEn : t.irqEn = false
  status : t.status = Status.zero
  cmd : t.cmd = 0
  taddr : t.taddr = 0
  rdlatch : t.rdlatch = 0
  wrlatch : t.wrlatch = 0
  par : t.par = ParamRegs.zero
  desc : ∀ n, t.desc.at n = { base := 0, w := 0, h := 0, valid := false }

/-- The bits of a register that a read can show as 1 (R41 to R55). -/
def readBits : Reg → Word
  | .ctrl => 0x00000001
  | .status => 0x00000F1F
  | .param .freq => 0x000000FF
  | .param .oct => 0x000000FF
  | .param .seed => 0x000000FF
  | .descStat _ => 0x00000001
  | _ => 0xFFFFFFFF

/-- The bits of a register that a write looks at (R41 to R55). -/
def writeBits : Reg → Word
  | .id => 0
  | .ctrl => 0x00000003
  | .status => 0x0000000E
  | .param .freq => 0x000000FF
  | .param .oct => 0x000000FF
  | .param .seed => 0x000000FF
  | .descW _ => 0
  | .descH _ => 0
  | .descStat _ => 0
  | _ => 0xFFFFFFFF

/-- The table of R49: the offset of each parameter register, its name, and what a read of it shows, which of an
8-bit register is 0 in bits 31:8. -/
def paramMap : List (BitVec 12 × Param × (ParamRegs → Word)) :=
  [(0x020, .width, fun p => p.width), (0x024, .height, fun p => p.height),
   (0x028, .freq, fun p => p.freq.setWidth 32), (0x02C, .oct, fun p => p.oct.setWidth 32),
   (0x030, .falloff, fun p => p.falloff), (0x034, .seed, fun p => p.seed.setWidth 32),
   (0x038, .amp, fun p => p.amp), (0x03C, .gamma, fun p => p.gamma),
   (0x040, .color0, fun p => p.color0), (0x044, .color1, fun p => p.color1)] ++
  [(0x048, .strength, fun p => p.strength), (0x04C, .position, fun p => p.position),
   (0x050, .angle, fun p => p.angle), (0x054, .len, fun p => p.len),
   (0x058, .cx, fun p => p.cx), (0x05C, .cy, fun p => p.cy),
   (0x060, .rx, fun p => p.rx), (0x064, .ry, fun p => p.ry),
   (0x068, .fx, fun p => p.fx), (0x06C, .fy, fun p => p.fy)] ++
  [(0x070, .alpha, fun p => p.alpha), (0x074, .power, fun p => p.power),
   (0x078, .mlist, fun p => p.mlist), (0x07C, .haddr, fun p => p.haddr),
   (0x080, .hstride, fun p => p.hstride)]

/-! ### Ignored bits (R123) -/

/-- The bits of a command word that its command names (R124, R125); all others are ignored. -/
def usedBits (op : BitVec 4) : Word :=
  match op with
  | 0x1#4 => 0x000300FF
  | 0x2#4 => 0x00070FFF
  | 0x3#4 => 0x000300FF
  | 0x4#4 => 0x000F00FF
  | 0x5#4 => 0x000370FF
  | 0x6#4 => 0x000700FF
  | 0x7#4 => 0x00000FFF
  | 0x8#4 => 0x000000FF
  | 0x9#4 => 0x000300FF
  | 0xA#4 => 0x00000F0F
  | 0xB#4 => 0x00000F0F
  | _ => 0x0000000F

/-- The illegal encodings (R127). -/
def IllegalWord (c : Word) : Prop :=
  12 ≤ (opField c).toNat ∨ (opField c = 9 ∧ mode2 c = 3)

/-! ### Values of the noise and of the normal, as the rules write them -/

/-- N_i(x, y) for octave i and the pixel at (x, y), from the coordinates of R204, the lattice lookup of R205
with the seed on Y only, the cell, the fraction and the corner products of R206, the fade of R168 and the
interpolation of R169. -/
def octaveAt (s : State) (i x y : Nat) : Int :=
  let u := x * 65536 / s.snap.par.width.toNat
  let w := y * 65536 / s.snap.par.height.toNat
  let m := (2 ^ i - 1) &&& 255
  let cx := u / 2 ^ (16 - i)
  let cy := w / 2 ^ (16 - i)
  let tx : Int := ((u * 2 ^ i % 65536 : Nat) : Int)
  let ty : Int := ((w * 2 ^ i % 65536 : Nat) : Int)
  let P := fun k => s.lattice.perm.getD k 0
  let grad := fun ix iy => s.lattice.grad.getD (P (P ix + (iy ^^^ s.snap.par.seed.toNat))) (0, 0)
  let dot := fun (g : Int × Int) (dx dy : Int) => fdiv (g.1 * dx + g.2 * dy) 16384
  let fade := fun t : Int => fdiv (t ^ 3 * (6 * t ^ 2 - 15 * 65536 * t + 10 * 65536 ^ 2)) (2 ^ 64)
  let mix := fun a b v : Int => a + fdiv ((b - a) * v) 65536
  mix
    (mix (dot (grad (cx &&& m) (cy &&& m)) tx ty)
      (dot (grad ((cx + 1) &&& m) (cy &&& m)) (tx - 65536) ty) (fade tx))
    (mix (dot (grad (cx &&& m) ((cy + 1) &&& m)) tx (ty - 65536))
      (dot (grad ((cx + 1) &&& m) ((cy + 1) &&& m)) (tx - 65536) (ty - 65536)) (fade tx))
    (fade ty)

/-- A_i of R207, with the exponent that OCTAVE_EXPONENT_ORIGIN selects and the clamp to 32 bits. -/
def amplitudeAt (s : State) (i : Nat) : Int :=
  let e := if s.params.octaveOrigin = .absolute then i else i - s.snap.par.freq.toNat
  min (max (fin32 s.snap.par.falloff ^ e * 16384).floor (-2 ^ 31)) (2 ^ 31 - 1)

/-- `acc` of R209 without the skip of R208: every octave below 16 counts, and none from 16 on. -/
def fullNoise (s : State) (x y : Nat) : Int :=
  ((List.range s.snap.par.oct.toNat).map (fun k =>
    let i := s.snap.par.freq.toNat + k
    if i < 16 then fdiv (octaveAt s i x y * amplitudeAt s i) 65536 else 0)).sum

/-- The entry of a 1025-entry table at v, interpolated in 32 steps (R167). -/
def tableAt (T : Nat → Int) (v : Nat) : Int :=
  T (v / 32) + fdiv ((T (v / 32 + 1) - T (v / 32)) * (v % 32 : Nat)) 32

/-- `h(x, y)` of R241 for the buffer of slot n. -/
def heightOfSlot (s : State) (n : Slot) (x y : Int) : Int :=
  let d := s.snap.desc.at n
  lane (tread s (d.base.toNat + (y % d.h.toNat).toNat * d.w.toNat + (x % d.w.toNat).toNat)) 2

/-- The differences gx, gy of R242 and R243, for the kernel that `sharp` selects. -/
def gradientOf (h : Int → Int → Int) (sharp : Bool) (x y : Int) : Int × Int :=
  if sharp then (4 * h (x - 1) y - 4 * h (x + 1) y, 4 * h x (y - 1) - 4 * h x (y + 1))
  else
    (h (x - 2) y + 3 * h (x - 1) y - 3 * h (x + 1) y - h (x + 2) y,
     h x (y - 2) + 3 * h x (y - 1) - 3 * h x (y + 1) - h x (y + 2))

/-- The commands of the MERGE family with their lane operation (R321 to R323). -/
def mergeOps : List ((Slot → Nat → Instr) × (Nat → Nat → Nat)) :=
  [(.mergeAdd, ladd), (.mergeSub, lsub), (.mergeMul, lmul), (.mergeAdd3, ladd)]

/-- TMEM texel `a` has been written since power-on, with bit 15 of every lane clear (R32, R72). -/
def WrittenTexel (s : State) (a : Nat) : Prop :=
  ∃ t, s.tmem.find a = some t ∧ t &&& headroomMask = t

/-- Every texel of the buffer of slot n has been written and keeps the headroom of R32. -/
def WrittenBuffer (s : State) (n : Slot) : Prop :=
  ∀ p, p < (s.snap.desc.at n).count → WrittenTexel s ((s.snap.desc.at n).base.toNat + p)

end Sys2Proof.Machine
end

