-- ==== Sys2Proof/Certificates/Slice0/Obligations.lean ====
section
/-! DEFINITION. The statements about HMSYN for the provers. Each docstring names the rules of the spec
that it formalises; where a statement rests on a choice of the model it names the log entry. -/

open Sys2Proof Sys2Proof.Machine

/-! ### Encoding -/

/-- R129, R132: decoding the word of any well-formed command, or its four little-endian bytes (R94),
gives the command back, every operand at every value. -/
def Obligations.DecodeOfEncode : Prop :=
  ∀ i : Instr, i.WellFormed = true →
    decode (encode i) = i ∧ decodeBytes (bytesOfWord (encode i).toNat) = .ok i

/-- R126, R127: every word decodes to a well-formed command, and to an illegal one exactly at the
encodings R127 lists. -/
def Obligations.DecodeTotalAndLegal : Prop :=
  ∀ c : Word, (decode c).WellFormed = true ∧
    ((decode c = .illegalImport3 ∨ ∃ op, decode c = .illegal op) ↔ IllegalWord c)

/-- R123: two words that agree on the bits their command names decode to the same command. -/
def Obligations.IgnoredBitsDoNotMatter : Prop :=
  ∀ c c' : Word, c &&& usedBits (opField c) = c' &&& usedBits (opField c) → decode c = decode c'

/-- R129: the word of each command, field by field. -/
def Obligations.EncodingRows : Prop :=
  ∀ (d s : Slot) (m : BitVec 2) (f0 f1 f2 f3 : Bool) (n : Nat), 1 ≤ n → n ≤ 8 →
    (encode .nop).toNat = 0x0 ∧
    (encode (.synth d m)).toNat = 0x1 + d.toNat * 2 ^ 4 + m.toNat * 2 ^ 16 ∧
    (encode (.normal d s f0 f1 f2)).toNat = 0x2 + d.toNat * 2 ^ 4 + s.toNat * 2 ^ 8 +
      (f0.toNat + f1.toNat * 2 + f2.toNat * 4) * 2 ^ 16 ∧
    (encode (.grad d m)).toNat = 0x3 + d.toNat * 2 ^ 4 + m.toNat * 2 ^ 16 ∧
    (encode (.glow d f0 f1 f2 f3)).toNat = 0x4 + d.toNat * 2 ^ 4 +
      (f0.toNat + f1.toNat * 2 + f2.toNat * 4 + f3.toNat * 8) * 2 ^ 16 ∧
    (encode (.mergeAdd d n)).toNat = 0x5 + d.toNat * 2 ^ 4 + (n - 1) * 2 ^ 12 ∧
    (encode (.mergeSub d n)).toNat = 0x5 + d.toNat * 2 ^ 4 + (n - 1) * 2 ^ 12 + 1 * 2 ^ 16 ∧
    (encode (.mergeMul d n)).toNat = 0x5 + d.toNat * 2 ^ 4 + (n - 1) * 2 ^ 12 + 2 * 2 ^ 16 ∧
    (encode (.mergeAdd3 d n)).toNat = 0x5 + d.toNat * 2 ^ 4 + (n - 1) * 2 ^ 12 + 3 * 2 ^ 16 ∧
    (encode (.colorizeMul d)).toNat = 0x6 + d.toNat * 2 ^ 4 ∧
    (encode (.colorizeAdd d)).toNat = 0x6 + d.toNat * 2 ^ 4 + 1 * 2 ^ 16 ∧
    (encode (.colorizeSub d)).toNat = 0x6 + d.toNat * 2 ^ 4 + 2 * 2 ^ 16 ∧
    (encode (.colorizeGray d)).toNat = 0x6 + d.toNat * 2 ^ 4 + 3 * 2 ^ 16 ∧
    (encode (.colorizeInv d)).toNat = 0x6 + d.toNat * 2 ^ 4 + 4 * 2 ^ 16 ∧
    (encode (.colorizeNop5 d)).toNat = 0x6 + d.toNat * 2 ^ 4 + 5 * 2 ^ 16 ∧
    (encode (.colorizeNop6 d)).toNat = 0x6 + d.toNat * 2 ^ 4 + 6 * 2 ^ 16 ∧
    (encode (.colorizeNop7 d)).toNat = 0x6 + d.toNat * 2 ^ 4 + 7 * 2 ^ 16 ∧
    (encode (.copy d s)).toNat = 0x7 + d.toNat * 2 ^ 4 + s.toNat * 2 ^ 8 ∧
    (encode (.release d)).toNat = 0x8 + d.toNat * 2 ^ 4 ∧
    (encode (.importG d)).toNat = 0x9 + d.toNat * 2 ^ 4 ∧
    (encode (.importRgb d)).toNat = 0x9 + d.toNat * 2 ^ 4 + 1 * 2 ^ 16 ∧
    (encode (.importRgba d)).toNat = 0x9 + d.toNat * 2 ^ 4 + 2 * 2 ^ 16 ∧
    (encode (.exportBuf s)).toNat = 0xA + s.toNat * 2 ^ 8 ∧
    (encode (.rawfill s)).toNat = 0xB + s.toNat * 2 ^ 8

/-- R129, R340, R342, R362, R370, R372: the words that these rules give as examples decode to the commands
they name, and so do the word of NOP in R129 and the word with OP 9 and CH = 3, which R127 calls illegal. -/
def Obligations.SpecWordsDecode : Prop :=
  decode 0x00000000 = .nop ∧ decode 0x00000031 = .synth 3 0 ∧
    decode 0x00050342 = .normal 4 3 true false true ∧
    decode 0x00030034 = .glow 3 true true false false ∧ decode 0x00021055 = .mergeMul 5 2 ∧
    decode 0x00000017 = .copy 1 0 ∧ decode 0x00000038 = .release 3 ∧
    decode 0x00000029 = .importG 2 ∧ decode 0x00010009 = .importRgb 0 ∧ decode 0x00020019 = .importRgba 1 ∧
    decode 0x0000050A = .exportBuf 5 ∧ decode 0x0000000B = .rawfill 0 ∧
    decode 0x00030009 = .illegalImport3

/-! ### Reset -/

/-- R40, R42, R441: after power-on reset ID reads 0x484D0001, every other register of the window reads 0
(TDATA_LO apart, whose read loads a texel that is not specified then), both latches are 0, every slot is
empty, and IRQ is 0. That TMEM, whose content R441 leaves unspecified, has no texel listed is the model's
choice (log 3): a texel that is not listed reads as a free value. -/
def Obligations.ResetValues : Prop :=
  (readReg State.reset .id).1 = 0x484D0001#32 ∧
    (∀ r : Reg, r ≠ .id → r ≠ .tdataLo → (readReg State.reset r).1 = 0) ∧
    ResetRegisters State.reset ∧ State.reset.irq = false ∧ State.reset.status.word = 0 ∧
    (∀ a, State.reset.tmem.find a = none)

/-- R440, R441: while RST_N is asserted a read of the window returns 0 and a write is ignored, and from
any state every register takes its reset value; HMEM stays where no command runs. That RST_N is a pulse of
one step is the model's choice (log 1), and so is that no texel is listed in TMEM afterwards, whose content
R441 leaves unspecified (log 3). -/
def Obligations.PowerOnReset : Prop :=
  ∀ (s : State) (off off' : BitVec 12) (z z' : AccessSize) (v : Word) (q : List HostCycle),
    s.hostq = .rstN [.read off z, .write off' z' v] :: q →
    ∃ t, step s = .next t ∧ ResetRegisters t ∧ t.irq = false ∧ t.params = s.params ∧
      t.hostReads = [0] ∧ t.hostq = q ∧ (∀ a, t.tmem.find a = none) ∧
      (s.status.busy = false → t.hmem = s.hmem)

/-- R443: a write of CTRL with SRST = 1 is a soft reset in the step of the write, whatever the engine does
in that step: every register takes its value after reset, IRQ_EN too; an idle machine keeps TMEM and HMEM,
and a running command is abandoned, which leaves every texel outside its output and every byte outside the
range of its transfer; the texels and bytes the host has raced on are left out, as the model's choice (logs 10
and 24). A CMD write in the same step is ignored. -/
def Obligations.SoftResetStep : Prop :=
  ∀ (s : State) (v c : Word) (q : List HostCycle), v.getLsbD 1 = true →
    s.hostq = .accesses [.write 0x004 .b32 v] :: q →
    (∃ t, step s = .next t ∧ ResetRegisters t ∧ t.irq = false ∧ t.params = s.params ∧ t.hostq = q ∧
      (s.status.busy = false → t.tmem = s.tmem ∧ t.hmem = s.hmem) ∧
      (∀ a, (∀ r ∈ (footprint s.running s).writes, r.has a = false) → a ∉ s.racedTexels →
        t.tmem.find a = s.tmem.find a) ∧
      (∀ a, (∀ r ∈ (footprint s.running s).hmemWrites, r.has a = false) → a ∉ s.racedBytes →
        t.hmem.find a = s.hmem.find a)) ∧
    step { s with hostq := .accesses [.write 0x004 .b32 v, .write 0x00C .b32 c] :: q } = step s ∧
    step { s with hostq := .accesses [.write 0x00C .b32 c, .write 0x004 .b32 v] :: q } = step s

/-- R444: a texel in the output region of an abandoned command, where the host has raced on nothing, holds
its old value, or its new or an intermediate value of the command as it would have run with the lattice
built, with bit 15 of every lane clear; and every slot is empty. Which values count as intermediate is the
model's choice (log 10). -/
def Obligations.AbandonedRegion : Prop :=
  ∀ (s : State) (a : Nat) (r : Region), s.status.busy = true → s.NoRace →
    r ∈ (footprint s.running s).writes → r.has a = true →
    (∃ v, s.softReset.tmem.find a = some (v &&& headroomMask) ∧
      (v = tread s a ∨
        ∃ m ∈ stageImages s.running { s with lattice := s.params.lattice },
          v = treadIn s.draws m a)) ∧
    ∀ n, (s.softReset.desc.at n).valid = false

/-! ### The register window -/

/-- R92: an access that is not 32 bits wide, or not at a multiple of 4, writes nothing and reads 0. -/
def Obligations.NarrowAccess : Prop :=
  ∀ (s : State) (m : StepMarks) (rst : Bool) (off : BitVec 12) (z : AccessSize) (v : Word),
    (z ≠ .b32 ∨ off.toNat % 4 ≠ 0) →
    windowWrite rst m s off z v = (s, m) ∧
      windowRead s off z = { s with hostReads := s.hostReads ++ [0] }

/-- R41: the access rules of the window: reserved offsets, reserved bits on reads and on writes, read-only
registers, and reads without side effect; and the width rule that R41 refers to R92 for. -/
def Obligations.WindowRules : Prop :=
  (∀ (s : State) (m : StepMarks) (rst : Bool) (off : BitVec 12) (z : AccessSize) (v : Word),
    (z ≠ .b32 ∨ off.toNat % 4 ≠ 0 ∨ off = 0x01C ∨ (0x084 ≤ off.toNat ∧ off.toNat ≤ 0x0FF) ∨
      0x200 ≤ off.toNat) →
    windowWrite rst m s off z v = (s, m) ∧
      windowRead s off z = { s with hostReads := s.hostReads ++ [0] }) ∧
  (∀ (s : State) (r : Reg), (readReg s r).1 &&& ~~~readBits r = 0) ∧
  (∀ (s : State) (m : StepMarks) (rst : Bool) (r : Reg) (v v' : Word),
    v &&& writeBits r = v' &&& writeBits r → writeReg rst m s r v = writeReg rst m s r v') ∧
  (∀ (s : State) (m : StepMarks) (rst : Bool) (r : Reg) (v : Word), writeBits r = 0 →
    writeReg rst m s r v = (s, m)) ∧
  (∀ (s : State) (r : Reg), r ≠ .tdataLo → r ≠ .tdataHi → (readReg s r).2 = s)

/-- R40, R42, R43, R45, R46, R49, R55, R100: the offset of each register, and no other offset is a register;
what a read of ID, CTRL, CMD, TADDR, each parameter register and each descriptor register shows in every state,
with nothing changed; a write of CTRL with SRST = 0 sets IRQ_EN and nothing else, and a write of TADDR sets
TADDR and nothing else. An access of the system bus at HMSYN_BASE plus an offset is the access of the window at
that offset, and one outside the 4 KiB from HMSYN_BASE on does nothing to HMSYN; that the host can put both
accesses into one step and is handed no value from outside the window is the model's choice (logs 13 and 18). -/
def Obligations.RegisterMap : Prop :=
  Reg.offset .id = 0x000 ∧ Reg.offset .ctrl = 0x004 ∧ Reg.offset .status = 0x008 ∧
    Reg.offset .cmd = 0x00C ∧ Reg.offset .taddr = 0x010 ∧ Reg.offset .tdataLo = 0x014 ∧
    Reg.offset .tdataHi = 0x018 ∧
    (∀ e ∈ paramMap, Reg.offset (.param e.2.1) = e.1 ∧ regAt e.1 = some (.param e.2.1) ∧
      ∀ s : State, readReg s (.param e.2.1) = (e.2.2 s.par, s)) ∧
    (∀ p : Param, ∃ e ∈ paramMap, e.2.1 = p) ∧
    (∀ n : Slot, (Reg.offset (.descBase n)).toNat = 0x100 + 16 * n.toNat ∧
      (Reg.offset (.descW n)).toNat = 0x104 + 16 * n.toNat ∧
      (Reg.offset (.descH n)).toNat = 0x108 + 16 * n.toNat ∧
      (Reg.offset (.descStat n)).toNat = 0x10C + 16 * n.toNat) ∧
    (∀ r : Reg, regAt r.offset = some r) ∧
    (∀ (off : BitVec 12) (r : Reg), regAt off = some r → r.offset = off) ∧
    (∀ (s : State) (n : Slot),
      readReg s .id = (0x484D0001#32, s) ∧ readReg s .ctrl = (if s.irqEn then 1 else 0, s) ∧
      readReg s .cmd = (s.cmd, s) ∧ readReg s .taddr = (s.taddr, s) ∧
      readReg s (.descBase n) = ((s.desc.at n).base, s) ∧ readReg s (.descW n) = ((s.desc.at n).w, s) ∧
      readReg s (.descH n) = ((s.desc.at n).h, s) ∧
      readReg s (.descStat n) = (if (s.desc.at n).valid then 1 else 0, s)) ∧
    (∀ (s : State) (m : StepMarks) (rst : Bool) (v : Word),
      (v.getLsbD 1 = false → writeReg rst m s .ctrl v = ({ s with irqEn := v.getLsbD 0 }, m)) ∧
      writeReg rst m s .taddr v = ({ s with taddr := v }, m)) ∧
    ∀ (s : State) (off off' : BitVec 12) (a a' : Nat) (z z' : AccessSize) (v : Word)
      (q : List HostCycle),
      let run := fun ops => step { s with hostq := .accesses ops :: q }
      let outside := fun b => b < s.params.hmsynBase ∨ s.params.hmsynBase + 4096 ≤ b
      run [.busRead (s.params.hmsynBase + off.toNat) z, .busWrite (s.params.hmsynBase + off'.toNat) z' v] =
          run [.read off z, .write off' z' v] ∧
        (outside a → outside a' → run [.busRead a z, .busWrite a' z' v] = run [])

/-- R44: what a read of STATUS shows, and what a write does where the engine sets nothing in the same
step: only DONE, ERR with ERRCODE, and OVERRUN can be cleared, each by its 1, and nothing else changes. -/
def Obligations.StatusReadAndWrite : Prop :=
  ∀ (s : State) (v : Word),
    (readReg s .status).1.getLsbD 0 = s.status.busy ∧
    (readReg s .status).1.getLsbD 1 = s.status.done ∧
    (readReg s .status).1.getLsbD 2 = s.status.err ∧
    (readReg s .status).1.getLsbD 3 = s.status.overrun ∧
    (readReg s .status).1.getLsbD 4 = s.status.latticeReady ∧
    (readReg s .status).1.extractLsb' 8 4 = s.status.errcode ∧
    (readReg s .status).1.extractLsb' 12 20 = 0 ∧ (readReg s .status).1.extractLsb' 5 3 = 0 ∧
    (writeReg false StepMarks.none s .status v).1 =
      { s with status :=
          { busy := s.status.busy
            done := if v.getLsbD 1 then false else s.status.done
            err := if v.getLsbD 2 then false else s.status.err
            overrun := if v.getLsbD 3 then false else s.status.overrun
            latticeReady := s.status.latticeReady
            errcode := if v.getLsbD 2 then 0 else s.status.errcode } }

/-- R411: in the step in which a command completes, the engine's update comes first and wins: a STATUS
write cannot clear the DONE, ERR and ERRCODE of that completion; a CMD write is accepted and sees what the
command left; and a soft reset in that step wins over the completion. An OVERRUN that the engine sets for a
second CMD write is not cleared in the step either; that one step can hold several writes is the model's
inference (log 13). -/
def Obligations.SimultaneousEvents : Prop :=
  ∀ (s u : State) (v c c' r : Word) (q : List HostCycle), s.status.latticeReady = true → s.Accepted →
    s.nextStall = false → s.NoRace → exec s.running s.popInput = .next u → r.getLsbD 1 = true →
    (s.hostq = .accesses [.write 0x008 .b32 v] :: q →
      ∃ t, step s = .next t ∧ t.status.busy = false ∧ t.status.done = true ∧
        t.status.err = u.status.err ∧ t.status.errcode = u.status.errcode) ∧
    (s.hostq = .accesses [.write 0x00C .b32 c] :: q →
      ∃ t, step s = .next t ∧ t.cmd = c ∧ t.Accepted ∧ t.status.overrun = s.status.overrun ∧
        t.snap = { par := u.par, cmd := c, desc := u.desc } ∧ t.tmem = u.tmem ∧ t.desc = u.desc) ∧
    (s.hostq = .accesses [.write 0x00C .b32 c, .write 0x00C .b32 c', .write 0x008 .b32 v] :: q →
      ∃ t, step s = .next t ∧ t.cmd = c ∧ t.status.busy = true ∧ t.status.overrun = true) ∧
    (s.hostq = .accesses [.write 0x004 .b32 r] :: q →
      ∃ t, step s = .next t ∧ t.status.busy = false ∧ t.status.done = false)

/-- R45, with R69: a CMD write is accepted when idle, with the snapshot taken, and is dropped with OVERRUN
while busy; CMD reads the last accepted word, and 0 after reset; the accepted word is the command that
then runs. -/
def Obligations.CmdWrite : Prop :=
  (∀ (s : State) (m : StepMarks) (c : Word), s.status.busy = false →
    ∃ t, (writeReg false m s .cmd c).1 = t ∧ t.cmd = c ∧ t.Accepted ∧
      t.status.overrun = s.status.overrun ∧ t.status.latticeReady = s.status.latticeReady ∧
      t.snap = { par := s.par, cmd := c, desc := s.desc } ∧ t.running = decode c ∧
      (readReg t .cmd).1 = c ∧ t.par = s.par ∧ t.desc = s.desc ∧ t.tmem = s.tmem ∧
      t.hmem = s.hmem ∧ t.irqEn = s.irqEn ∧ t.taddr = s.taddr ∧ t.rdlatch = s.rdlatch ∧
      t.wrlatch = s.wrlatch ∧ t.lattice = s.lattice) ∧
  (∀ (s : State) (m : StepMarks) (c : Word), s.status.busy = true →
    (writeReg false m s .cmd c).1 = { s with status := { s.status with overrun := true } }) ∧
  (readReg State.reset .cmd).1 = 0

/-- R46, R47, R48: a texel written through TDATA_LO and TDATA_HI is stored with bit 15 of every lane
clear and nothing else in TMEM changes; read back through the two registers it is the same; TADDR counts
on after each TDATA_HI; outside TMEM nothing is stored and 0 is read. By R453 this holds while a command runs
too, for a texel outside its regions. The second part says, access by access, all that each one changes:
of a texel of the running command a read loads any value with bit 15 of each lane clear into the latch (U5), and a
write stores nothing in its step and is recorded as a race, whose effect at completion RaceConfined bounds
(U6); of a texel never written a read loads any value (U1). The counter of free values and the record of races
are the model's (logs 3, 7 and 12). -/
def Obligations.TexelPort : Prop :=
  (∀ (s : State) (m : StepMarks) (lo hi : Word), s.texelInFlight s.taddr.toNat = false →
    ∃ t, t = (writeReg false m (writeReg false m s .tdataLo lo).1 .tdataHi hi).1 ∧
      t.taddr = s.taddr + 1 ∧
      { t with taddr := s.taddr, wrlatch := s.wrlatch, tmem := s.tmem } = s ∧
      (∀ a, a ≠ s.taddr.toNat → t.tmem.find a = s.tmem.find a) ∧
      (s.taddr.toNat < s.params.tmemTexels →
        t.tmem.find s.taddr.toNat = some ((hi ++ lo : BitVec 64) &&& 0x7FFF7FFF7FFF7FFF#64)) ∧
      (s.params.tmemTexels ≤ s.taddr.toNat → t.tmem = s.tmem) ∧
      ∃ u, u = (writeReg false m t .taddr s.taddr).1 ∧
        (readReg u .tdataLo).1 =
          (if s.taddr.toNat < s.params.tmemTexels then lo &&& 0x7FFF7FFF#32 else 0) ∧
        (readReg (readReg u .tdataLo).2 .tdataHi).1 =
          (if s.taddr.toNat < s.params.tmemTexels then hi &&& 0x7FFF7FFF#32 else 0) ∧
        (readReg (readReg u .tdataLo).2 .tdataHi).2.taddr = s.taddr + 1) ∧
  (∀ (s : State) (m : StepMarks) (rst : Bool) (lo hi : Word),
    let a := s.taddr.toNat
    let texel := (hi ++ s.wrlatch.extractLsb' 0 32 : BitVec 64) &&& 0x7FFF7FFF7FFF7FFF#64
    let loads := fun (v : Texel) (n : Nat) =>
      readReg s .tdataLo = (v.extractLsb' 0 32, { s with rdlatch := v, draws := n })
    readReg s .tdataHi = (s.rdlatch.extractLsb' 32 32, { s with taddr := s.taddr + 1 }) ∧
    writeReg rst m s .tdataLo lo = ({ s with wrlatch := s.wrlatch.extractLsb' 32 32 ++ lo }, m) ∧
    (s.params.tmemTexels ≤ a → loads 0 s.draws ∧
      writeReg rst m s .tdataHi hi = ({ s with taddr := s.taddr + 1 }, m)) ∧
    (a < s.params.tmemTexels → s.texelInFlight a = true →
      (∃ v : Texel, v &&& headroomMask = v ∧ loads v (s.draws + 1)) ∧
      writeReg rst m s .tdataHi hi =
        ({ s with taddr := s.taddr + 1, racedTexels := a :: s.racedTexels }, m)) ∧
    (a < s.params.tmemTexels → s.texelInFlight a = false →
      (∀ v, s.tmem.find a = some v → loads v s.draws) ∧
      (s.tmem.find a = none → ∃ v, loads v (s.draws + 1)) ∧
      writeReg rst m s .tdataHi hi =
        ({ s with taddr := s.taddr + 1, tmem := s.tmem.write a texel }, m)))

/-- R37: DESCn_BASE takes a host write exactly while slot n is empty, and W, H and VALID never do. -/
def Obligations.DescBaseWrite : Prop :=
  ∀ (s : State) (m : StepMarks) (n : Slot) (v : Word),
    ((s.desc.at n).valid = true → (writeReg false m s (.descBase n) v).1 = s) ∧
    ((s.desc.at n).valid = false → ∃ t, (writeReg false m s (.descBase n) v).1 = t ∧
      t.desc.at n = { (s.desc.at n) with base := v } ∧
      (∀ k, k ≠ n → t.desc.at k = s.desc.at k) ∧ { t with desc := s.desc } = s) ∧
    (writeReg false m s (.descW n) v).1 = s ∧ (writeReg false m s (.descH n) v).1 = s ∧
    (writeReg false m s (.descStat n) v).1 = s

/-- R49: a parameter register reads back what was written, the 8-bit ones their low 8 bits, and a write
changes no other register and nothing else of the machine. -/
def Obligations.ParamWriteRead : Prop :=
  ∀ (s : State) (m : StepMarks) (p q : Param) (v : Word),
    (readReg (writeReg false m s (.param p) v).1 (.param p)).1 =
      (if p = .freq ∨ p = .oct ∨ p = .seed then v &&& 0xFF else v) ∧
    (q ≠ p → (readReg (writeReg false m s (.param p) v).1 (.param q)).1 = (readReg s (.param q)).1) ∧
    { (writeReg false m s (.param p) v).1 with par := s.par } = s

/-- R90, R453 and logs 15 and 16: the host's own accesses to HMEM, and when the failure of a DMA access
stops the run. A read of a byte of the running transfer is answered with any value (U5) and changes nothing
else but the counter of free values (log 7), and a write there changes nothing in its step but the record of
races (log 12), whose effect at completion RaceConfined bounds (U6). The fault outside HMEM and the refusal are the model's choices, and so is that the stride gaps of
a running RAWFILL count as bytes of its transfer (log 22). -/
def Obligations.HostHmemAccess : Prop :=
  ∀ (s : State) (m : StepMarks) (a : Nat) (v : Byte),
    (s.params.hmemSize ≤ a → hostHmemRead s a = .fault (.hmemOutside a) ∧
      hostHmemWrite s a v = .fault (.hmemOutside a)) ∧
    (a < s.params.hmemSize → s.byteInFlight a = false →
      hostHmemRead s a = .next { s with hostReads := s.hostReads ++ [(hread s a).setWidth 32] } ∧
      ∃ t, hostHmemWrite s a v = .next t ∧ hread t a = v ∧
        (∀ b, b ≠ a → t.hmem.find b = s.hmem.find b) ∧ { t with hmem := s.hmem } = s) ∧
    (a < s.params.hmemSize → s.byteInFlight a = true →
      (∃ b : Byte, hostHmemRead s a =
        .next { s with draws := s.draws + 1, hostReads := s.hostReads ++ [b.setWidth 32] }) ∧
      hostHmemWrite s a v = .next { s with racedBytes := a :: s.racedBytes }) ∧
    (runOp false m s .dmaBusError = .refused .dmaBusError ↔
      s.status.busy = true ∧ (footprint s.running s).hmem ≠ [])

/-! ### Races -/

/-- R453 and log 12: a race changes nothing at completion but the texels and bytes it reaches: those the
host wrote and the output that depends on them; where the host has raced on nothing the completion is the
command's own. -/
def Obligations.RaceConfined : Prop :=
  ∀ (s t : State), exec s.running s = .next t →
    (s.NoRace → runToCompletion s = .next t) ∧
    ∃ u, runToCompletion s = .next u ∧ u.status = t.status ∧ u.desc = t.desc ∧ u.par = t.par ∧
      u.cmd = t.cmd ∧ u.taddr = t.taddr ∧ u.rdlatch = t.rdlatch ∧ u.wrlatch = t.wrlatch ∧
      u.irqEn = t.irqEn ∧ u.snap = t.snap ∧ u.lattice = t.lattice ∧
      (∀ a, a ∉ taintedTexels s.running s → u.tmem.find a = t.tmem.find a) ∧
      (∀ b, b ∉ s.racedBytes →
        (∀ st ∈ byteStores s.running s, st.addr = b → st.src ∉ s.racedTexels) →
        u.hmem.find b = t.hmem.find b)

/-- R453, last part: a texel outside every region of the running command can be changed while it runs
without any effect on the command, and the command leaves that texel alone. -/
def Obligations.BystanderTexel : Prop :=
  ∀ (s t : State) (a : Nat) (v : Texel), s.status.busy = true → s.texelInFlight a = false →
    exec s.running s = .next t →
    ∃ t', exec s.running { s with tmem := s.tmem.write a v } = .next t' ∧
      t'.tmem.find a = some v ∧ (∀ b, b ≠ a → t'.tmem.find b = t.tmem.find b) ∧
      t'.hmem = t.hmem ∧ t'.desc = t.desc ∧ t'.status = t.status

/-! ### Steps and completion -/

/-- R103, R120, R405 and log 2: a step of a running engine that reaches the end of its work runs the
decoded command; nothing else happens in a step in which the host does nothing; and `withFetchWord` places
a command word so that the next step runs it. -/
def Obligations.StepRunsDecoded : Prop :=
  (∀ (s : State) (b0 b1 b2 b3 : Byte) (i : Instr), s.snap.cmd = wordOfBytes b0 b1 b2 b3 →
    decodeBytes [b0, b1, b2, b3] = .ok i → s.status.latticeReady = true → s.status.busy = true →
    s.nextStall = false → s.NoRace →
    (s.hostq = [] → step s = exec i { s with stalls := s.stalls.tail, hostReads := [] }) ∧
    (∀ u, s.nextCycle.resets = false → exec i s.popInput = .next u →
      step s = hostTick false s.nextCycle (completionMarks u.status) u)) ∧
  (∀ (s : State) (w : Word),
    step (s.withFetchWord 32 w.toNat) =
      exec (decode w) { (s.withFetchWord 32 w.toNat) with hostReads := [] })

/-- R65, R442: while the lattice build runs no command starts: the step in which the build ends fills the
lattice RAM, sets LATTICE_READY and leaves a command accepted earlier BUSY with its data untouched; a step
before that changes nothing. Here the host does nothing. -/
def Obligations.BuildGate : Prop :=
  ∀ s : State, s.hostq = [] → s.status.latticeReady = false →
    (s.nextStall = true → step s = .next { s with stalls := s.stalls.tail, hostReads := [] }) ∧
    (s.nextStall = false →
      step s = .next { s with
        stalls := s.stalls.tail
        hostReads := []
        lattice := s.params.lattice
        status := { s.status with latticeReady := true } })

/-- R405, R460: every accepted command completes: with an idle host it has completed, with BUSY = 0 and
DONE = 1, after finitely many steps, at most two more than the model's list of stalled steps holds
(log 1). -/
def Obligations.CommandCompletes : Prop :=
  ∀ s : State, s.status.busy = true → s.hostq = [] →
    ∃ k t, k ≤ s.stalls.length + 2 ∧ core.run k s = .next t ∧ t.status.busy = false ∧
      t.status.done = true

/-- R405: every command ends in a next state, with BUSY = 0 and DONE = 1; OVERRUN and LATTICE_READY are
not changed, and no register of the window but STATUS and the descriptors is either. -/
def Obligations.ExecEnds : Prop :=
  ∀ (i : Instr) (s : State), ∃ t, exec i s = .next t ∧ t.status.busy = false ∧
    t.status.done = true ∧ t.status.overrun = s.status.overrun ∧
    t.status.latticeReady = s.status.latticeReady ∧ SameRegisters s t

/-- R402: an error completion changes nothing except STATUS. -/
def Obligations.ErrorChangesOnlyStatus : Prop :=
  ∀ (i : Instr) (s t : State), s.Accepted → exec i s = .next t → t.status.err = true →
    t = { s with status :=
            { s.status with busy := false, done := true, err := true, errcode := t.status.errcode } }

/-- R401, R403, R404, with the ranges of R361: a command completes with the code of the first of its checks
that fails, in the order of the rules, and with success when none fails. -/
def Obligations.FirstFailedCheck : Prop :=
  ∀ (i : Instr) (s t : State), i.WellFormed = true → s.Accepted → 1 ≤ s.params.hmemSize →
    exec i s = .next t →
    FirstCause (causes i s) t.status.errcode ∧ (t.status.err = true ↔ t.status.errcode ≠ 0)

/-- R406: the STATUS words while a command runs and after it has completed. -/
def Obligations.StatusWords : Prop :=
  ∀ (i : Instr) (s t : State), i.WellFormed = true → s.Accepted → 1 ≤ s.params.hmemSize →
    s.status.latticeReady = true → s.status.overrun = false → exec i s = .next t →
    s.status.word = 0x11 ∧ ∃ code, FirstCause (causes i s) code ∧
      t.status.word = completionWord code ∧
      (code = 0 ∨ code = 1 ∨ code = 2 ∨ code = 3 ∨ code = 4 ∨ code = 5 ∨ code = 6 ∨ code = 7)

/-- R410: IRQ is IRQ_EN and DONE: it rises at a completion of either kind or when IRQ_EN is set with DONE
set, falls with a 1 written to DONE, with IRQ_EN cleared, with the next accept and with either reset, and a
dropped CMD write does not move it. -/
def Obligations.IrqLine : Prop :=
  ∀ (i : Instr) (s t : State) (m : StepMarks) (c v : Word), exec i s = .next t →
    s.irq = (s.irqEn && s.status.done) ∧ t.irq = s.irqEn ∧ (s.accept c).irq = false ∧
    (v.getLsbD 1 = true → (writeReg false StepMarks.none s .status v).1.irq = false) ∧
    (writeReg false m s .ctrl 0).1.irq = false ∧
    (writeReg false m s .ctrl 1).1.irq = s.status.done ∧
    (s.status.busy = true → (writeReg false m s .cmd c).1.irq = s.irq) ∧
    s.softReset.irq = false ∧ s.powerOn.irq = false

/-! ### The commands -/

/-- R375, R336: NOP always, and COLORIZE in modes 5 to 7 on a valid buffer, complete and change nothing but
STATUS. -/
def Obligations.NoOperation : Prop :=
  ∀ (s : State) (d : Slot), ChangesOnlyStatus .nop s ∧
    ((s.snap.desc.at d).valid = true → ChangesOnlyStatus (.colorizeNop5 d) s ∧
      ChangesOnlyStatus (.colorizeNop6 d) s ∧ ChangesOnlyStatus (.colorizeNop7 d) s)

/-- R204 to R209, R212 to R214, with R167 to R169 and R178: SYNTH with at least one octave writes at (x, y) the
blend of the two colours by the fade of the noise. The noise is written out octave by octave, summed over
every octave below 16 without the skip of R208, which must change no result; the remap of the mode, the odd and
the even gain, and the gamma table and its lookup are written out too. The slot, the other texels, the other
slots and HMEM are as R38 says. -/
def Obligations.SynthResult : Prop :=
  ∀ (d : Slot) (mode : BitVec 2) (s : State), 1 ≤ s.snap.par.width.toInt →
    1 ≤ s.snap.par.height.toInt → OutputFits s d (parCount s) → s.snap.par.oct ≠ 0 →
    Succeeds (.synth d mode) s fun t =>
      ProducedBuffer s t d s.snap.par.width s.snap.par.height fun x y =>
        let acc := fullNoise s x y
        let r := if mode = 0 then acc else if mode = 1 then |acc| else if mode = 2 then sineQ acc
          else sineQ |acc|
        let ampf := fixFloor32 s.snap.par.amp 32768
        let v := if mode = 1 ∨ mode = 3 then fdiv (r * ampf) (2 ^ 14)
          else fdiv (r * ampf) (2 ^ 15) + 0x4000
        let gamma := fun k : Nat =>
          entry (powCurve s.params.powfn ((k : Rat) / 1024) (fin32 s.snap.par.gamma))
        blend (pack32 s.snap.par.color0) (pack32 s.snap.par.color1) (tableAt gamma (clamp15 v)).toNat

/-- R203: SYNTH with zero octaves fills the buffer with the packed low colour, whatever the lattice and
the other parameters are. -/
def Obligations.SynthZeroOctaves : Prop :=
  ∀ (d : Slot) (mode : BitVec 2) (s : State), 1 ≤ s.snap.par.width.toInt →
    1 ≤ s.snap.par.height.toInt → OutputFits s d (parCount s) → s.snap.par.oct = 0 →
    Succeeds (.synth d mode) s fun t =>
      ProducedBuffer s t d s.snap.par.width s.snap.par.height fun _ _ => pack32 s.snap.par.color0

/-- R211: the accumulated noise is periodic with period 65536 in both coordinates, and column x of a
buffer equals column 2x of a buffer twice as wide with the same other parameters; the same for rows. -/
def Obligations.SynthTileable : Prop :=
  (∀ (l : Lattice) (seed : Nat) (octs : List (Nat × Int)) (u w : Nat),
    noiseAcc l seed octs (u + 65536) w = noiseAcc l seed octs u w ∧
      noiseAcc l seed octs u (w + 65536) = noiseAcc l seed octs u w) ∧
  (∀ (d : Slot) (mode : BitVec 2) (s s' : State), s'.lattice = s.lattice → s'.params = s.params →
    1 ≤ s.snap.par.width.toInt → 1 ≤ s.snap.par.height.toInt → OutputFits s d (parCount s) →
    OutputFits s' d (parCount s') → 2 * s.snap.par.width.toInt < 2 ^ 31 →
    s'.snap.par = { s.snap.par with width := 2 * s.snap.par.width } →
    ∃ t t', exec (.synth d mode) s = .next t ∧ exec (.synth d mode) s' = .next t' ∧
      ∀ x y, x < s.snap.par.width.toNat → y < s.snap.par.height.toNat →
        ∃ v, t.tmem.find ((s.snap.desc.at d).base.toNat + (y * s.snap.par.width.toNat + x)) = some v ∧
          t'.tmem.find ((s'.snap.desc.at d).base.toNat +
            (y * (2 * s.snap.par.width.toNat) + 2 * x)) = some v) ∧
  (∀ (d : Slot) (mode : BitVec 2) (s s' : State), s'.lattice = s.lattice → s'.params = s.params →
    1 ≤ s.snap.par.width.toInt → 1 ≤ s.snap.par.height.toInt → OutputFits s d (parCount s) →
    OutputFits s' d (parCount s') → 2 * s.snap.par.height.toInt < 2 ^ 31 →
    s'.snap.par = { s.snap.par with height := 2 * s.snap.par.height } →
    ∃ t t', exec (.synth d mode) s = .next t ∧ exec (.synth d mode) s' = .next t' ∧
      ∀ x y, x < s.snap.par.width.toNat → y < s.snap.par.height.toNat →
        ∃ v, t.tmem.find ((s.snap.desc.at d).base.toNat + (y * s.snap.par.width.toNat + x)) = some v ∧
          t'.tmem.find ((s'.snap.desc.at d).base.toNat +
            (2 * y * s.snap.par.width.toNat + x)) = some v)

/-- R240 to R248: NORMAL writes at (x, y) the texel of the scaled, reconstructed and flipped differences of
the toroidal R-lane heights; the source buffer stays, as its region is disjoint from the output. -/
def Obligations.NormalResult : Prop :=
  ∀ (d src : Slot) (z3d tan sharp : Bool) (s : State), (s.snap.desc.at src).valid = true →
    OutputFits s d (s.snap.desc.at src).count →
    NoOverlap (s.snap.desc.at d).base.toNat (s.snap.desc.at src).count
      (s.snap.desc.at src).base.toNat (s.snap.desc.at src).count →
    Succeeds (.normal d src z3d tan sharp) s fun t =>
      ProducedBuffer s t d (s.snap.desc.at src).w (s.snap.desc.at src).h fun x y =>
        let g := gradientOf (heightOfSlot s src) sharp x y
        let str := fixFloor32 s.snap.par.strength 256
        let nx := clampS15 (fdiv (g.1 * str * 2 ^ Nat.log2 (s.snap.desc.at src).w.toNat) (2 ^ 12))
        let ny := clampS15 (fdiv (g.2 * str * 2 ^ Nat.log2 (s.snap.desc.at src).h.toNat) (2 ^ 12))
        let rad := 16383 ^ 2 - nx ^ 2 - ny ^ 2
        let l : Int := isqrt (nx ^ 2 + ny ^ 2).toNat
        let mx := if z3d ∧ rad < 0 then clampS15 (fdiv (nx * 16383) l) else nx
        let my := if z3d ∧ rad < 0 then clampS15 (fdiv (ny * 16383) l) else ny
        let z : Int := if z3d then (if rad < 0 then 0 else isqrt rad.toNat) else 16383
        let fy := if tan then clampS15 (-my) else my
        mk (mx + 0x4000).toNat (fy + 0x4000).toNat (z + 0x4000).toNat 0x7FFF

/-- R249: of a source whose texels all have the same R lane, every texel of the normal map is
0x7FFF_4000_4000_7FFF, in both z modes and with both kernels. -/
def Obligations.NormalFlat : Prop :=
  ∀ (d src : Slot) (z3d tan sharp : Bool) (c : Nat) (s : State), (s.snap.desc.at src).valid = true →
    OutputFits s d (s.snap.desc.at src).count →
    NoOverlap (s.snap.desc.at d).base.toNat (s.snap.desc.at src).count
      (s.snap.desc.at src).base.toNat (s.snap.desc.at src).count →
    (∀ p, p < (s.snap.desc.at src).count →
      lane (tread s ((s.snap.desc.at src).base.toNat + p)) 2 = c) →
    Succeeds (.normal d src z3d tan sharp) s fun t =>
      ProducedBuffer s t d (s.snap.desc.at src).w (s.snap.desc.at src).h fun _ _ =>
        0x7FFF400040007FFF#64

/-- R270 to R276: GRAD writes at (x, y) the blend of the two colours by the ramp of the accumulator
A0 + x·DX + y·DY. -/
def Obligations.GradResult : Prop :=
  ∀ (d : Slot) (mode : BitVec 2) (s : State), 1 ≤ s.snap.par.width.toInt →
    1 ≤ s.snap.par.height.toInt → OutputFits s d (parCount s) →
    Succeeds (.grad d mode) s fun t =>
      ProducedBuffer s t d s.snap.par.width s.snap.par.height fun x y =>
        let pa := fixFloor32 s.snap.par.angle 16384 % 16384
        let len : Rat := max (fin32 s.snap.par.len) (1 / 65536)
        let dx := ((sineQ (pa + 4096) : Rat) * 131072 / (len * s.snap.par.width.toNat)).floor
        let dy := ((sineQ pa : Rat) * 131072 / (len * s.snap.par.height.toNat)).floor
        let a0 := (-fin32 s.snap.par.position * 2 ^ 31 / len).floor
        let v := fdiv (a0 + x * dx + y * dy) 65536
        let r := if mode = 1 then 0x4000 + sineQ (12288 + fdiv (min (max v 0) 32768) 4)
          else if mode = 2 then 0x4000 + sineQ (12288 + fdiv v 2) else v
        blend (pack32 s.snap.par.color0) (pack32 s.snap.par.color1) (2 * clamp15 r)

/-- R285 to R292, R296: GLOW changes texel (x, y) of its buffer pass by pass, in the order of the pass
list, each pass that covers the pixel blending the colour over what the passes before left. The weight of a
distance is the curve of R290 at a multiple of 1/32768 below 32, and from 32 on the interpolation of R167 between
its values at multiples of 1/1024 (R178, R181). -/
def Obligations.GlowResult : Prop :=
  ∀ (d : Slot) (wrapx wrapy curve rect : Bool) (s : State), (s.snap.desc.at d).valid = true →
    Succeeds (.glow d wrapx wrapy curve rect) s fun t =>
      EditedBuffer s t d fun p =>
        let w := (s.snap.desc.at d).w.toNat
        let h := (s.snap.desc.at d).h.toNat
        let passes : List (Int × Int) := [(0, 0)] ++
          (if wrapx then [(-(w : Int), 0), ((w : Int), 0)] else []) ++
          (if wrapy then [(0, -(h : Int)), (0, (h : Int))] else [])
        let rx : Rat := max (fin32 s.snap.par.rx) (1 / 65536) * w
        let ry : Rat := max (fin32 s.snap.par.ry) (1 / 65536) * h
        let pw : Rat := if fin32 s.snap.par.power = 0 then 1 / 2 ^ 20 else fin32 s.snap.par.power
        let power : Rat := (1 / 4) / pw
        let c := fun u : Rat =>
          if curve then oneMinusPowCurve s.params.powfn u (2 * power)
          else powCurve s.params.powfn (1 - u) power
        let weight := fun n : Nat =>
          if n < 32 then entry (c ((n : Rat) / 32768))
          else tableAt (fun k => entry (c ((k : Rat) / 1024))) n
        passes.foldl (fun px o =>
          let ddx : Rat := max (|((p % w : Nat) : Rat) - (fin32 s.snap.par.cx * w + o.1)| -
            max (fin32 s.snap.par.fx) 0 * w) 0
          let ddy : Rat := max (|((p / w : Nat) : Rat) - (fin32 s.snap.par.cy * h + o.2)| -
            max (fin32 s.snap.par.fy) 0 * h) 0
          let dist := if rect then max (ddx / rx) (ddy / ry) else (ddx / rx) ^ 2 + (ddy / ry) ^ 2
          let di := (dist * 32768).floor
          if di < 32768 then
            blend px (pack32 s.snap.par.color0)
              (fdiv (weight di.toNat * fixFloor s.snap.par.alpha 65536 0 65535) 65536).toNat
          else px)
        (tread s ((s.snap.desc.at d).base.toNat + p))

/-- R295: GLOW with ALPHA = 0 leaves every texel, every descriptor and HMEM as they are; only STATUS
changes. -/
def Obligations.GlowAlphaZero : Prop :=
  ∀ (d : Slot) (wrapx wrapy curve rect : Bool) (s : State), (s.snap.desc.at d).valid = true →
    fixFloor s.snap.par.alpha 65536 0 65535 = 0 →
    Succeeds (.glow d wrapx wrapy curve rect) s fun t =>
      (∀ a, tread t a = tread s a) ∧ t.desc = s.desc ∧ t.hmem = s.hmem

/-- R320 to R324, R327: each MERGE writes at (x, y), lane by lane, the fold of its list from left to right,
over the texels as they were at the start, which the output region may also be; the frame is that of
R38. -/
def Obligations.MergeResult : Prop :=
  ∀ m ∈ mergeOps, ∀ (d : Slot) (n : Nat) (s : State), 1 ≤ n → n ≤ 8 →
    (∀ k, k < n → (s.snap.desc.at (mlistAt s k)).valid = true ∧
      (s.snap.desc.at (mlistAt s k)).w = (s.snap.desc.at (mlistAt s 0)).w ∧
      (s.snap.desc.at (mlistAt s k)).h = (s.snap.desc.at (mlistAt s 0)).h ∧
      WrittenBuffer s (mlistAt s k) ∧
      (NoOverlap (s.snap.desc.at d).base.toNat (s.snap.desc.at (mlistAt s 0)).count
          (s.snap.desc.at (mlistAt s k)).base.toNat (s.snap.desc.at (mlistAt s 0)).count ∨
        (s.snap.desc.at d).base = (s.snap.desc.at (mlistAt s k)).base)) →
    OutputFits s d (s.snap.desc.at (mlistAt s 0)).count →
    Succeeds (m.1 d n) s fun t =>
      ∃ px, ProducedBuffer s t d (s.snap.desc.at (mlistAt s 0)).w
          (s.snap.desc.at (mlistAt s 0)).h px ∧
        ∀ x y l, x < (s.snap.desc.at (mlistAt s 0)).w.toNat →
          y < (s.snap.desc.at (mlistAt s 0)).h.toNat → l < 4 →
          let input := fun k => lane (tread s ((s.snap.desc.at (mlistAt s k)).base.toNat +
            (y * (s.snap.desc.at (mlistAt s 0)).w.toNat + x))) l
          lane (px x y) l = (List.range (n - 1)).foldl (fun a k => m.2 a (input (k + 1))) (input 0)

/-- R325: a MERGE of one entry, in every mode, is COPY of that entry. -/
def Obligations.MergeOfOne : Prop :=
  ∀ m ∈ mergeOps, ∀ (d : Slot) (s : State), exec (m.1 d 1) s = exec (.copy d (mlistAt s 0)) s

/-- R328: adding b to a and subtracting b from the sum gives back each lane of a that did not saturate,
and 0x7FFF - b where it did. The two commands run one after the other on an idle machine, with the lists
that MERGE2 (R131) writes. The sum may be in place on a, and the result in place on the sum or on b; the sum
keeps off b, as a sum written over b leaves no b to subtract. -/
def Obligations.MergeRoundTrip : Prop :=
  ∀ (s : State) (a b sum r : Slot),
    let D := fun n => s.desc.at n
    let apart := fun m n =>
      NoOverlap (D m).base.toNat (D a).count (D n).base.toNat (D a).count
    (D a).valid = true → (D b).valid = true → (D b).w = (D a).w → (D b).h = (D a).h →
    1 ≤ (D a).count →
    (∀ p, p < (D a).count → WrittenTexel s ((D a).base.toNat + p) ∧
      WrittenTexel s ((D b).base.toNat + p)) →
    (D sum).base.toNat + (D a).count ≤ s.params.tmemTexels →
    (D r).base.toNat + (D a).count ≤ s.params.tmemTexels →
    (apart sum a ∨ (D sum).base = (D a).base) → apart sum b →
    (apart r sum ∨ (D r).base = (D sum).base) → (apart r b ∨ (D r).base = (D b).base) →
    ∃ t, exec (.mergeAdd sum 2)
        (State.accept { s with par := { s.par with mlist := mlistOf2 a b } }
          (encode (.mergeAdd sum 2))) = .next t ∧
      ∃ u, exec (.mergeSub r 2)
          (State.accept { t with par := { t.par with mlist := mlistOf2 sum b } }
            (encode (.mergeSub r 2))) = .next u ∧
        u.status.err = false ∧
        ∀ p l, p < (D a).count → l < 4 →
          let x := lane (tread s ((D a).base.toNat + p)) l
          let y := lane (tread s ((D b).base.toNat + p)) l
          lane (tread u ((D r).base.toNat + p)) l = if x + y ≤ 0x7FFF then x else 0x7FFF - y

/-- R330 to R335: the five COLORIZE operations on a valid buffer, lane by lane and in place; GRAY and INV
keep alpha. Every other texel, every descriptor and HMEM stay. -/
def Obligations.ColorizeResult : Prop :=
  ∀ (d : Slot) (s : State), (s.snap.desc.at d).valid = true → WrittenBuffer s d →
    let old := fun p => tread s ((s.snap.desc.at d).base.toNat + p)
    let c := pack32 s.snap.par.color0
    let n := (s.snap.desc.at d).count
    (Succeeds (.colorizeMul d) s fun t => ∃ px, EditedBuffer s t d px ∧ ∀ p l, p < n → l < 4 →
      lane (px p) l = lane (old p) l * lane c l / 2 ^ 15) ∧
    (Succeeds (.colorizeAdd d) s fun t => ∃ px, EditedBuffer s t d px ∧ ∀ p l, p < n → l < 4 →
      lane (px p) l = min (lane (old p) l + lane c l) 0x7FFF) ∧
    (Succeeds (.colorizeSub d) s fun t => ∃ px, EditedBuffer s t d px ∧ ∀ p l, p < n → l < 4 →
      lane (px p) l = lane (old p) l - lane c l) ∧
    (Succeeds (.colorizeGray d) s fun t => ∃ px, EditedBuffer s t d px ∧ ∀ p l, p < n → l < 4 →
      lane (px p) l = if l = 3 then lane (old p) 3
        else (lane (old p) 2 + lane (old p) 1 + lane (old p) 0) / 3) ∧
    (Succeeds (.colorizeInv d) s fun t => ∃ px, EditedBuffer s t d px ∧ ∀ p l, p < n → l < 4 →
      lane (px p) l = if l = 3 then lane (old p) 3 else 0x7FFF - lane (old p) l)

/-- R340, R341: COPY writes every texel of the source unchanged into the output, which is disjoint from the
source or the same region; with d = s nothing visible changes. -/
def Obligations.CopyResult : Prop :=
  ∀ (d src : Slot) (s : State), (s.snap.desc.at src).valid = true →
    OutputFits s d (s.snap.desc.at src).count →
    (NoOverlap (s.snap.desc.at d).base.toNat (s.snap.desc.at src).count
        (s.snap.desc.at src).base.toNat (s.snap.desc.at src).count ∨
      (s.snap.desc.at d).base = (s.snap.desc.at src).base) →
    Succeeds (.copy d src) s fun t =>
      (ProducedBuffer s t d (s.snap.desc.at src).w (s.snap.desc.at src).h fun x y =>
        tread s ((s.snap.desc.at src).base.toNat + (y * (s.snap.desc.at src).w.toNat + x))) ∧
      (d = src → s.desc = s.snap.desc → t.desc = s.desc ∧ ∀ a, tread t a = tread s a)

/-- R342, R343: RELEASE never fails: it empties the slot, keeps its BASE, and leaves TMEM, HMEM and every
other slot; on a slot that is empty already it changes nothing. -/
def Obligations.ReleaseResult : Prop :=
  ∀ (d : Slot) (s : State), Succeeds (.release d) s fun t =>
    t.desc.at d = { base := (s.desc.at d).base, w := 0, h := 0, valid := false } ∧
    (∀ n, n ≠ d → t.desc.at n = s.desc.at n) ∧ t.tmem = s.tmem ∧ t.hmem = s.hmem ∧
    ((s.desc.at d).w = 0 → (s.desc.at d).h = 0 → (s.desc.at d).valid = false → t.desc = s.desc)

/-- R362 to R365: the three IMPORTs build the texel of pixel p = y·W + x from the bytes at
P_HADDR + n·p, one, three or four of them, and force full alpha with fewer than four. -/
def Obligations.ImportResult : Prop :=
  ∀ (d : Slot) (s : State), 1 ≤ s.snap.par.width.toInt → 1 ≤ s.snap.par.height.toInt →
    OutputFits s d (parCount s) →
    let b := fun a => pack8 (hread s (s.snap.par.haddr.toNat + a))
    let p := fun x y => y * s.snap.par.width.toNat + x
    (s.snap.par.haddr.toNat + parCount s ≤ s.params.hmemSize →
      Succeeds (.importG d) s fun t =>
        ProducedBuffer s t d s.snap.par.width s.snap.par.height fun x y =>
          mk (b (p x y)) (b (p x y)) (b (p x y)) 0x7FFF) ∧
    (s.snap.par.haddr.toNat + 3 * parCount s ≤ s.params.hmemSize →
      Succeeds (.importRgb d) s fun t =>
        ProducedBuffer s t d s.snap.par.width s.snap.par.height fun x y =>
          mk (b (3 * p x y)) (b (3 * p x y + 1)) (b (3 * p x y + 2)) 0x7FFF) ∧
    (s.snap.par.haddr.toNat + 4 * parCount s ≤ s.params.hmemSize →
      Succeeds (.importRgba d) s fun t =>
        ProducedBuffer s t d s.snap.par.width s.snap.par.height fun x y =>
          mk (b (4 * p x y)) (b (4 * p x y + 1)) (b (4 * p x y + 2)) (b (4 * p x y + 3)))

/-- R366: EXPORT writes the bytes R, G, B, A of every pixel, packed, from P_HADDR on, and nothing else. -/
def Obligations.ExportResult : Prop :=
  ∀ (src : Slot) (s : State), (s.snap.desc.at src).valid = true → 1 ≤ (s.snap.desc.at src).count →
    s.snap.par.haddr.toNat + 4 * (s.snap.desc.at src).count ≤ s.params.hmemSize →
    Succeeds (.exportBuf src) s fun t =>
      t.tmem = s.tmem ∧ t.desc = s.desc ∧
      (∀ p, p < (s.snap.desc.at src).count →
        let px := tread s ((s.snap.desc.at src).base.toNat + p)
        let a := s.snap.par.haddr.toNat + 4 * p
        t.hmem.find a = some (unpack8 (lane px 2)) ∧ t.hmem.find (a + 1) = some (unpack8 (lane px 1)) ∧
        t.hmem.find (a + 2) = some (unpack8 (lane px 0)) ∧
        t.hmem.find (a + 3) = some (unpack8 (lane px 3))) ∧
      (∀ a, (a < s.snap.par.haddr.toNat ∨
          s.snap.par.haddr.toNat + 4 * (s.snap.desc.at src).count ≤ a) →
        t.hmem.find a = s.hmem.find a)

/-- R370, R371: RAWFILL writes the bytes B, G, R, A of pixel (x, y) at P_HADDR + y·P_HSTRIDE + 4x, the
last pixel in row-major order winning where rows overlap, and no other byte. -/
def Obligations.RawfillResult : Prop :=
  ∀ (src : Slot) (s : State), (s.snap.desc.at src).valid = true →
    1 ≤ (s.snap.desc.at src).w.toNat → 1 ≤ (s.snap.desc.at src).h.toNat →
    s.snap.par.haddr.toNat + ((s.snap.desc.at src).h.toNat - 1) * s.snap.par.hstride.toNat +
      4 * (s.snap.desc.at src).w.toNat ≤ s.params.hmemSize →
    let w := (s.snap.desc.at src).w.toNat
    let h := (s.snap.desc.at src).h.toNat
    let addr := fun x y k =>
      s.snap.par.haddr.toNat + y * s.snap.par.hstride.toNat + 4 * x + k
    Succeeds (.rawfill src) s fun t =>
      t.tmem = s.tmem ∧ t.desc = s.desc ∧
      (∀ x y k, x < w → y < h → k < 4 →
        (∀ x' y' k', x' < w → y' < h → k' < 4 → addr x' y' k' = addr x y k →
          y' < y ∨ (y' = y ∧ x' ≤ x)) →
        t.hmem.find (addr x y k) =
          some (unpack8 (lane (tread s ((s.snap.desc.at src).base.toNat + (y * w + x))) k))) ∧
      (∀ a, (∀ x y k, x < w → y < h → k < 4 → addr x y k ≠ a) → t.hmem.find a = s.hmem.find a)

/-- R368: IMPORT.RGBA of an array and then EXPORT of the buffer, to any place of HMEM, restores the bytes
of the array. -/
def Obligations.ImportExportIdentity : Prop :=
  ∀ (d : Slot) (s : State) (dest : Word), 1 ≤ s.snap.par.width.toInt → 1 ≤ s.snap.par.height.toInt →
    OutputFits s d (parCount s) →
    s.snap.par.haddr.toNat + 4 * parCount s ≤ s.params.hmemSize →
    dest.toNat + 4 * parCount s ≤ s.params.hmemSize →
    ∃ t, exec (.importRgba d) s = .next t ∧
      ∃ u, exec (.exportBuf d)
          (State.accept { t with par := { t.par with haddr := dest } } (encode (.exportBuf d))) =
            .next u ∧
        u.status.err = false ∧
        ∀ k, k < 4 * parCount s →
          hread u (dest.toNat + k) = hread s (s.snap.par.haddr.toNat + k)

/-- R127: the illegal commands, and so every word with an illegal encoding, do nothing but complete with
error ILLEGAL_OP, and no other word completes with that error. -/
def Obligations.IllegalCompletes : Prop :=
  ∀ (c : Word) (op : BitVec 4) (s t : State), s.Accepted →
    let illegalEnd : Host.Outcome State Fault Refusal := .next { s with status :=
      { s.status with busy := false, done := true, err := true, errcode := 3 } }
    exec .illegalImport3 s = illegalEnd ∧ (12 ≤ op.toNat → exec (.illegal op) s = illegalEnd) ∧
      (IllegalWord c → exec (decode c) s = illegalEnd) ∧
      (¬IllegalWord c → exec (decode c) s = .next t → t.status.errcode ≠ 3)

/-! ### The datapath -/

/-- R162: the lanes of a blend, and its laws. -/
def Obligations.BlendLaws : Prop :=
  ∀ (a b : Texel) (fade l : Nat), fade < 0x10000 → l < 4 →
    lane (blend a b fade) l = (lane a l * (0x10000 - fade) + lane b l * fade) / 2 ^ 16 ∧
    min (lane a l) (lane b l) ≤ lane (blend a b fade) l ∧
    lane (blend a b fade) l ≤ max (lane a l) (lane b l) ∧
    (lane a l ≤ 0x7FFF → lane b l ≤ 0x7FFF → lane (blend a b fade) l ≤ 0x7FFF) ∧
    blend a b 0 = a ∧ blend a a fade = a ∧
    (lane a l < lane b l → lane (blend a b fade) l ≠ lane b l)

/-- R172: isqrt(n) is the greatest integer whose square is at most n. -/
def Obligations.IsqrtGreatest : Prop :=
  ∀ n : Nat, isqrt n * isqrt n ≤ n ∧ ∀ r, r * r ≤ n → r ≤ isqrt n

/-- R177, R178, R290: with the exact power, the integers behind the gamma and falloff tables are the floors of
the real power (or of one minus it) times 32767, as far as the clamp of Entry can tell, and Entry of POW(x, y)
and of 1 - POW(x, y) is twice the clamped floor, for x > 0. With every power function POW(1, y) is 1, the three
cases of x = 0 are those of R177, and Entry of the infinities is that of R178. -/
def Obligations.PowerFloors : Prop :=
  (∀ x y : Rat, 0 < x →
    powFloor .exactReal x y = min ⌊((x : ℝ) ^ (y : ℝ)) * 32767⌋ 32767 ∧
    oneMinusPowFloor .exactReal x y = max ⌊(1 - (x : ℝ) ^ (y : ℝ)) * 32767⌋ (-1) ∧
    entry (powCurve .exactReal x y) = 2 * max 0 (min ⌊((x : ℝ) ^ (y : ℝ)) * 32767⌋ 32767) ∧
    entry (oneMinusPowCurve .exactReal x y) =
      2 * max 0 (min ⌊(1 - (x : ℝ) ^ (y : ℝ)) * 32767⌋ 32767)) ∧
  (∀ (pf : PowFn) (y : Rat),
    entry (powCurve pf 1 y) = 65534 ∧ entry (oneMinusPowCurve pf 1 y) = 0 ∧
    entry (powCurve pf 0 y) = (if 0 < y then 0 else 65534) ∧
    entry (oneMinusPowCurve pf 0 y) = (if 0 < y then 65534 else 0)) ∧
  entry .posInf = 65534 ∧ entry .negInf = 0

/-- R170: SineQ, its period, its four quarter values and its range. -/
def Obligations.SineLaws : Prop :=
  ∀ p : Int,
    sineQ p = sineRom.getD (p / 64 % 256).toNat 0 +
      (sineRom.getD ((p / 64 % 256).toNat + 1) 0 - sineRom.getD (p / 64 % 256).toNat 0) *
        (p % 64) / 64 ∧
    sineQ p = sineQ (p % 16384) ∧ sineQ 0 = 0 ∧ sineQ 4096 = 16384 ∧ sineQ 8192 = 0 ∧
    sineQ 12288 = -16384 ∧ -16384 ≤ sineQ p ∧ sineQ p ≤ 16384

/-! ### Isolation -/

/-- R69, R452: a command reads only the snapshot, the lattice and the memories: two states that agree on
these and differ in every register and descriptor end with the same memories and the same status, and
each slot either keeps its own descriptor in both or is written; a written slot is the same in both, but
for the BASE that RELEASE keeps. -/
def Obligations.SnapshotIsolation : Prop :=
  ∀ (i : Instr) (s s' t : State), s'.snap = s.snap → s'.params = s.params → s'.lattice = s.lattice →
    s'.tmem = s.tmem → s'.hmem = s.hmem → s'.draws = s.draws → s'.status = s.status →
    exec i s = .next t →
    ∃ t', exec i s' = .next t' ∧ t'.tmem = t.tmem ∧ t'.hmem = t.hmem ∧ t'.status = t.status ∧
      ∀ n, (t.desc.at n = s.desc.at n ∧ t'.desc.at n = s'.desc.at n) ∨
        t'.desc.at n = t.desc.at n ∨
        (i = .release n ∧ t'.desc.at n = { base := (s'.desc.at n).base, w := 0, h := 0, valid := false })

/-- R64: only SYNTH reads the lattice, and no command changes it. -/
def Obligations.OnlySynthReadsLattice : Prop :=
  ∀ (i : Instr) (s t : State) (l : Lattice), exec i s = .next t → t.lattice = s.lattice ∧
    ((∀ d mode, i ≠ .synth d mode) →
      exec i { s with lattice := l } = .next { t with lattice := l })

/-! ### Invariants -/

/-- Every step keeps both memories in the canonical form of the model. -/
def Obligations.StepKeepsMemoryForm : Prop :=
  ∀ s t : State, s.MemoriesOk → step s = .next t → t.MemoriesOk

/-- R36, R91, R93: every step keeps the descriptor invariants, stores nothing outside TMEM and HMEM, and
keeps the record of races inside them. -/
def Obligations.StepKeepsRegions : Prop :=
  ∀ s t : State, s.DescsOk → s.AddressesOk → s.RacesOk → step s = .next t →
    t.DescsOk ∧ t.AddressesOk ∧ t.RacesOk

/-- R32, R72: every step keeps bit 15 of every stored lane clear, with every texel of a valid buffer
written. -/
def Obligations.StepKeepsHeadroom : Prop :=
  ∀ s t : State, s.HeadroomOk → s.RegionsWritten → step s = .next t →
    t.HeadroomOk ∧ t.RegionsWritten

/-- R44, R45, R64, R65, R69: every step keeps STATUS legal, the built lattice, and the snapshot's word
equal to CMD while a command runs; the parameters of the machine never change. -/
def Obligations.StepKeepsStatus : Prop :=
  ∀ s t : State, s.StatusOk → s.LatticeOk → s.SnapshotOk → step s = .next t →
    t.StatusOk ∧ t.LatticeOk ∧ t.SnapshotOk ∧ t.params = s.params

/-- R7, R36, R61, R441: the invariants hold after power-on reset. That nothing is listed in TMEM and HMEM is the
model's choice (logs 3 and 4), and so are the snapshot of zeros (log 8), the empty record of races (log 12) and
the parameters that State.reset takes, the default lattice and open sizes inside their domain (log 5). -/
def Obligations.InvariantsAtReset : Prop :=
  State.reset.MemoriesOk ∧ State.reset.DescsOk ∧ State.reset.AddressesOk ∧ State.reset.RacesOk ∧
    State.reset.HeadroomOk ∧ State.reset.RegionsWritten ∧ State.reset.StatusOk ∧
    State.reset.LatticeOk ∧ State.reset.SnapshotOk ∧ Params.Ok State.reset.params
end

