-- ==== Sys2Proof/Laws/Power.lean ====
section
/-! SUPPORT. The binary search for a greatest number, and that the brackets of the power function decide
what the numbers themselves decide. -/

namespace Sys2Proof.Machine

/-! ### Binary search -/

/-- With `P` true at `r` and closed downwards, the search ends at a number at which `P` is true. -/
theorem bitSearch_holds (P : Nat → Bool) (k r : Nat) (h : P r = true) :
    P (bitSearch P k r) = true := by
  induction k generalizing r with
  | zero => exact h
  | succ k ih =>
    unfold bitSearch
    split
    · exact ih _ ‹_›
    · exact ih _ h

theorem bitSearch_ge (P : Nat → Bool) (k r : Nat) : r ≤ bitSearch P k r := by
  induction k generalizing r with
  | zero => exact Nat.le_refl r
  | succ k ih =>
    unfold bitSearch
    split
    · exact Nat.le_trans (Nat.le_add_right _ _) (ih _)
    · exact ih _

theorem bitSearch_lt (P : Nat → Bool) (k r : Nat) : bitSearch P k r < r + 2 ^ k := by
  induction k generalizing r with
  | zero => simp [bitSearch]
  | succ k ih =>
    unfold bitSearch
    have := Nat.pow_succ 2 k
    split
    · have := ih (r + 2 ^ k); omega
    · have := ih r; omega

/-- Every number in reach of the search at which a downward closed `P` is true is at most its result. -/
theorem bitSearch_greatest (P : Nat → Bool) (hP : ∀ m n, m ≤ n → P n = true → P m = true)
    (k r n : Nat) (hn : P n = true) (hlt : n < r + 2 ^ k) : n ≤ bitSearch P k r := by
  induction k generalizing r with
  | zero => simp [bitSearch] at *; omega
  | succ k ih =>
    unfold bitSearch
    have := Nat.pow_succ 2 k
    split
    · exact ih _ (by omega)
    · next h =>
      have : n < r + 2 ^ k := by
        apply Nat.lt_of_not_le
        exact fun hle => h (hP _ _ hle hn)
      exact ih _ this

/-! ### Brackets -/

/-- The number v lies in the bracket. -/
def Bracket.Has (b : Bracket) (v : Nat) : Prop := b.lo * 2 ^ b.e ≤ v ∧ v ≤ b.hi * 2 ^ b.e

theorem bracketOf_has (n : Nat) : (bracketOf n).Has n := by simp [bracketOf, Bracket.Has]

theorem trimBracket_has (prec : Nat) {b : Bracket} {v : Nat} (h : b.Has v) :
    (trimBracket prec b).Has v := by
  unfold trimBracket
  simp only
  split
  · exact h
  · obtain ⟨h1, h2⟩ := h
    generalize b.hi.log2 - prec = k
    refine ⟨Nat.le_trans ?_ h1, Nat.le_trans h2 ?_⟩
    · show (b.lo >>> k) * 2 ^ (b.e + k) ≤ _
      rw [Nat.shiftRight_eq_div_pow, Nat.pow_add, Nat.mul_comm (2 ^ b.e), ← Nat.mul_assoc]
      exact Nat.mul_le_mul_right _ (Nat.div_mul_le_self _ _)
    · show _ ≤ ((b.hi >>> k) + 1) * 2 ^ (b.e + k)
      rw [Nat.shiftRight_eq_div_pow, Nat.pow_add, Nat.mul_comm (2 ^ b.e), ← Nat.mul_assoc]
      refine Nat.mul_le_mul_right _ (Nat.le_of_lt ?_)
      have := Nat.lt_div_mul_add (a := b.hi) (b := 2 ^ k) (Nat.two_pow_pos k)
      rw [Nat.add_mul]; omega

theorem mulBracket_has (prec : Nat) {b c : Bracket} {v w : Nat} (hb : b.Has v) (hc : c.Has w) :
    (mulBracket prec b c).Has (v * w) := by
  apply trimBracket_has
  constructor
  · show b.lo * c.lo * 2 ^ (b.e + c.e) ≤ _
    calc b.lo * c.lo * 2 ^ (b.e + c.e) = (b.lo * 2 ^ b.e) * (c.lo * 2 ^ c.e) := by
          rw [Nat.pow_add]; ring
      _ ≤ v * w := Nat.mul_le_mul hb.1 hc.1
  · show _ ≤ b.hi * c.hi * 2 ^ (b.e + c.e)
    calc v * w ≤ (b.hi * 2 ^ b.e) * (c.hi * 2 ^ c.e) := Nat.mul_le_mul hb.2 hc.2
      _ = b.hi * c.hi * 2 ^ (b.e + c.e) := by rw [Nat.pow_add]; ring

theorem powBracket_has (prec m fuel n : Nat) (h : n < 2 ^ fuel) :
    (powBracket prec m fuel n).Has (m ^ n) := by
  induction fuel generalizing n with
  | zero =>
    have : n = 0 := by simp at h; exact h
    subst this; simpa [powBracket] using bracketOf_has 1
  | succ fuel ih =>
    have hr := ih (n / 2) (by rw [Nat.pow_succ] at h; omega)
    have h2 := mulBracket_has prec hr hr
    unfold powBracket
    simp only
    split
    · have : m ^ n = m ^ (n / 2) * m ^ (n / 2) * m := by
        rw [← Nat.pow_add, ← Nat.pow_succ]; congr 1; omega
      rw [this]; exact mulBracket_has prec h2 (bracketOf_has m)
    · have : m ^ n = m ^ (n / 2) * m ^ (n / 2) := by rw [← Nat.pow_add]; congr 1; omega
      rw [this]; exact h2

/-- The first way the brackets are compared: by their numbers of binary digits. -/
theorem Bracket.lt_of_log {b c : Bracket} {v w : Nat} (hb : b.Has v) (hc : c.Has w)
    (h : b.hi.log2 + b.e < c.lo.log2 + c.e) (hpos : 0 < c.lo) : v < w := by
  have h1 : b.hi < 2 ^ (b.hi.log2 + 1) := Nat.lt_log2_self
  have h2 : 2 ^ c.lo.log2 ≤ c.lo := Nat.log2_self_le (Nat.pos_iff_ne_zero.1 hpos)
  calc v ≤ b.hi * 2 ^ b.e := hb.2
    _ < 2 ^ (b.hi.log2 + 1) * 2 ^ b.e := Nat.mul_lt_mul_of_pos_right h1 (Nat.two_pow_pos _)
    _ = 2 ^ (b.hi.log2 + 1 + b.e) := (Nat.pow_add _ _ _).symm
    _ ≤ 2 ^ (c.lo.log2 + c.e) := Nat.pow_le_pow_right (by omega) (by omega)
    _ = 2 ^ c.lo.log2 * 2 ^ c.e := Nat.pow_add _ _ _
    _ ≤ c.lo * 2 ^ c.e := Nat.mul_le_mul_right _ h2
    _ ≤ w := hc.1

theorem shift_scale (x e d : Nat) (h : d ≤ e) : x <<< (e - d) * 2 ^ d = x * 2 ^ e := by
  rw [Nat.shiftLeft_eq, Nat.mul_assoc, ← Nat.pow_add]; congr 2; omega

theorem bracketLe_sound {b c : Bracket} {v w : Nat} (hb : b.Has v) (hc : c.Has w)
    (h : bracketLe b c = true) : v ≤ w := by
  simp only [bracketLe, Bool.or_eq_true, Bool.and_eq_true, decide_eq_true_eq] at h
  rcases h with ⟨h, hp⟩ | ⟨-, h⟩
  · exact Nat.le_of_lt (Bracket.lt_of_log hb hc h hp)
  · have := Nat.mul_le_mul_right (2 ^ min b.e c.e) h
    rw [shift_scale _ _ _ (Nat.min_le_left _ _), shift_scale _ _ _ (Nat.min_le_right _ _)] at this
    exact Nat.le_trans hb.2 (Nat.le_trans this hc.1)

theorem bracketLt_sound {b c : Bracket} {v w : Nat} (hb : b.Has v) (hc : c.Has w)
    (h : bracketLt b c = true) : v < w := by
  simp only [bracketLt, Bool.or_eq_true, Bool.and_eq_true, decide_eq_true_eq] at h
  rcases h with ⟨h, hp⟩ | ⟨-, h⟩
  · exact Bracket.lt_of_log hb hc h hp
  · have := Nat.mul_lt_mul_of_pos_right h (Nat.two_pow_pos (min b.e c.e))
    rw [shift_scale _ _ _ (Nat.min_le_left _ _), shift_scale _ _ _ (Nat.min_le_right _ _)] at this
    exact Nat.lt_of_le_of_lt hb.2 (Nat.lt_of_lt_of_le this hc.1)

/-- The brackets change nothing: the answer is that of the numbers. -/
theorem powProductLe_eq (n m b a q p : Nat) :
    powProductLe n m b a q p = decide (n ^ q * b ^ p ≤ m ^ q * a ^ p) := by
  have hp : ∀ prec k e, (powBracket prec k (e.log2 + 1) e).Has (k ^ e) :=
    fun prec k e => powBracket_has prec k _ e Nat.lt_log2_self
  unfold powProductLe
  simp only
  split
  · next h =>
    exact (decide_eq_true (Nat.mul_le_mul (Nat.pow_le_pow_left h.1 q) (Nat.pow_le_pow_left h.2 p))).symm
  · split
    · next h =>
      exact (decide_eq_true (bracketLe_sound (mulBracket_has _ (hp _ n q) (hp _ b p))
        (mulBracket_has _ (hp _ m q) (hp _ a p)) h)).symm
    · split
      · next h =>
        exact (decide_eq_false (Nat.not_le_of_lt (bracketLt_sound
          (mulBracket_has _ (hp _ m q) (hp _ a p)) (mulBracket_has _ (hp _ n q) (hp _ b p)) h))).symm
      · rfl

/-- `powAtLeast` in numbers (R177). -/
theorem powAtLeast_iff (x y : Rat) (n : Nat) :
    powAtLeast x y n = true ↔
      if 0 ≤ y.num then n ^ y.den * x.den ^ y.num.natAbs ≤ 32767 ^ y.den * x.num.toNat ^ y.num.natAbs
      else n ^ y.den * x.num.toNat ^ y.num.natAbs ≤ 32767 ^ y.den * x.den ^ y.num.natAbs := by
  unfold powAtLeast
  simp only [powProductLe_eq]
  split <;> simp

/-- `powAbove` in numbers (R177). -/
theorem powAbove_iff (x y : Rat) (n : Nat) :
    powAbove x y n = true ↔
      if 0 ≤ y.num then n ^ y.den * x.den ^ y.num.natAbs < 32767 ^ y.den * x.num.toNat ^ y.num.natAbs
      else n ^ y.den * x.num.toNat ^ y.num.natAbs < 32767 ^ y.den * x.den ^ y.num.natAbs := by
  unfold powAbove
  simp only [powProductLe_eq]
  split <;> simp

end Sys2Proof.Machine
end

