-- ==== Sys2Proof/Laws/Lanes.lean ====
section
/-! SUPPORT. Lanes of texels, the ranges of the datapath primitives, and the headroom of what they
build. -/

namespace Sys2Proof.Machine

/-! ### Integer operations -/

theorem fdiv_eq_ediv (a : Int) {b : Int} (h : 0 ≤ b) : fdiv a b = a / b := Int.fdiv_eq_ediv_of_nonneg a h

theorem shr_eq_ediv (a : Int) (n : Nat) : shr a n = a / 2 ^ n := by
  rw [shr, Int.shiftRight_eq_div_pow]; norm_cast

@[simp] theorem fdiv_zero_left (b : Int) : fdiv 0 b = 0 := by simp [fdiv]

theorem clampZ_bounds (v lo hi : Int) (h : lo ≤ hi) : lo ≤ clampZ v lo hi ∧ clampZ v lo hi ≤ hi := by
  unfold clampZ; omega

theorem clamp15_le (v : Int) : clamp15 v ≤ 0x7FFF := by unfold clamp15 clampZ; omega

theorem clampS15_bounds (v : Int) : -16384 ≤ clampS15 v ∧ clampS15 v ≤ 16383 := by
  unfold clampS15 clampZ; omega

/-! ### Lanes -/

theorem lane_lt (t : Texel) (l : Nat) : lane t l < 2 ^ 16 := (t.extractLsb' (16 * l) 16).isLt

theorem lane_eq_div (t : Texel) (l : Nat) : lane t l = t.toNat / 2 ^ (16 * l) % 2 ^ 16 := by
  simp [lane, BitVec.extractLsb'_toNat, Nat.shiftRight_eq_div_pow]

theorem mk_toNat (r g b a : Nat) : (mk r g b a).toNat =
    (a % 2 ^ 16) * 2 ^ 48 + (r % 2 ^ 16) * 2 ^ 32 + (g % 2 ^ 16) * 2 ^ 16 + b % 2 ^ 16 := by
  have hb := Nat.mod_lt b (show 0 < 2 ^ 16 by decide)
  have hg := Nat.mod_lt g (show 0 < 2 ^ 16 by decide)
  have hr := Nat.mod_lt r (show 0 < 2 ^ 16 by decide)
  unfold mk
  rw [BitVec.toNat_append, BitVec.toNat_append, BitVec.toNat_append]
  simp only [BitVec.toNat_ofNat]
  rw [← Nat.shiftLeft_add_eq_or_of_lt hb, ← Nat.shiftLeft_add_eq_or_of_lt hg,
    ← Nat.shiftLeft_add_eq_or_of_lt hr]
  simp only [Nat.shiftLeft_eq]
  ring

theorem lane_mk_0 (r g b a : Nat) : lane (mk r g b a) 0 = b % 2 ^ 16 := by
  rw [lane_eq_div, mk_toNat]; omega

theorem lane_mk_1 (r g b a : Nat) : lane (mk r g b a) 1 = g % 2 ^ 16 := by
  rw [lane_eq_div, mk_toNat]; omega

theorem lane_mk_2 (r g b a : Nat) : lane (mk r g b a) 2 = r % 2 ^ 16 := by
  rw [lane_eq_div, mk_toNat]; omega

theorem lane_mk_3 (r g b a : Nat) : lane (mk r g b a) 3 = a % 2 ^ 16 := by
  rw [lane_eq_div, mk_toNat]; omega

/-- A texel is known by its lanes. -/
theorem texel_ext {t u : Texel} (h : ∀ l, l < 4 → lane t l = lane u l) : t = u := by
  apply BitVec.eq_of_toNat_eq
  have h0 := h 0 (by decide)
  have h1 := h 1 (by decide)
  have h2 := h 2 (by decide)
  have h3 := h 3 (by decide)
  have ht := t.isLt
  have hu := u.isLt
  rw [lane_eq_div, lane_eq_div] at h0 h1 h2 h3
  omega

/-- The lanes of a lane-wise operation, where the operation stays within 16 bits. -/
theorem lane_zipLanes (f : Nat → Nat → Nat) (t u : Texel) {l : Nat} (hl : l < 4)
    (hf : f (lane t l) (lane u l) < 2 ^ 16) :
    lane (zipLanes f t u) l = f (lane t l) (lane u l) := by
  unfold zipLanes
  have : l = 0 ∨ l = 1 ∨ l = 2 ∨ l = 3 := by omega
  rcases this with rfl | rfl | rfl | rfl <;>
    simp only [lane_mk_0, lane_mk_1, lane_mk_2, lane_mk_3] <;> exact Nat.mod_eq_of_lt hf

/-! ### Headroom -/

/-- Bit 15 of every lane is clear exactly when every lane is at most 0x7FFF (R32). -/
theorem headroom_iff (t : Texel) :
    t &&& headroomMask = t ↔ ∀ l, l < 4 → lane t l ≤ 0x7FFF := by
  have hbit : ∀ l, l < 4 → (t.getLsbD (16 * l + 15) = false ↔ lane t l ≤ 0x7FFF) := by
    intro l hl
    have h1 : t.getLsbD (16 * l + 15) = (t.extractLsb' (16 * l) 16).getLsbD 15 := by
      simp
    have h2 : (t.extractLsb' (16 * l) 16).getLsbD 15 = (t.extractLsb' (16 * l) 16).msb := rfl
    rw [h1, h2, BitVec.msb_eq_false_iff_two_mul_lt]
    unfold lane
    omega
  constructor
  · intro h l hl
    rw [← hbit l hl, ← h]
    have : l = 0 ∨ l = 1 ∨ l = 2 ∨ l = 3 := by omega
    rcases this with rfl | rfl | rfl | rfl <;> simp [headroomMask]
  · intro h
    apply BitVec.eq_of_getLsbD_eq
    intro i hi
    rw [BitVec.getLsbD_and]
    have hc : headroomMask.getLsbD i = true ∨ i = 15 ∨ i = 31 ∨ i = 47 ∨ i = 63 := by
      revert i; decide
    rcases hc with hc | rfl | rfl | rfl | rfl
    · simp [hc]
    · rw [show t.getLsbD 15 = false from (hbit 0 (by decide)).2 (h 0 (by decide))]; rfl
    · rw [show t.getLsbD 31 = false from (hbit 1 (by decide)).2 (h 1 (by decide))]; rfl
    · rw [show t.getLsbD 47 = false from (hbit 2 (by decide)).2 (h 2 (by decide))]; rfl
    · rw [show t.getLsbD 63 = false from (hbit 3 (by decide)).2 (h 3 (by decide))]; rfl

theorem headroom_masked (t : Texel) : t &&& headroomMask &&& headroomMask = t &&& headroomMask := by
  rw [BitVec.and_assoc, BitVec.and_self]

/-- A texel built from four values of at most 15 bits has the headroom. -/
theorem headroom_mk {r g b a : Nat} (hr : r ≤ 0x7FFF) (hg : g ≤ 0x7FFF) (hb : b ≤ 0x7FFF)
    (ha : a ≤ 0x7FFF) : mk r g b a &&& headroomMask = mk r g b a := by
  rw [headroom_iff]
  intro l hl
  have : l = 0 ∨ l = 1 ∨ l = 2 ∨ l = 3 := by omega
  rcases this with rfl | rfl | rfl | rfl
  · rw [lane_mk_0]; omega
  · rw [lane_mk_1]; omega
  · rw [lane_mk_2]; omega
  · rw [lane_mk_3]; omega

/-- A lane-wise operation that stays within 15 bits on the lanes of its operands gives a texel with the
headroom. -/
theorem headroom_zipLanes (f : Nat → Nat → Nat) (t u : Texel)
    (hf : ∀ l, l < 4 → f (lane t l) (lane u l) ≤ 0x7FFF) :
    zipLanes f t u &&& headroomMask = zipLanes f t u :=
  headroom_mk (hf 2 (by decide)) (hf 1 (by decide)) (hf 0 (by decide)) (hf 3 (by decide))

/-! ### The primitives on lanes -/

theorem pack8_eq (c : Byte) : pack8 c = 128 * c.toNat + c.toNat / 2 := by
  revert c; decide +kernel

theorem pack8_le (c : Byte) : pack8 c ≤ 0x7FFF := by
  have := c.isLt; rw [pack8_eq]; omega

theorem unpack8_pack8 (c : Byte) : unpack8 (pack8 c) = c := by
  revert c; decide +kernel

theorem headroom_pack32 (col : Word) : pack32 col &&& headroomMask = pack32 col :=
  headroom_mk (pack8_le _) (pack8_le _) (pack8_le _) (pack8_le _)

theorem blendLane_eq (fade a b : Nat) :
    blendLane fade a b = (a * (0x10000 - fade) + b * fade) / 2 ^ 16 := by
  rw [blendLane, Nat.shiftRight_eq_div_pow]

/-- A blended lane is at most the greater of the two lanes. -/
theorem blendLane_le {fade a b m : Nat} (hf : fade ≤ 0x10000) (ha : a ≤ m) (hb : b ≤ m) :
    blendLane fade a b ≤ m := by
  rw [blendLane_eq]
  apply Nat.div_le_of_le_mul
  calc a * (0x10000 - fade) + b * fade ≤ m * (0x10000 - fade) + m * fade :=
        Nat.add_le_add (Nat.mul_le_mul_right _ ha) (Nat.mul_le_mul_right _ hb)
    _ = m * 0x10000 := by rw [← Nat.mul_add]; congr 1; omega
    _ = 2 ^ 16 * m := by rw [Nat.mul_comm]; rfl

/-- A blended lane is at least the smaller of the two lanes. -/
theorem le_blendLane {fade a b m : Nat} (hf : fade ≤ 0x10000) (ha : m ≤ a) (hb : m ≤ b) :
    m ≤ blendLane fade a b := by
  rw [blendLane_eq, Nat.le_div_iff_mul_le (by decide)]
  calc m * 2 ^ 16 = m * (0x10000 - fade) + m * fade := by rw [← Nat.mul_add]; congr 1; omega
    _ ≤ a * (0x10000 - fade) + b * fade :=
        Nat.add_le_add (Nat.mul_le_mul_right _ ha) (Nat.mul_le_mul_right _ hb)

theorem lane_blend (a b : Texel) (fade : Nat) {l : Nat} (hl : l < 4) (hf : fade ≤ 0x10000) :
    lane (blend a b fade) l = blendLane fade (lane a l) (lane b l) := by
  apply lane_zipLanes _ _ _ hl
  have := blendLane_le hf (Nat.le_of_lt_succ (lane_lt a l)) (Nat.le_of_lt_succ (lane_lt b l))
  omega

/-- A blend of two texels with the headroom has it (R162). -/
theorem headroom_blend {a b : Texel} {fade : Nat} (hf : fade ≤ 0x10000)
    (ha : a &&& headroomMask = a) (hb : b &&& headroomMask = b) :
    blend a b fade &&& headroomMask = blend a b fade := by
  rw [headroom_iff] at ha hb
  exact headroom_zipLanes _ _ _ (fun l hl => blendLane_le hf (ha l hl) (hb l hl))

theorem ladd_le (a b : Nat) : ladd a b ≤ 0x7FFF := clamp15_le _
theorem lsub_le (a b : Nat) : lsub a b ≤ 0x7FFF := clamp15_le _

theorem ladd_eq (a b : Nat) : ladd a b = min (a + b) 0x7FFF := by
  unfold ladd clamp15 clampZ; omega

theorem lsub_eq (a b : Nat) : lsub a b = min (a - b) 0x7FFF := by
  unfold lsub clamp15 clampZ; omega

theorem lmul_eq (a b : Nat) : lmul a b = a * b / 2 ^ 15 := by
  rw [lmul, Nat.shiftRight_eq_div_pow]

theorem lmul_le {a b : Nat} (ha : a ≤ 0x7FFF) (hb : b ≤ 0x7FFF) : lmul a b ≤ 0x7FFF := by
  rw [lmul_eq]
  have : a * b ≤ 0x7FFF * 0x7FFF := Nat.mul_le_mul ha hb
  omega

/-! ### The tables -/

theorem entry_bounds (c : CurveVal) : 0 ≤ entry c ∧ entry c ≤ 65534 := by
  cases c with
  | negInf => decide
  | posInf => decide
  | scaled n => simp only [entry]; have := clampZ_bounds n 0 32767 (by decide); omega

/-- Interpolation between two neighbours stays between their bounds (R167). -/
theorem interpolate_bounds {a b lo hi f n : Int} (hn : 0 < n) (ha : lo ≤ a ∧ a ≤ hi)
    (hb : lo ≤ b ∧ b ≤ hi) (hf : 0 ≤ f ∧ f ≤ n) :
    lo ≤ a + fdiv ((b - a) * f) n ∧ a + fdiv ((b - a) * f) n ≤ hi := by
  rw [fdiv_eq_ediv _ hn.le]
  constructor
  · have : lo - a ≤ ((b - a) * f) / n := by
      rw [Int.le_ediv_iff_mul_le hn]
      nlinarith
    omega
  · have : ((b - a) * f) / n ≤ hi - a := by
      have h : (b - a) * f ≤ (hi - a) * n := by nlinarith
      calc ((b - a) * f) / n ≤ ((hi - a) * n) / n := Int.ediv_le_ediv hn h
        _ = hi - a := Int.mul_ediv_cancel _ hn.ne'
    omega

/-- A lookup in a table of fade factors is a fade factor (R167). -/
theorem gammaLookup_bounds (v : Nat) (T : Nat → Int) {lo hi : Int}
    (hT : ∀ k, lo ≤ T k ∧ T k ≤ hi) : lo ≤ gammaLookup v T ∧ gammaLookup v T ≤ hi := by
  unfold gammaLookup
  simp only
  apply interpolate_bounds (by decide) (hT _) (hT _)
  have : v &&& 31 ≤ 31 := Nat.and_le_right
  omega

theorem gammaTable_bounds (pf : PowFn) (γ : Rat) (k : Nat) :
    0 ≤ gammaTable pf γ k ∧ gammaTable pf γ k ≤ 65534 := entry_bounds _

theorem falloff_bounds (pf : PowFn) (curve : Bool) (p' : Rat) (di : Nat) :
    0 ≤ falloff pf curve p' di ∧ falloff pf curve p' di ≤ 65534 := by
  unfold falloff
  split
  · exact entry_bounds _
  · exact gammaLookup_bounds _ _ (fun k => entry_bounds _)

theorem synthFade_le (s : State) (mode : BitVec 2) (acc : Int) : synthFade s mode acc ≤ 65534 := by
  have h : synthFade s mode acc = (gammaLookup (clamp15 (noiseScale mode (ampOf s)
    (noiseRemap mode acc))) (gammaTable s.params.powfn (fin32 s.snap.par.gamma))).toNat := rfl
  have := gammaLookup_bounds (clamp15 (noiseScale mode (ampOf s) (noiseRemap mode acc)))
    (gammaTable s.params.powfn (fin32 s.snap.par.gamma)) (fun k => gammaTable_bounds _ _ k)
  omega

theorem glowAlpha_bounds (p : ParamRegs) : 0 ≤ glowAlpha p ∧ glowAlpha p ≤ 65535 := by
  unfold glowAlpha fixFloor
  split
  · decide
  · decide
  · decide
  · exact clampZ_bounds _ _ _ (by decide)

theorem glowFade_le (s : State) (curve : Bool) (di : Nat) : glowFade s curve di ≤ 65534 := by
  unfold glowFade
  rw [shr_eq_ediv]
  have h1 := falloff_bounds s.params.powfn curve (glowPower s.snap.par) di
  have h2 := glowAlpha_bounds s.snap.par
  have h3 : falloff s.params.powfn curve (glowPower s.snap.par) di * glowAlpha s.snap.par ≤
      65534 * 65536 := by nlinarith
  have h4 : falloff s.params.powfn curve (glowPower s.snap.par) di * glowAlpha s.snap.par / 2 ^ 16 ≤
      65534 := by
    calc _ ≤ (65534 * 65536 : Int) / 2 ^ 16 := Int.ediv_le_ediv (by decide) h3
      _ = 65534 := by decide
  omega

/-! ### Texels of the commands -/

theorem headroom_synthTexel (s : State) (mode : BitVec 2) (x y : Nat) :
    synthTexel s mode x y &&& headroomMask = synthTexel s mode x y := by
  unfold synthTexel
  simp only
  split
  · exact headroom_pack32 _
  · exact headroom_blend (Nat.le_trans (synthFade_le _ _ _) (by decide)) (headroom_pack32 _)
      (headroom_pack32 _)

theorem headroom_gradTexel (s : State) (mode : BitVec 2) (x y : Nat) :
    gradTexel s mode x y &&& headroomMask = gradTexel s mode x y := by
  refine headroom_blend ?_ (headroom_pack32 _) (headroom_pack32 _)
  have := clamp15_le (gradRamp mode (gradV s x y))
  omega

/-- No square of `isqrt` exceeds its argument (R172). -/
theorem isqrt_mul_self_le (n : Nat) : isqrt n * isqrt n ≤ n :=
  of_decide_eq_true (bitSearch_holds (fun r => decide (r * r ≤ n)) _ 0 (by simp))

theorem isqrt_le {n m : Nat} (h : n ≤ m * m) : isqrt n ≤ m :=
  Nat.mul_self_le_mul_self_iff.1 (Nat.le_trans (isqrt_mul_self_le n) h)

/-- The three components of a normal are in range (R246). -/
theorem zRec_bounds (z3d : Bool) {nx ny : Int} (hx : -16384 ≤ nx ∧ nx ≤ 16383)
    (hy : -16384 ≤ ny ∧ ny ≤ 16383) :
    (-16384 ≤ (zRec z3d nx ny).1 ∧ (zRec z3d nx ny).1 ≤ 16383) ∧
      (-16384 ≤ (zRec z3d nx ny).2.1 ∧ (zRec z3d nx ny).2.1 ≤ 16383) ∧
      (0 ≤ (zRec z3d nx ny).2.2 ∧ (zRec z3d nx ny).2.2 ≤ 16383) := by
  have hle : isqrt (16383 ^ 2 - nx ^ 2 - ny ^ 2).toNat ≤ 16383 := by
    apply isqrt_le
    have := sq_nonneg nx
    have := sq_nonneg ny
    omega
  unfold zRec
  dsimp only
  generalize isqrt (16383 ^ 2 - nx ^ 2 - ny ^ 2).toNat = k at hle ⊢
  generalize isqrt (nx ^ 2 + ny ^ 2).toNat = l
  have h1 := clampS15_bounds (fdiv (nx * 16383) l)
  have h2 := clampS15_bounds (fdiv (ny * 16383) l)
  cases z3d
  · simp only [Bool.false_eq_true, if_false]
    exact ⟨hx, hy, by omega, by omega⟩
  · simp only [if_true]
    split
    · exact ⟨hx, hy, by dsimp only; omega, by dsimp only; omega⟩
    · exact ⟨h1, h2, by dsimp only; omega, by dsimp only; omega⟩

theorem headroom_normalTexel (s : State) (ds : Desc) (z3d tan sharp : Bool) (x y : Nat) :
    normalTexel s ds z3d tan sharp x y &&& headroomMask = normalTexel s ds z3d tan sharp x y := by
  have h := zRec_bounds z3d (clampS15_bounds (fdiv (diffX s ds sharp x y * strengthOf s *
    (2 ^ ds.w.toNat.log2 : Nat)) (2 ^ 12))) (clampS15_bounds (fdiv (diffY s ds sharp x y *
    strengthOf s * (2 ^ ds.h.toNat.log2 : Nat)) (2 ^ 12)))
  have ht : ∀ v : Int, -16384 ≤ v ∧ v ≤ 16383 →
      -16384 ≤ tangentFlip tan v ∧ tangentFlip tan v ≤ 16383 := by
    intro v hv
    unfold tangentFlip
    split
    · exact clampS15_bounds _
    · exact hv
  have h2 := ht _ h.2.1
  unfold normalTexel encodeNormal
  simp only [slope] at *
  apply headroom_mk <;> omega

end Sys2Proof.Machine
end

