-- ==== Sys2Proof/Laws/Memory.lean ====
section
/-! SUPPORT. What the memory and descriptor operations do, said once. -/

namespace Sys2Proof.Machine

section
variable {α : Type}

@[simp] theorem Memory.find_nil (a : Nat) : Memory.find ([] : Memory α) a = none := rfl

/-- A read after a write gives the value written, and every other address reads as before. -/
theorem Memory.find_write (m : Memory α) (a : Nat) (v : α) (c : Nat) :
    (m.write a v).find c = if c = a then some v else m.find c := by
  induction m with
  | nil => simp [Memory.write, Memory.find, eq_comm]
  | cons p m ih =>
    obtain ⟨b, w⟩ := p
    by_cases hab : a < b
    · simp [Memory.write, Memory.find, hab, eq_comm]
    · by_cases he : a = b
      · subst he
        have : a = c ↔ c = a := eq_comm
        by_cases hc : c = a <;> simp [Memory.write, Memory.find, hc, this]
      · simp only [Memory.write, hab, he, if_false, Memory.find, ih]
        by_cases hbc : b = c
        · subst hbc; simp [eq_comm, he]
        · simp [hbc]

@[simp] theorem Memory.find_write_same (m : Memory α) (a : Nat) (v : α) :
    (m.write a v).find a = some v := by simp [Memory.find_write]

theorem Memory.find_write_other (m : Memory α) {a c : Nat} (v : α) (h : c ≠ a) :
    (m.write a v).find c = m.find c := by simp [Memory.find_write, h]

theorem Memory.writeAll_cons (m : Memory α) (p : Nat × α) (l : List (Nat × α)) :
    m.writeAll (p :: l) = (m.write p.1 p.2).writeAll l := rfl

@[simp] theorem Memory.writeAll_nil (m : Memory α) : m.writeAll [] = m := rfl

theorem Memory.writeAll_append (m : Memory α) (l l' : List (Nat × α)) :
    m.writeAll (l ++ l') = (m.writeAll l).writeAll l' := by
  simp [Memory.writeAll, List.foldl_append]

/-- A run of writes leaves every address it does not name. -/
theorem Memory.find_writeAll_other (m : Memory α) (l : List (Nat × α)) (c : Nat)
    (h : ∀ p ∈ l, p.1 ≠ c) : (m.writeAll l).find c = m.find c := by
  induction l generalizing m with
  | nil => rfl
  | cons p l ih =>
    rw [Memory.writeAll_cons, ih _ (fun q hq => h q (List.mem_cons_of_mem _ hq)),
      Memory.find_write_other _ _ (h p List.mem_cons_self).symm]

/-- What a run of writes leaves at an address: one of the values written there, or what it held. -/
theorem Memory.find_writeAll_cases (m : Memory α) (l : List (Nat × α)) (c : Nat) :
    (∃ v, (c, v) ∈ l ∧ (m.writeAll l).find c = some v) ∨
      ((∀ p ∈ l, p.1 ≠ c) ∧ (m.writeAll l).find c = m.find c) := by
  induction l generalizing m with
  | nil => simp
  | cons p l ih =>
    rw [Memory.writeAll_cons]
    rcases ih (m.write p.1 p.2) with ⟨v, hv, h⟩ | ⟨hn, h⟩
    · exact .inl ⟨v, List.mem_cons_of_mem _ hv, h⟩
    · by_cases hp : c = p.1
      · refine .inl ⟨p.2, ?_, ?_⟩
        · subst hp; exact List.mem_cons_self
        · rw [h, Memory.find_write, if_pos hp]
      · refine .inr ⟨?_, ?_⟩
        · intro q hq
          rcases List.mem_cons.1 hq with rfl | hq
          · exact fun he => hp he.symm
          · exact hn q hq
        · rw [h, Memory.find_write, if_neg hp]

/-- The last write of an address in a run is what the address holds after it. -/
theorem Memory.find_writeAll_last (m : Memory α) (l l' : List (Nat × α)) (a : Nat) (v : α)
    (h : ∀ p ∈ l', p.1 ≠ a) : (m.writeAll (l ++ (a, v) :: l')).find a = some v := by
  rw [Memory.writeAll_append, Memory.writeAll_cons, Memory.find_writeAll_other _ _ _ h,
    Memory.find_write_same]

/-- A run of writes with a value for each address, written as a function of the address, leaves that
value at every address it names. -/
theorem Memory.find_writeAll_map (m : Memory α) (l : List Nat) (f : Nat → α) (c : Nat) :
    (m.writeAll (l.map (fun a => (a, f a)))).find c = if c ∈ l then some (f c) else m.find c := by
  rcases Memory.find_writeAll_cases m (l.map (fun a => (a, f a))) c with ⟨v, hv, h⟩ | ⟨hn, h⟩
  · obtain ⟨a, ha, he⟩ := List.mem_map.1 hv
    obtain ⟨rfl, rfl⟩ := Prod.mk.injEq .. ▸ he
    rw [h, if_pos ha]
  · have : c ∉ l := fun hc => hn _ (List.mem_map.2 ⟨c, hc, rfl⟩) rfl
    rw [h, if_neg this]

/-- Filling `n` addresses from `base`. -/
theorem Memory.find_fill (m : Memory α) (base n : Nat) (f : Nat → α) (c : Nat) :
    (m.fill base n f).find c =
      if base ≤ c ∧ c < base + n then some (f (c - base)) else m.find c := by
  unfold Memory.fill consecutive
  rcases Memory.find_writeAll_cases m ((List.range n).map fun p => (base + p, f p)) c with
    ⟨v, hv, h⟩ | ⟨hn, h⟩
  · obtain ⟨p, hp, he⟩ := List.mem_map.1 hv
    obtain ⟨rfl, rfl⟩ := Prod.mk.injEq .. ▸ he
    have := List.mem_range.1 hp
    rw [h, if_pos (by omega)]
    simp
  · rw [h, if_neg]
    rintro ⟨h1, h2⟩
    exact hn (base + (c - base), f (c - base))
      (List.mem_map.2 ⟨c - base, List.mem_range.2 (by omega), rfl⟩) (by simp; omega)

theorem Memory.find_fill_at (m : Memory α) (base n : Nat) (f : Nat → α) (p : Nat) (h : p < n) :
    (m.fill base n f).find (base + p) = some (f p) := by
  rw [Memory.find_fill, if_pos (by omega)]; simp

theorem Memory.find_fill_outside (m : Memory α) (base n : Nat) (f : Nat → α) (c : Nat)
    (h : c < base ∨ base + n ≤ c) : (m.fill base n f).find c = m.find c := by
  rw [Memory.find_fill, if_neg (by omega)]

/-- Every address after a write is an address before it or the one written. -/
theorem Memory.mem_write (m : Memory α) (a : Nat) (v : α) {p : Nat × α} (h : p ∈ m.write a v) :
    p.1 = a ∨ p ∈ m := by
  induction m with
  | nil => simp [Memory.write] at h; simp [h]
  | cons q m ih =>
    obtain ⟨b, w⟩ := q
    simp only [Memory.write] at h
    split at h
    · rcases List.mem_cons.1 h with rfl | h
      · exact .inl rfl
      · exact .inr h
    · split at h
      · rcases List.mem_cons.1 h with rfl | h
        · exact .inl rfl
        · exact .inr (List.mem_cons_of_mem _ h)
      · rcases List.mem_cons.1 h with rfl | h
        · exact .inr List.mem_cons_self
        · rcases ih h with h | h
          · exact .inl h
          · exact .inr (List.mem_cons_of_mem _ h)

/-- A write keeps the canonical form. -/
theorem Memory.wf_write {m : Memory α} (h : m.wf) (a : Nat) (v : α) : (m.write a v).wf := by
  induction m with
  | nil => exact List.pairwise_singleton _ _
  | cons p m ih =>
    obtain ⟨b, w⟩ := p
    obtain ⟨hb, hm⟩ := List.pairwise_cons.1 h
    simp only [Memory.write]
    split
    · refine List.pairwise_cons.2 ⟨?_, h⟩
      intro q hq
      rcases List.mem_cons.1 hq with rfl | hq
      · assumption
      · exact Nat.lt_trans ‹a < b› (hb q hq)
    · split
      · next he => subst he; exact List.pairwise_cons.2 ⟨hb, hm⟩
      · refine List.pairwise_cons.2 ⟨?_, ih hm⟩
        intro q hq
        rcases Memory.mem_write m a v hq with he | hq
        · show b < q.1; omega
        · exact hb q hq

/-- A run of writes keeps the canonical form. -/
theorem Memory.wf_writeAll {m : Memory α} (h : m.wf) (l : List (Nat × α)) : (m.writeAll l).wf := by
  induction l generalizing m with
  | nil => exact h
  | cons p l ih => exact ih (Memory.wf_write h p.1 p.2)

/-- A fill keeps the canonical form. -/
theorem Memory.wf_fill {m : Memory α} (h : m.wf) (base n : Nat) (f : Nat → α) :
    (m.fill base n f).wf := Memory.wf_writeAll h _

end

/-! ### Descriptors and regions -/

@[simp] theorem DescTable.at_put_same (t : DescTable) (n : Slot) (d : Desc) :
    (t.put n d).at n = d := by simp [DescTable.at, DescTable.put]

theorem DescTable.at_put (t : DescTable) (n k : Slot) (d : Desc) :
    (t.put n d).at k = if k = n then d else t.at k := by
  unfold DescTable.at DescTable.put
  rw [Vector.getElem_set]
  by_cases h : k = n
  · simp [h]
  · have : n.toNat ≠ k.toNat := fun he => h (BitVec.eq_of_toNat_eq he.symm)
    simp [h, this]

theorem DescTable.at_put_other (t : DescTable) {n k : Slot} (d : Desc) (h : k ≠ n) :
    (t.put n d).at k = t.at k := by rw [DescTable.at_put, if_neg h]

@[simp] theorem DescTable.at_empty (n : Slot) : DescTable.empty.at n = Desc.empty := by
  simp [DescTable.at, DescTable.empty]

theorem Region.has_iff (r : Region) (i : Nat) : r.has i = true ↔ r.base ≤ i ∧ i < r.base + r.count := by
  simp [Region.has]

theorem Region.mem_indices (r : Region) (i : Nat) :
    i ∈ r.indices ↔ r.base ≤ i ∧ i < r.base + r.count := by
  unfold Region.indices
  rw [List.mem_map]
  constructor
  · rintro ⟨p, hp, rfl⟩
    have := List.mem_range.1 hp
    omega
  · rintro ⟨h1, h2⟩
    exact ⟨i - r.base, List.mem_range.2 (by omega), by omega⟩

/-- Two regions overlap exactly when they share an index (R39). -/
theorem Region.overlaps_iff (r q : Region) :
    r.overlaps q = true ↔ ∃ i, r.has i = true ∧ q.has i = true := by
  simp only [Region.overlaps, decide_eq_true_eq, Region.has_iff]
  constructor
  · intro h; exact ⟨max r.base q.base, by omega, by omega⟩
  · rintro ⟨i, h1, h2⟩; omega

/-! ### Checks and completion -/

/-- What ending a command can do (R402, R405). -/
theorem runCommand_cases (s : State) (e : Option ErrCode) (work t : State)
    (h : runCommand s e work = .next t) :
    (∃ c, e = some c ∧ t = s.complete (some c)) ∨ (e = none ∧ t = work.complete none) := by
  cases e with
  | some c => exact .inl ⟨c, rfl, (Host.Outcome.next.inj h).symm⟩
  | none => exact .inr ⟨rfl, (Host.Outcome.next.inj h).symm⟩

/-- A command always ends in a next state. -/
theorem runCommand_next (s : State) (e : Option ErrCode) (work : State) :
    ∃ t, runCommand s e work = .next t := by
  cases e <;> exact ⟨_, rfl⟩

@[simp] theorem firstFailing_nil : firstFailing [] = none := rfl

theorem firstFailing_cons (b : Bool) (e : ErrCode) (l : List (Bool × ErrCode)) :
    firstFailing ((b, e) :: l) = if b then some e else firstFailing l := by
  cases b <;> simp [firstFailing]

end Sys2Proof.Machine
end

