-- ==== Sys2Proof/Laws/State.lean ====
section
/-! SUPPORT. What each update of the state does to each field: one lemma per field per update. -/

namespace Sys2Proof.Machine

section
variable (s : State) (e : Option ErrCode)

@[simp] theorem complete_params : (s.complete e).params =
    s.params := rfl
@[simp] theorem complete_irqEn : (s.complete e).irqEn =
    s.irqEn := rfl
@[simp] theorem complete_status : (s.complete e).status =
    s.status.complete e := rfl
@[simp] theorem complete_cmd : (s.complete e).cmd =
    s.cmd := rfl
@[simp] theorem complete_taddr : (s.complete e).taddr =
    s.taddr := rfl
@[simp] theorem complete_rdlatch : (s.complete e).rdlatch =
    s.rdlatch := rfl
@[simp] theorem complete_wrlatch : (s.complete e).wrlatch =
    s.wrlatch := rfl
@[simp] theorem complete_par : (s.complete e).par =
    s.par := rfl
@[simp] theorem complete_desc : (s.complete e).desc =
    s.desc := rfl
@[simp] theorem complete_snap : (s.complete e).snap =
    s.snap := rfl
@[simp] theorem complete_lattice : (s.complete e).lattice =
    s.lattice := rfl
@[simp] theorem complete_tmem : (s.complete e).tmem =
    s.tmem := rfl
@[simp] theorem complete_hmem : (s.complete e).hmem =
    s.hmem := rfl
@[simp] theorem complete_racedTexels : (s.complete e).racedTexels =
    s.racedTexels := rfl
@[simp] theorem complete_racedBytes : (s.complete e).racedBytes =
    s.racedBytes := rfl
@[simp] theorem complete_draws : (s.complete e).draws =
    s.draws := rfl
@[simp] theorem complete_stalls : (s.complete e).stalls =
    s.stalls := rfl
@[simp] theorem complete_hostq : (s.complete e).hostq =
    s.hostq := rfl
@[simp] theorem complete_hostReads : (s.complete e).hostReads =
    s.hostReads := rfl

end

section
variable (s : State) (c : Word)

@[simp] theorem accept_params : (s.accept c).params =
    s.params := rfl
@[simp] theorem accept_irqEn : (s.accept c).irqEn =
    s.irqEn := rfl
@[simp] theorem accept_status : (s.accept c).status =
    s.status.accept := rfl
@[simp] theorem accept_cmd : (s.accept c).cmd =
    c := rfl
@[simp] theorem accept_taddr : (s.accept c).taddr =
    s.taddr := rfl
@[simp] theorem accept_rdlatch : (s.accept c).rdlatch =
    s.rdlatch := rfl
@[simp] theorem accept_wrlatch : (s.accept c).wrlatch =
    s.wrlatch := rfl
@[simp] theorem accept_par : (s.accept c).par =
    s.par := rfl
@[simp] theorem accept_desc : (s.accept c).desc =
    s.desc := rfl
@[simp] theorem accept_snap : (s.accept c).snap =
    { par := s.par, cmd := c, desc := s.desc } := rfl
@[simp] theorem accept_lattice : (s.accept c).lattice =
    s.lattice := rfl
@[simp] theorem accept_tmem : (s.accept c).tmem =
    s.tmem := rfl
@[simp] theorem accept_hmem : (s.accept c).hmem =
    s.hmem := rfl
@[simp] theorem accept_racedTexels : (s.accept c).racedTexels =
    [] := rfl
@[simp] theorem accept_racedBytes : (s.accept c).racedBytes =
    [] := rfl
@[simp] theorem accept_draws : (s.accept c).draws =
    s.draws := rfl
@[simp] theorem accept_stalls : (s.accept c).stalls =
    s.stalls := rfl
@[simp] theorem accept_hostq : (s.accept c).hostq =
    s.hostq := rfl
@[simp] theorem accept_hostReads : (s.accept c).hostReads =
    s.hostReads := rfl

end

section
variable (s : State) (d : Slot) (w h : Nat) (px : Nat → Nat → Texel)

@[simp] theorem produce_params : (produce s d w h px).params =
    s.params := rfl
@[simp] theorem produce_irqEn : (produce s d w h px).irqEn =
    s.irqEn := rfl
@[simp] theorem produce_status : (produce s d w h px).status =
    s.status := rfl
@[simp] theorem produce_cmd : (produce s d w h px).cmd =
    s.cmd := rfl
@[simp] theorem produce_taddr : (produce s d w h px).taddr =
    s.taddr := rfl
@[simp] theorem produce_rdlatch : (produce s d w h px).rdlatch =
    s.rdlatch := rfl
@[simp] theorem produce_wrlatch : (produce s d w h px).wrlatch =
    s.wrlatch := rfl
@[simp] theorem produce_par : (produce s d w h px).par =
    s.par := rfl
@[simp] theorem produce_desc : (produce s d w h px).desc =
    s.desc.put d { base := (s.snap.desc.at d).base, w := BitVec.ofNat 32 w, h := BitVec.ofNat 32 h, valid := true } := rfl
@[simp] theorem produce_snap : (produce s d w h px).snap =
    s.snap := rfl
@[simp] theorem produce_lattice : (produce s d w h px).lattice =
    s.lattice := rfl
@[simp] theorem produce_tmem : (produce s d w h px).tmem =
    s.tmem.fill (s.snap.desc.at d).base.toNat (w * h) (fun p => px (p % w) (p / w)) := rfl
@[simp] theorem produce_hmem : (produce s d w h px).hmem =
    s.hmem := rfl
@[simp] theorem produce_racedTexels : (produce s d w h px).racedTexels =
    s.racedTexels := rfl
@[simp] theorem produce_racedBytes : (produce s d w h px).racedBytes =
    s.racedBytes := rfl
@[simp] theorem produce_draws : (produce s d w h px).draws =
    s.draws := rfl
@[simp] theorem produce_stalls : (produce s d w h px).stalls =
    s.stalls := rfl
@[simp] theorem produce_hostq : (produce s d w h px).hostq =
    s.hostq := rfl
@[simp] theorem produce_hostReads : (produce s d w h px).hostReads =
    s.hostReads := rfl

end

section
variable (s : State) (d : Slot) (f : Texel → Texel)

@[simp] theorem editInPlace_params : (editInPlace s d f).params =
    s.params := rfl
@[simp] theorem editInPlace_irqEn : (editInPlace s d f).irqEn =
    s.irqEn := rfl
@[simp] theorem editInPlace_status : (editInPlace s d f).status =
    s.status := rfl
@[simp] theorem editInPlace_cmd : (editInPlace s d f).cmd =
    s.cmd := rfl
@[simp] theorem editInPlace_taddr : (editInPlace s d f).taddr =
    s.taddr := rfl
@[simp] theorem editInPlace_rdlatch : (editInPlace s d f).rdlatch =
    s.rdlatch := rfl
@[simp] theorem editInPlace_wrlatch : (editInPlace s d f).wrlatch =
    s.wrlatch := rfl
@[simp] theorem editInPlace_par : (editInPlace s d f).par =
    s.par := rfl
@[simp] theorem editInPlace_desc : (editInPlace s d f).desc =
    s.desc := rfl
@[simp] theorem editInPlace_snap : (editInPlace s d f).snap =
    s.snap := rfl
@[simp] theorem editInPlace_lattice : (editInPlace s d f).lattice =
    s.lattice := rfl
@[simp] theorem editInPlace_tmem : (editInPlace s d f).tmem =
    s.tmem.fill (s.snap.desc.at d).base.toNat (s.snap.desc.at d).count
      (fun p => f (tread s ((s.snap.desc.at d).base.toNat + p))) := rfl
@[simp] theorem editInPlace_hmem : (editInPlace s d f).hmem =
    s.hmem := rfl
@[simp] theorem editInPlace_racedTexels : (editInPlace s d f).racedTexels =
    s.racedTexels := rfl
@[simp] theorem editInPlace_racedBytes : (editInPlace s d f).racedBytes =
    s.racedBytes := rfl
@[simp] theorem editInPlace_draws : (editInPlace s d f).draws =
    s.draws := rfl
@[simp] theorem editInPlace_stalls : (editInPlace s d f).stalls =
    s.stalls := rfl
@[simp] theorem editInPlace_hostq : (editInPlace s d f).hostq =
    s.hostq := rfl
@[simp] theorem editInPlace_hostReads : (editInPlace s d f).hostReads =
    s.hostReads := rfl

end

section
variable (s : State) (l : List ByteStore)

@[simp] theorem storeBytes_params : (storeBytes s l).params =
    s.params := rfl
@[simp] theorem storeBytes_irqEn : (storeBytes s l).irqEn =
    s.irqEn := rfl
@[simp] theorem storeBytes_status : (storeBytes s l).status =
    s.status := rfl
@[simp] theorem storeBytes_cmd : (storeBytes s l).cmd =
    s.cmd := rfl
@[simp] theorem storeBytes_taddr : (storeBytes s l).taddr =
    s.taddr := rfl
@[simp] theorem storeBytes_rdlatch : (storeBytes s l).rdlatch =
    s.rdlatch := rfl
@[simp] theorem storeBytes_wrlatch : (storeBytes s l).wrlatch =
    s.wrlatch := rfl
@[simp] theorem storeBytes_par : (storeBytes s l).par =
    s.par := rfl
@[simp] theorem storeBytes_desc : (storeBytes s l).desc =
    s.desc := rfl
@[simp] theorem storeBytes_snap : (storeBytes s l).snap =
    s.snap := rfl
@[simp] theorem storeBytes_lattice : (storeBytes s l).lattice =
    s.lattice := rfl
@[simp] theorem storeBytes_tmem : (storeBytes s l).tmem =
    s.tmem := rfl
@[simp] theorem storeBytes_hmem : (storeBytes s l).hmem =
    s.hmem.writeAll (l.map (fun b => (b.addr, b.byte))) := rfl
@[simp] theorem storeBytes_racedTexels : (storeBytes s l).racedTexels =
    s.racedTexels := rfl
@[simp] theorem storeBytes_racedBytes : (storeBytes s l).racedBytes =
    s.racedBytes := rfl
@[simp] theorem storeBytes_draws : (storeBytes s l).draws =
    s.draws := rfl
@[simp] theorem storeBytes_stalls : (storeBytes s l).stalls =
    s.stalls := rfl
@[simp] theorem storeBytes_hostq : (storeBytes s l).hostq =
    s.hostq := rfl
@[simp] theorem storeBytes_hostReads : (storeBytes s l).hostReads =
    s.hostReads := rfl

end

section
variable (s : State)

@[simp] theorem finishBuild_params : (s.finishBuild).params =
    s.params := rfl
@[simp] theorem finishBuild_irqEn : (s.finishBuild).irqEn =
    s.irqEn := rfl
@[simp] theorem finishBuild_status : (s.finishBuild).status =
    { s.status with latticeReady := true } := rfl
@[simp] theorem finishBuild_cmd : (s.finishBuild).cmd =
    s.cmd := rfl
@[simp] theorem finishBuild_taddr : (s.finishBuild).taddr =
    s.taddr := rfl
@[simp] theorem finishBuild_rdlatch : (s.finishBuild).rdlatch =
    s.rdlatch := rfl
@[simp] theorem finishBuild_wrlatch : (s.finishBuild).wrlatch =
    s.wrlatch := rfl
@[simp] theorem finishBuild_par : (s.finishBuild).par =
    s.par := rfl
@[simp] theorem finishBuild_desc : (s.finishBuild).desc =
    s.desc := rfl
@[simp] theorem finishBuild_snap : (s.finishBuild).snap =
    s.snap := rfl
@[simp] theorem finishBuild_lattice : (s.finishBuild).lattice =
    s.params.lattice := rfl
@[simp] theorem finishBuild_tmem : (s.finishBuild).tmem =
    s.tmem := rfl
@[simp] theorem finishBuild_hmem : (s.finishBuild).hmem =
    s.hmem := rfl
@[simp] theorem finishBuild_racedTexels : (s.finishBuild).racedTexels =
    s.racedTexels := rfl
@[simp] theorem finishBuild_racedBytes : (s.finishBuild).racedBytes =
    s.racedBytes := rfl
@[simp] theorem finishBuild_draws : (s.finishBuild).draws =
    s.draws := rfl
@[simp] theorem finishBuild_stalls : (s.finishBuild).stalls =
    s.stalls := rfl
@[simp] theorem finishBuild_hostq : (s.finishBuild).hostq =
    s.hostq := rfl
@[simp] theorem finishBuild_hostReads : (s.finishBuild).hostReads =
    s.hostReads := rfl

end

section
variable (s : State)

@[simp] theorem popInput_params : (s.popInput).params =
    s.params := rfl
@[simp] theorem popInput_irqEn : (s.popInput).irqEn =
    s.irqEn := rfl
@[simp] theorem popInput_status : (s.popInput).status =
    s.status := rfl
@[simp] theorem popInput_cmd : (s.popInput).cmd =
    s.cmd := rfl
@[simp] theorem popInput_taddr : (s.popInput).taddr =
    s.taddr := rfl
@[simp] theorem popInput_rdlatch : (s.popInput).rdlatch =
    s.rdlatch := rfl
@[simp] theorem popInput_wrlatch : (s.popInput).wrlatch =
    s.wrlatch := rfl
@[simp] theorem popInput_par : (s.popInput).par =
    s.par := rfl
@[simp] theorem popInput_desc : (s.popInput).desc =
    s.desc := rfl
@[simp] theorem popInput_snap : (s.popInput).snap =
    s.snap := rfl
@[simp] theorem popInput_lattice : (s.popInput).lattice =
    s.lattice := rfl
@[simp] theorem popInput_tmem : (s.popInput).tmem =
    s.tmem := rfl
@[simp] theorem popInput_hmem : (s.popInput).hmem =
    s.hmem := rfl
@[simp] theorem popInput_racedTexels : (s.popInput).racedTexels =
    s.racedTexels := rfl
@[simp] theorem popInput_racedBytes : (s.popInput).racedBytes =
    s.racedBytes := rfl
@[simp] theorem popInput_draws : (s.popInput).draws =
    s.draws := rfl
@[simp] theorem popInput_stalls : (s.popInput).stalls =
    s.stalls.tail := rfl
@[simp] theorem popInput_hostq : (s.popInput).hostq =
    s.hostq.tail := rfl
@[simp] theorem popInput_hostReads : (s.popInput).hostReads =
    [] := rfl

end

section
variable (s : State) (v : Word)

@[simp] theorem answer_params : (s.answer v).params =
    s.params := rfl
@[simp] theorem answer_irqEn : (s.answer v).irqEn =
    s.irqEn := rfl
@[simp] theorem answer_status : (s.answer v).status =
    s.status := rfl
@[simp] theorem answer_cmd : (s.answer v).cmd =
    s.cmd := rfl
@[simp] theorem answer_taddr : (s.answer v).taddr =
    s.taddr := rfl
@[simp] theorem answer_rdlatch : (s.answer v).rdlatch =
    s.rdlatch := rfl
@[simp] theorem answer_wrlatch : (s.answer v).wrlatch =
    s.wrlatch := rfl
@[simp] theorem answer_par : (s.answer v).par =
    s.par := rfl
@[simp] theorem answer_desc : (s.answer v).desc =
    s.desc := rfl
@[simp] theorem answer_snap : (s.answer v).snap =
    s.snap := rfl
@[simp] theorem answer_lattice : (s.answer v).lattice =
    s.lattice := rfl
@[simp] theorem answer_tmem : (s.answer v).tmem =
    s.tmem := rfl
@[simp] theorem answer_hmem : (s.answer v).hmem =
    s.hmem := rfl
@[simp] theorem answer_racedTexels : (s.answer v).racedTexels =
    s.racedTexels := rfl
@[simp] theorem answer_racedBytes : (s.answer v).racedBytes =
    s.racedBytes := rfl
@[simp] theorem answer_draws : (s.answer v).draws =
    s.draws := rfl
@[simp] theorem answer_stalls : (s.answer v).stalls =
    s.stalls := rfl
@[simp] theorem answer_hostq : (s.answer v).hostq =
    s.hostq := rfl
@[simp] theorem answer_hostReads : (s.answer v).hostReads =
    s.hostReads ++ [v] := rfl

end

end Sys2Proof.Machine
end

