-- ==== Sys2Proof/Laws/Commands.lean ====
section
/-! SUPPORT. What a command can do, said once: an error completion, or one of five kinds of work
followed by a successful completion. -/

namespace Sys2Proof.Machine

/-! ### Checks -/

theorem firstFailing_none_cons {b : Bool} {e : ErrCode} {l : List (Bool × ErrCode)}
    (h : firstFailing ((b, e) :: l) = none) : b = false ∧ firstFailing l = none := by
  rw [firstFailing_cons] at h
  cases b <;> simp_all

/-- INVALID_DIM does not fail: both sizes are at least 1. -/
theorem dim_of_pass {s : State} (h : (dimFails s).1 = false) : 1 ≤ widthOf s ∧ 1 ≤ heightOf s := by
  simp [dimFails] at h; omega

theorem nomem_of_pass {s : State} {d : Slot} {n : Nat} (h : (nomemFails s d n).1 = false) :
    OutputFits s d n := by
  simpa [nomemFails, outRegion, OutputFits] using h

theorem nomem_pass {s : State} {d : Slot} {n : Nat} (h : OutputFits s d n) :
    (nomemFails s d n).1 = false := by
  simpa [nomemFails, outRegion, OutputFits] using h

theorem dma_of_pass {s : State} {last : Nat} (h : (dmaFails s last).1 = false) :
    last < s.params.hmemSize := by
  simp [dmaFails] at h; exact h

/-! ### Sizes of buffers -/

theorem widthOf_toNat {s : State} (h : 1 ≤ widthOf s) :
    (widthOf s).toNat = s.snap.par.width.toNat ∧ s.snap.par.width.toNat < 2 ^ 31 := by
  unfold widthOf at *
  have := s.snap.par.width.isLt
  rw [BitVec.toInt_eq_toNat_cond] at *
  split at h <;> simp_all <;> omega

theorem heightOf_toNat {s : State} (h : 1 ≤ heightOf s) :
    (heightOf s).toNat = s.snap.par.height.toNat ∧ s.snap.par.height.toNat < 2 ^ 31 := by
  unfold heightOf at *
  have := s.snap.par.height.isLt
  rw [BitVec.toInt_eq_toNat_cond] at *
  split at h <;> simp_all <;> omega

@[simp] theorem ofNat_toNat_word (w : Word) : BitVec.ofNat 32 w.toNat = w := by simp

/-! ### The effect of the shared operations -/

/-- Row-major indices: pixel (x, y) of a buffer of width w is texel number y·w + x (R35). -/
theorem rowMajor_lt {w h x y : Nat} (hx : x < w) (hy : y < h) : y * w + x < w * h := by
  calc y * w + x < y * w + w := by omega
    _ = (y + 1) * w := by ring
    _ ≤ h * w := Nat.mul_le_mul_right _ hy
    _ = w * h := Nat.mul_comm _ _

theorem rowMajor_mod {w x : Nat} (y : Nat) (hx : x < w) : (y * w + x) % w = x := by
  rw [Nat.add_comm, Nat.add_mul_mod_self_right, Nat.mod_eq_of_lt hx]

theorem rowMajor_div {w x : Nat} (y : Nat) (hx : x < w) : (y * w + x) / w = y := by
  rw [Nat.add_comm, Nat.add_mul_div_right _ _ (by omega), Nat.div_eq_of_lt hx, Nat.zero_add]

/-- What `produce` leaves (R35, R38). -/
theorem produce_buffer (s : State) (d : Slot) {w h : Nat} (hw : w < 2 ^ 32) (hh : h < 2 ^ 32)
    (px : Nat → Nat → Texel) :
    ProducedBuffer s (produce s d w h px) d (BitVec.ofNat 32 w) (BitVec.ofNat 32 h) px := by
  have hw' : (BitVec.ofNat 32 w).toNat = w := by simp; omega
  have hh' : (BitVec.ofNat 32 h).toNat = h := by simp; omega
  constructor
  · intro x y hx hy
    rw [hw'] at hx ⊢
    rw [hh'] at hy
    rw [produce_tmem, Memory.find_fill_at _ _ _ _ _ (rowMajor_lt hx hy), rowMajor_mod y hx,
      rowMajor_div y hx]
  · intro a ha
    rw [hw', hh'] at ha
    exact Memory.find_fill_outside _ _ _ _ _ ha
  · exact DescTable.at_put_same _ _ _
  · intro n hn
    exact DescTable.at_put_other _ _ hn
  · rfl

/-- Completion changes nothing that a buffer statement speaks of. -/
theorem ProducedBuffer.complete {s t : State} {d : Slot} {w h : Word} {px : Nat → Nat → Texel}
    (hb : ProducedBuffer s t d w h px) (e : Option ErrCode) :
    ProducedBuffer s (t.complete e) d w h px :=
  ⟨hb.texels, hb.otherTexels, hb.slot, hb.otherSlots, hb.hmem⟩

/-- A buffer is the same for two pixel functions that agree inside it. -/
theorem ProducedBuffer.congr {s t : State} {d : Slot} {w h : Word} {px qx : Nat → Nat → Texel}
    (hb : ProducedBuffer s t d w h px)
    (he : ∀ x y, x < w.toNat → y < h.toNat → px x y = qx x y) : ProducedBuffer s t d w h qx :=
  ⟨fun x y hx hy => by rw [hb.texels x y hx hy, he x y hx hy], hb.otherTexels, hb.slot,
    hb.otherSlots, hb.hmem⟩

/-- What a texel reads as, where the memory lists it. -/
theorem tread_of_find {s : State} {a : Nat} {t : Texel} (h : s.tmem.find a = some t) :
    tread s a = t := by simp [tread, treadIn, h]

theorem tread_congr {s t : State} {a : Nat} (h : t.tmem.find a = s.tmem.find a)
    (hd : t.draws = s.draws) : tread t a = tread s a := by
  simp [tread, treadIn, h, hd]

/-- What `editInPlace` leaves. -/
theorem editInPlace_buffer (s : State) (d : Slot) (f : Texel → Texel) :
    EditedBuffer s (editInPlace s d f) d
      (fun p => f (tread s ((s.snap.desc.at d).base.toNat + p))) := by
  constructor
  · intro p hp
    exact tread_of_find (Memory.find_fill_at _ _ _ _ _ hp)
  · intro a ha
    exact Memory.find_fill_outside _ _ _ _ _ ha
  · rfl
  · rfl

theorem EditedBuffer.complete {s t : State} {d : Slot} {px : Nat → Texel}
    (hb : EditedBuffer s t d px) (e : Option ErrCode) : EditedBuffer s (t.complete e) d px :=
  ⟨hb.texels, hb.otherTexels, hb.desc, hb.hmem⟩

/-- The registers that no work of a command changes stay through it and through completion. -/
theorem SameRegisters.complete {s t : State} (h : SameRegisters s t) (e : Option ErrCode) :
    SameRegisters s (t.complete e) :=
  ⟨h.params, h.irqEn, h.cmd, h.taddr, h.rdlatch, h.wrlatch, h.par, h.snap, h.lattice,
    h.racedTexels, h.racedBytes, h.draws, h.stalls, h.hostq, h.hostReads⟩

theorem SameRegisters.refl (s : State) : SameRegisters s s :=
  ⟨rfl, rfl, rfl, rfl, rfl, rfl, rfl, rfl, rfl, rfl, rfl, rfl, rfl, rfl, rfl⟩

theorem sameRegisters_of_work (s : State) (tmem : Memory Texel) (hmem : Memory Byte)
    (desc : DescTable) : SameRegisters s { s with tmem := tmem, hmem := hmem, desc := desc } :=
  ⟨rfl, rfl, rfl, rfl, rfl, rfl, rfl, rfl, rfl, rfl, rfl, rfl, rfl, rfl, rfl⟩

/-- A command whose checks pass completes with success (R405). -/
theorem succeeds_of_run {i : Instr} {s work : State} {e : Option ErrCode} {P : State → Prop}
    (hi : exec i s = runCommand s e work) (he : e = none) (hr : SameRegisters s work)
    (hs : work.status = s.status) (hP : P (work.complete none)) : Succeeds i s P :=
  ⟨work.complete none, by rw [hi, he]; rfl, by simp [Status.complete, hs], hr.complete none, hP⟩

/-! ### GLOW -/

/-- The stores of one pass of GLOW. -/
theorem glowPass_eq (s : State) (ds : Desc) (curve rect : Bool) (m : Memory Texel) (p : Pass) :
    ∃ l : List (Nat × Texel), glowPass s ds curve rect m p = m.writeAll l ∧
      ∀ q ∈ l, ds.region.has q.1 = true ∧
        ∃ fade, fade ≤ 65534 ∧
          q.2 = blend (treadIn s.draws m q.1) (pack32 s.snap.par.color0) fade := by
  refine ⟨_, rfl, ?_⟩
  intro q hq
  obtain ⟨k, hk, rfl⟩ := List.mem_map.1 hq
  have hk := List.mem_range.1 (List.mem_filter.1 hk).1
  refine ⟨?_, _, glowFade_le s curve _, rfl⟩
  simp [Region.has, Desc.region]; omega

/-- All passes of GLOW write only in the region, and keep the headroom of what they read. -/
theorem glowPasses_eq (s : State) (ds : Desc) (curve rect : Bool) (ps : List Pass)
    (m : Memory Texel) :
    ∃ l : List (Nat × Texel), ps.foldl (glowPass s ds curve rect) m = m.writeAll l ∧
      (∀ q ∈ l, ds.region.has q.1 = true) ∧
      ((∀ a, ds.region.has a = true → treadIn s.draws m a &&& headroomMask = treadIn s.draws m a) →
        ∀ q ∈ l, q.2 &&& headroomMask = q.2) := by
  induction ps generalizing m with
  | nil => exact ⟨[], rfl, by simp, by simp⟩
  | cons p ps ih =>
    obtain ⟨l, hl, hq⟩ := glowPass_eq s ds curve rect m p
    obtain ⟨l', hl', hr', hh'⟩ := ih (glowPass s ds curve rect m p)
    refine ⟨l ++ l', ?_, ?_, ?_⟩
    · rw [List.foldl_cons, hl', Memory.writeAll_append, ← hl]
    · intro q hm
      rcases List.mem_append.1 hm with hm | hm
      · exact (hq q hm).1
      · exact hr' q hm
    · intro hm
      have h1 : ∀ q ∈ l, q.2 &&& headroomMask = q.2 := by
        intro q hql
        obtain ⟨hreg, fade, hf, he⟩ := hq q hql
        rw [he]
        exact headroom_blend (Nat.le_trans hf (by decide)) (hm _ hreg) (headroom_pack32 _)
      intro q hql
      rcases List.mem_append.1 hql with hql | hql
      · exact h1 q hql
      · refine hh' ?_ q hql
        intro a ha
        rw [hl]
        rcases Memory.find_writeAll_cases m l a with ⟨v, hv, he⟩ | ⟨-, he⟩
        · simp only [treadIn, he, Option.getD_some]; exact h1 _ hv
        · simp only [treadIn, he]; exact hm a ha

/-! ### What a command does -/

/-- Every texel of every valid buffer of the snapshot reads with the headroom. -/
def SnapHeadroom (s : State) : Prop :=
  ∀ (n : Slot) (p : Nat), (s.snap.desc.at n).valid = true → p < (s.snap.desc.at n).count →
    tread s ((s.snap.desc.at n).base.toNat + p) &&& headroomMask =
      tread s ((s.snap.desc.at n).base.toNat + p)

theorem snapHeadroom_of {s : State} (hh : s.HeadroomOk) (hw : s.RegionsWritten) :
    SnapHeadroom s := by
  intro n p hv hp
  obtain ⟨t, ht⟩ := Option.isSome_iff_exists.1 ((hw n p).2 hv hp)
  rw [tread_of_find ht]
  exact hh _ _ ht

/-- The work of a command whose checks pass, before its completion: none; a new buffer; texels of one
valid buffer changed in place; a slot released; bytes stored in HMEM. -/
inductive Work (s : State) : State → Prop where
  | same : Work s s
  | make (d : Slot) (w h : Nat) (px : Nat → Nat → Texel) (hw : w < 2 ^ 32) (hh : h < 2 ^ 32)
      (fits : OutputFits s d (w * h)) (size : s.DescsOk → 1 ≤ w ∧ 1 ≤ h)
      (room : SnapHeadroom s → ∀ p, p < w * h → px (p % w) (p / w) &&& headroomMask =
        px (p % w) (p / w)) : Work s (produce s d w h px)
  | edit (d : Slot) (l : List (Nat × Texel)) (valid : (s.snap.desc.at d).valid = true)
      (inside : ∀ q ∈ l, (s.snap.desc.at d).region.has q.1 = true)
      (room : SnapHeadroom s → ∀ q ∈ l, q.2 &&& headroomMask = q.2) :
      Work s { s with tmem := s.tmem.writeAll l }
  | free (d : Slot) :
      Work s { s with desc := s.desc.put d { (s.desc.at d) with w := 0, h := 0, valid := false } }
  | store (l : List (Nat × Byte)) (inside : s.DescsOk → ∀ q ∈ l, q.1 < s.params.hmemSize) :
      Work s { s with hmem := s.hmem.writeAll l }

/-- The in-place edit of a valid buffer as a kind of work. -/
theorem work_editInPlace {s : State} {d : Slot} {f : Texel → Texel}
    (hv : (s.snap.desc.at d).valid = true)
    (hf : ∀ t, t &&& headroomMask = t → f t &&& headroomMask = f t) :
    Work s (editInPlace s d f) := by
  refine Work.edit d _ hv ?_ ?_
  · intro q hq
    obtain ⟨p, hp, rfl⟩ := List.mem_map.1 hq
    have := List.mem_range.1 hp
    simp [Region.has, Desc.region]; omega
  · intro hs q hq
    obtain ⟨p, hp, rfl⟩ := List.mem_map.1 hq
    exact hf _ (hs d p hv (List.mem_range.1 hp))

theorem runCommand_work {s work t : State} {e : Option ErrCode} (h : runCommand s e work = .next t)
    (hw : e = none → Work s work) :
    (∃ c, e = some c ∧ t = s.complete (some c)) ∨ (e = none ∧ ∃ w, Work s w ∧ t = w.complete none) := by
  rcases runCommand_cases s e work t h with h | ⟨he, ht⟩
  · exact .inl h
  · exact .inr ⟨he, work, hw he, ht⟩

/-! The checks of each command, read from their success. -/

theorem emptyFails_single {s : State} {n : Slot} {l : List (Bool × ErrCode)}
    (h : firstFailing (emptyFails [s.snap.desc.at n] :: l) = none) :
    (s.snap.desc.at n).valid = true ∧ firstFailing l = none := by
  have := firstFailing_none_cons h
  simpa [emptyFails] using this

theorem synthError_none {s : State} {d : Slot} (h : synthError s d = none) :
    1 ≤ widthOf s ∧ 1 ≤ heightOf s ∧ OutputFits s d ((widthOf s).toNat * (heightOf s).toNat) := by
  obtain ⟨h1, h2⟩ := firstFailing_none_cons h
  obtain ⟨h3, -⟩ := firstFailing_none_cons h2
  exact ⟨(dim_of_pass h1).1, (dim_of_pass h1).2, nomem_of_pass h3⟩

theorem importError_none {s : State} {d : Slot} {n : Nat} (h : importError s d n = none) :
    1 ≤ widthOf s ∧ 1 ≤ heightOf s ∧ OutputFits s d ((widthOf s).toNat * (heightOf s).toNat) ∧
      (importRange s n).base + (importRange s n).count - 1 < s.params.hmemSize := by
  obtain ⟨h1, h2⟩ := firstFailing_none_cons h
  obtain ⟨h3, h4⟩ := firstFailing_none_cons h2
  obtain ⟨h5, -⟩ := firstFailing_none_cons h4
  exact ⟨(dim_of_pass h1).1, (dim_of_pass h1).2, nomem_of_pass h3, dma_of_pass h5⟩

theorem normalError_none {s : State} {d src : Slot} (h : normalError s d src = none) :
    (s.snap.desc.at src).valid = true ∧ OutputFits s d (s.snap.desc.at src).count ∧
      (outRegion s d (s.snap.desc.at src).count).overlaps (s.snap.desc.at src).region = false := by
  obtain ⟨h1, h2⟩ := emptyFails_single h
  obtain ⟨h3, h4⟩ := firstFailing_none_cons h2
  obtain ⟨h5, -⟩ := firstFailing_none_cons h4
  exact ⟨h1, nomem_of_pass h3, h5⟩

theorem copyError_none {s : State} {d src : Slot} (h : copyError s d src = none) :
    (s.snap.desc.at src).valid = true ∧ OutputFits s d (s.snap.desc.at src).count := by
  obtain ⟨h1, h2⟩ := emptyFails_single h
  obtain ⟨h3, -⟩ := firstFailing_none_cons h2
  exact ⟨h1, nomem_of_pass h3⟩

/-- The whole list of a MERGE whose checks pass: every entry valid and of the size of the first. -/
theorem mergeError_none {s : State} {d : Slot} {n : Nat} (h : mergeError s d n = none) :
    (∀ q ∈ mergeDescs s n, q.valid = true ∧ q.w = (s.snap.desc.at (mlistAt s 0)).w ∧
      q.h = (s.snap.desc.at (mlistAt s 0)).h) ∧
      OutputFits s d (s.snap.desc.at (mlistAt s 0)).count := by
  obtain ⟨h1, h2⟩ := firstFailing_none_cons h
  obtain ⟨h3, h4⟩ := firstFailing_none_cons h2
  obtain ⟨h5, -⟩ := firstFailing_none_cons h4
  refine ⟨fun q hq => ?_, nomem_of_pass h5⟩
  simp only [List.any_eq_false, Bool.not_eq_true', Bool.not_eq_false] at h1
  simp only [List.any_eq_false, decide_eq_true_eq, not_or, not_not] at h3
  have hv := h1 q hq
  exact ⟨by simpa using hv, (h3 q hq).1, (h3 q hq).2⟩

theorem mem_mergeDescs {s : State} {n : Nat} {q : Desc} (h : q ∈ mergeDescs s n) :
    ∃ k : Slot, q = s.snap.desc.at k := by
  unfold mergeDescs at h
  rcases List.mem_cons.1 h with rfl | h
  · exact ⟨_, rfl⟩
  · obtain ⟨k, -, rfl⟩ := List.mem_map.1 h
    exact ⟨k, rfl⟩

theorem mem_mergeRest {s : State} {n : Nat} {k : Slot} (h : k ∈ mergeRest s n) :
    s.snap.desc.at k ∈ mergeDescs s n :=
  List.mem_cons_of_mem _ (List.mem_map.2 ⟨k, h, rfl⟩)

theorem desc_size {s : State} {n : Slot} (hd : s.DescsOk) (hv : (s.snap.desc.at n).valid = true) :
    1 ≤ (s.snap.desc.at n).w.toNat ∧ 1 ≤ (s.snap.desc.at n).h.toNat ∧
      (s.snap.desc.at n).base.toNat + (s.snap.desc.at n).count ≤ s.params.tmemTexels := by
  have := (hd n).2
  simpa [Desc.Ok, hv] using this

/-- The fold of a MERGE keeps the headroom. -/
theorem headroom_fold (op : Nat → Nat → Nat)
    (hop : ∀ a b, a ≤ 0x7FFF → b ≤ 0x7FFF → op a b ≤ 0x7FFF) (l : List Texel) (t : Texel)
    (ht : t &&& headroomMask = t) (hl : ∀ u ∈ l, u &&& headroomMask = u) :
    l.foldl (zipLanes op) t &&& headroomMask = l.foldl (zipLanes op) t := by
  induction l generalizing t with
  | nil => exact ht
  | cons u l ih =>
    refine ih _ ?_ (fun v hv => hl v (List.mem_cons_of_mem _ hv))
    have hu := hl u List.mem_cons_self
    rw [headroom_iff] at ht hu
    exact headroom_zipLanes _ _ _ (fun i hi => hop _ _ (ht i hi) (hu i hi))

theorem mergeFold_eq (s : State) (op : Nat → Nat → Nat) (n p : Nat) :
    mergeFold s op n p =
      (((mergeRest s n).map s.snap.desc.at).map (fun q => tread s (q.base.toNat + p))).foldl
        (zipLanes op) (tread s ((s.snap.desc.at (mlistAt s 0)).base.toNat + p)) := by
  rw [mergeFold, List.foldl_map, List.foldl_map, List.foldl_map]

theorem work_merge {s : State} {d : Slot} {n : Nat} (op : Nat → Nat → Nat)
    (hop : ∀ a b, a ≤ 0x7FFF → b ≤ 0x7FFF → op a b ≤ 0x7FFF) (h : mergeError s d n = none) :
    Work s (produce s d (s.snap.desc.at (mlistAt s 0)).w.toNat
      (s.snap.desc.at (mlistAt s 0)).h.toNat
      (fun x y => mergeFold s op n (y * (s.snap.desc.at (mlistAt s 0)).w.toNat + x))) := by
  obtain ⟨hall, hfit⟩ := mergeError_none h
  have h0 := hall _ (List.mem_cons_self : s.snap.desc.at (mlistAt s 0) ∈ mergeDescs s n)
  refine Work.make d _ _ _ (BitVec.isLt _) (BitVec.isLt _) hfit (fun hd => ?_) (fun hs p hp => ?_)
  · exact ⟨(desc_size hd h0.1).1, (desc_size hd h0.1).2.1⟩
  · rw [mergeFold_eq]
    have hidx : p / (s.snap.desc.at (mlistAt s 0)).w.toNat *
        (s.snap.desc.at (mlistAt s 0)).w.toNat + p % (s.snap.desc.at (mlistAt s 0)).w.toNat = p :=
      Nat.div_add_mod' _ _
    rw [hidx]
    apply headroom_fold op hop
    · exact hs _ _ h0.1 hp
    · intro u hu
      obtain ⟨q, hq, rfl⟩ := List.mem_map.1 hu
      obtain ⟨k, hk, rfl⟩ := List.mem_map.1 hq
      have hk := hall _ (mem_mergeRest hk)
      refine hs k p hk.1 ?_
      rw [Desc.count, hk.2.1, hk.2.2]; exact hp

theorem importByte_le (s : State) (a k : Nat) : importByte s a k ≤ 0x7FFF := pack8_le _

theorem work_import {s : State} {d : Slot} {n : Nat} (expand : State → Nat → Texel)
    (he : ∀ s a, expand s a &&& headroomMask = expand s a) (h : importError s d n = none) :
    Work s (produce s d (widthOf s).toNat (heightOf s).toNat
      (fun x y => expand s (haddrOf s + n * (y * (widthOf s).toNat + x)))) := by
  obtain ⟨hw, hh, hf, -⟩ := importError_none h
  have h1 := widthOf_toNat hw
  have h2 := heightOf_toNat hh
  refine Work.make d _ _ _ (by omega) (by omega) hf (fun _ => by omega) (fun _ _ _ => he _ _)

/-- The addresses of the stores of EXPORT. -/
theorem exportStores_addr {s : State} {ds : Desc} {b : ByteStore} (h : b ∈ exportStores s ds) :
    haddrOf s ≤ b.addr ∧ b.addr < haddrOf s + 4 * ds.count := by
  obtain ⟨p, hp, hb⟩ := List.mem_flatMap.1 h
  have hp := List.mem_range.1 hp
  simp [pixelStores] at hb
  rcases hb with rfl | rfl | rfl | rfl <;> simp only <;> omega

/-- The addresses of the stores of RAWFILL. -/
theorem rawfillStores_addr {s : State} {ds : Desc} {b : ByteStore} (h : b ∈ rawfillStores s ds) :
    (rawfillRange s ds).has b.addr = true := by
  obtain ⟨p, hp, hb⟩ := List.mem_flatMap.1 h
  have hp := List.mem_range.1 hp
  have hw : 0 < ds.w.toNat := by
    apply Nat.pos_of_ne_zero
    intro h0
    simp [Desc.count, h0] at hp
  have hx := Nat.mod_lt p hw
  have hy : p / ds.w.toNat < ds.h.toNat := by
    rw [Nat.div_lt_iff_lt_mul hw, Nat.mul_comm]; exact hp
  have hrow : p / ds.w.toNat * s.snap.par.hstride.toNat ≤
      (ds.h.toNat - 1) * s.snap.par.hstride.toNat := Nat.mul_le_mul_right _ (by omega)
  simp [pixelStores] at hb
  rw [Region.has_iff]
  simp only [rawfillRange]
  generalize p / ds.w.toNat * s.snap.par.hstride.toNat = row at *
  generalize (ds.h.toNat - 1) * s.snap.par.hstride.toNat = last at *
  rcases hb with rfl | rfl | rfl | rfl <;> simp only <;> omega

theorem exportError_none {s : State} {src : Slot} (h : exportError s src = none) :
    (s.snap.desc.at src).valid = true ∧
      haddrOf s + 4 * (s.snap.desc.at src).count - 1 < s.params.hmemSize := by
  obtain ⟨h1, h2⟩ := emptyFails_single h
  obtain ⟨h3, -⟩ := firstFailing_none_cons h2
  exact ⟨h1, dma_of_pass h3⟩

theorem rawfillError_none {s : State} {src : Slot} (h : rawfillError s src = none) :
    (s.snap.desc.at src).valid = true ∧
      (rawfillRange s (s.snap.desc.at src)).base + (rawfillRange s (s.snap.desc.at src)).count - 1 <
        s.params.hmemSize := by
  obtain ⟨h1, h2⟩ := emptyFails_single h
  obtain ⟨h3, -⟩ := firstFailing_none_cons h2
  exact ⟨h1, dma_of_pass h3⟩

theorem work_export {s : State} {src : Slot} (h : exportError s src = none) :
    Work s (storeBytes s (exportStores s (s.snap.desc.at src))) := by
  refine Work.store _ (fun _ q hq => ?_)
  obtain ⟨b, hb, rfl⟩ := List.mem_map.1 hq
  have h1 := exportStores_addr hb
  have h2 := (exportError_none h).2
  show b.addr < _
  omega

theorem work_rawfill {s : State} {src : Slot} (h : rawfillError s src = none) :
    Work s (storeBytes s (rawfillStores s (s.snap.desc.at src))) := by
  refine Work.store _ (fun _ q hq => ?_)
  obtain ⟨b, hb, rfl⟩ := List.mem_map.1 hq
  have h1 := (Region.has_iff _ _).1 (rawfillStores_addr hb)
  have h2 := (rawfillError_none h).2
  show b.addr < _
  omega

theorem headroom_gray {t : Texel} (h : t &&& headroomMask = t) :
    grayTexel t &&& headroomMask = grayTexel t := by
  rw [headroom_iff] at h
  have := h 0 (by decide); have := h 1 (by decide); have := h 2 (by decide)
  exact headroom_mk (by omega) (by omega) (by omega) (h 3 (by decide))

theorem headroom_inv {t : Texel} (h : t &&& headroomMask = t) :
    invTexel t &&& headroomMask = invTexel t := by
  rw [headroom_iff] at h
  exact headroom_mk (by omega) (by omega) (by omega) (h 3 (by decide))

theorem headroom_op {op : Nat → Nat → Nat}
    (hop : ∀ a b, a ≤ 0x7FFF → b ≤ 0x7FFF → op a b ≤ 0x7FFF) {t c : Texel}
    (ht : t &&& headroomMask = t) (hc : c &&& headroomMask = c) :
    zipLanes op t c &&& headroomMask = zipLanes op t c := by
  rw [headroom_iff] at ht hc
  exact headroom_zipLanes _ _ _ (fun l hl => hop _ _ (ht l hl) (hc l hl))

theorem work_colorize {s : State} {d : Slot} {f : Texel → Texel} (h : colorizeError s d = none)
    (hf : ∀ t, t &&& headroomMask = t → f t &&& headroomMask = f t) :
    Work s (editInPlace s d f) :=
  work_editInPlace (emptyFails_single h).1 hf

/-- Everything a command can do: an error completion, or work and a successful completion. -/
theorem exec_work {i : Instr} {s t : State} (h : exec i s = .next t) :
    (∃ c, t = s.complete (some c)) ∨ ∃ w, Work s w ∧ t = w.complete none := by
  have hadd : ∀ a b, a ≤ 0x7FFF → b ≤ 0x7FFF → ladd a b ≤ 0x7FFF := fun a b _ _ => ladd_le a b
  have hsub : ∀ a b, a ≤ 0x7FFF → b ≤ 0x7FFF → lsub a b ≤ 0x7FFF := fun a b _ _ => lsub_le a b
  have hmul : ∀ a b, a ≤ 0x7FFF → b ≤ 0x7FFF → lmul a b ≤ 0x7FFF := fun a b => lmul_le
  have hC : colorOf s &&& headroomMask = colorOf s := headroom_pack32 _
  have key : ∀ {e : Option ErrCode} {work : State}, runCommand s e work = .next t →
      (e = none → Work s work) →
      (∃ c, t = s.complete (some c)) ∨ ∃ w, Work s w ∧ t = w.complete none := by
    intro e work h hw
    rcases runCommand_work h hw with ⟨c, -, ht⟩ | ⟨-, hw⟩
    · exact .inl ⟨c, ht⟩
    · exact .inr hw
  cases i with
  | nop => exact key (e := none) (work := s) h (fun _ => Work.same)
  | synth d mode =>
    refine key h (fun he => ?_)
    obtain ⟨hw, hh, hf⟩ := synthError_none he
    have h1 := widthOf_toNat hw
    have h2 := heightOf_toNat hh
    exact Work.make d _ _ _ (by omega) (by omega) hf (fun _ => by omega)
      (fun _ _ _ => headroom_synthTexel _ _ _ _)
  | normal d src z3d tan sharp =>
    refine key h (fun he => ?_)
    obtain ⟨hv, hf, -⟩ := normalError_none he
    exact Work.make d _ _ _ (BitVec.isLt _) (BitVec.isLt _) hf
      (fun hd => ⟨(desc_size hd hv).1, (desc_size hd hv).2.1⟩)
      (fun _ _ _ => headroom_normalTexel _ _ _ _ _ _ _)
  | grad d mode =>
    refine key h (fun he => ?_)
    obtain ⟨hw, hh, hf⟩ := synthError_none he
    have h1 := widthOf_toNat hw
    have h2 := heightOf_toNat hh
    exact Work.make d _ _ _ (by omega) (by omega) hf (fun _ => by omega)
      (fun _ _ _ => headroom_gradTexel _ _ _ _)
  | glow d wrapx wrapy curve rect =>
    refine key h (fun he => ?_)
    have hv := (emptyFails_single he).1
    obtain ⟨l, hl, hin, hroom⟩ := glowPasses_eq s (s.snap.desc.at d) curve rect
      (glowPasses wrapx wrapy (s.snap.desc.at d).w.toNat (s.snap.desc.at d).h.toNat) s.tmem
    rw [hl]
    refine Work.edit d l hv hin (fun hs => hroom (fun a ha => ?_))
    have ha := (Region.has_iff _ _).1 ha
    have := hs d (a - (s.snap.desc.at d).base.toNat) hv (by simp [Desc.region] at ha; omega)
    rwa [Nat.add_sub_cancel' (by simp [Desc.region] at ha; omega)] at this
  | mergeAdd d n => exact key h (work_merge ladd hadd)
  | mergeSub d n => exact key h (work_merge lsub hsub)
  | mergeMul d n => exact key h (work_merge lmul hmul)
  | mergeAdd3 d n => exact key h (work_merge ladd hadd)
  | colorizeMul d => exact key h (fun he => work_colorize he (fun t ht => headroom_op hmul ht hC))
  | colorizeAdd d => exact key h (fun he => work_colorize he (fun t ht => headroom_op hadd ht hC))
  | colorizeSub d => exact key h (fun he => work_colorize he (fun t ht => headroom_op hsub ht hC))
  | colorizeGray d => exact key h (fun he => work_colorize he (fun t ht => headroom_gray ht))
  | colorizeInv d => exact key h (fun he => work_colorize he (fun t ht => headroom_inv ht))
  | colorizeNop5 d => exact key h (fun _ => Work.same)
  | colorizeNop6 d => exact key h (fun _ => Work.same)
  | colorizeNop7 d => exact key h (fun _ => Work.same)
  | copy d src =>
    refine key h (fun he => ?_)
    obtain ⟨hv, hf⟩ := copyError_none he
    refine Work.make d _ _ _ (BitVec.isLt _) (BitVec.isLt _) hf
      (fun hd => ⟨(desc_size hd hv).1, (desc_size hd hv).2.1⟩) (fun hs p hp => ?_)
    rw [Nat.div_add_mod']
    exact hs _ _ hv hp
  | release d => exact key (e := none) h (fun _ => Work.free d)
  | importG d =>
    exact key h (work_import expandG (fun s a => headroom_mk (pack8_le _) (pack8_le _) (pack8_le _)
      (by decide)))
  | importRgb d =>
    exact key h (work_import expandRgb (fun s a => headroom_mk (pack8_le _) (pack8_le _)
      (pack8_le _) (by decide)))
  | importRgba d =>
    exact key h (work_import expandRgba (fun s a => headroom_mk (pack8_le _) (pack8_le _)
      (pack8_le _) (pack8_le _)))
  | illegalImport3 => exact key (e := some .illegalOp) (work := s) h (fun he => by simp at he)
  | exportBuf src => exact key h work_export
  | rawfill src => exact key h work_rawfill
  | illegal op => exact key (e := some .illegalOp) (work := s) h (fun he => by simp at he)

end Sys2Proof.Machine
end

