-- ==== Sys2Proof/Laws/Step.lean ====
section
/-! SUPPORT. What a step can do, said once: it is a run of moves, each the end of the build, the run of
a command, one access of the host, or a reset. -/

namespace Sys2Proof.Machine

/-! ### The window on the system bus -/

@[simp] theorem HostOp.atPort_read (b : Nat) (off : BitVec 12) (z : AccessSize) :
    (HostOp.read off z).atPort b = .read off z := rfl
@[simp] theorem HostOp.atPort_write (b : Nat) (off : BitVec 12) (z : AccessSize) (v : Word) :
    (HostOp.write off z v).atPort b = .write off z v := rfl
@[simp] theorem HostOp.atPort_hmemRead (b a : Nat) : (HostOp.hmemRead a).atPort b = .hmemRead a := rfl
@[simp] theorem HostOp.atPort_hmemWrite (b a : Nat) (v : Byte) :
    (HostOp.hmemWrite a v).atPort b = .hmemWrite a v := rfl
@[simp] theorem HostOp.atPort_dmaBusError (b : Nat) : HostOp.dmaBusError.atPort b = .dmaBusError := rfl

/-- A bus address at an offset from the base is that offset of the window. -/
@[simp] theorem HostOp.atPort_busRead (b : Nat) (off : BitVec 12) (z : AccessSize) :
    (HostOp.busRead (b + off.toNat) z).atPort b = .read off z := by
  have := off.isLt
  simp only [HostOp.atPort]
  rw [if_pos (by omega), Nat.add_sub_cancel_left, BitVec.ofNat_toNat, BitVec.setWidth_eq]

@[simp] theorem HostOp.atPort_busWrite (b : Nat) (off : BitVec 12) (z : AccessSize) (v : Word) :
    (HostOp.busWrite (b + off.toNat) z v).atPort b = .write off z v := by
  have := off.isLt
  simp only [HostOp.atPort]
  rw [if_pos (by omega), Nat.add_sub_cancel_left, BitVec.ofNat_toNat, BitVec.setWidth_eq]

/-- A bus address outside the 4 KiB is no access of the window. -/
theorem HostOp.atPort_busRead_outside {b a : Nat} (z : AccessSize) (h : a < b ∨ b + 4096 ≤ a) :
    (HostOp.busRead a z).atPort b = .busRead a z := by
  simp only [HostOp.atPort]
  rw [if_neg (by omega)]

theorem HostOp.atPort_busWrite_outside {b a : Nat} (z : AccessSize) (v : Word)
    (h : a < b ∨ b + 4096 ≤ a) : (HostOp.busWrite a z v).atPort b = .busWrite a z v := by
  simp only [HostOp.atPort]
  rw [if_neg (by omega)]

@[simp] theorem HostCycle.atPort_accesses (b : Nat) (ops : List HostOp) :
    (HostCycle.accesses ops).atPort b = .accesses (ops.map (HostOp.atPort b)) := rfl
@[simp] theorem HostCycle.atPort_rstN (b : Nat) (ops : List HostOp) :
    (HostCycle.rstN ops).atPort b = .rstN (ops.map (HostOp.atPort b)) := rfl

/-! ### Moves -/

/-- One thing that can happen in a step. -/
inductive Move : State → State → Prop where
  /-- the inputs, the answers to the host and the counter of draws move on -/
  | input (s : State) (q : List HostCycle) (st : List Bool) (r : List Word) (n : Nat) :
      Move s { s with hostq := q, stalls := st, hostReads := r, draws := n }
  /-- the lattice build ends -/
  | build (s : State) (h : s.status.latticeReady = false) : Move s s.finishBuild
  /-- the running command completes -/
  | run (s t : State) (hr : s.status.latticeReady = true) (hb : s.status.busy = true)
      (h : exec s.running s = .next t) : Move s (applyRaces s.running s t)
  /-- the host writes a register that only it writes, or reads one with a latch -/
  | regs (s : State) (irqEn : Bool) (taddr : Word) (rd wr : BitVec 64) (par : ParamRegs) :
      Move s { s with irqEn := irqEn, taddr := taddr, rdlatch := rd, wrlatch := wr, par := par }
  /-- the host writes STATUS -/
  | ack (s : State) (m : StepMarks) (v : Word) : Move s { s with status := s.status.ack m v }
  /-- a CMD write is dropped -/
  | overrun (s : State) (hb : s.status.busy = true) :
      Move s { s with status := { s.status with overrun := true } }
  /-- a CMD write is accepted -/
  | accept (s : State) (c : Word) (hb : s.status.busy = false) : Move s (s.accept c)
  /-- the host moves an empty slot -/
  | base (s : State) (n : Slot) (v : Word) (hv : (s.desc.at n).valid = false) :
      Move s { s with desc := s.desc.put n { (s.desc.at n) with base := v } }
  /-- the host stores a texel -/
  | texel (s : State) (a : Nat) (t : Texel) (ha : a < s.params.tmemTexels)
      (ht : t &&& headroomMask = t) (hf : s.texelInFlight a = false) :
      Move s { s with tmem := s.tmem.write a t }
  /-- the host races on a texel -/
  | raceTexel (s : State) (a : Nat) (ha : a < s.params.tmemTexels) (hf : s.texelInFlight a = true) :
      Move s { s with racedTexels := a :: s.racedTexels }
  /-- the host stores a byte -/
  | byte (s : State) (a : Nat) (v : Byte) (ha : a < s.params.hmemSize)
      (hf : s.byteInFlight a = false) : Move s { s with hmem := s.hmem.write a v }
  /-- the host races on a byte -/
  | raceByte (s : State) (a : Nat) (ha : a < s.params.hmemSize) (hf : s.byteInFlight a = true) :
      Move s { s with racedBytes := a :: s.racedBytes }
  /-- a soft reset -/
  | soft (s : State) : Move s s.softReset
  /-- a power-on reset -/
  | power (s : State) : Move s s.powerOn

/-- A run of moves. -/
abbrev Moves : State → State → Prop := Relation.ReflTransGen Move

theorem Moves.one {s t : State} (h : Move s t) : Moves s t := Relation.ReflTransGen.single h

theorem answer_moves (s : State) (v : Word) : Moves s (s.answer v) :=
  Moves.one (Move.input s s.hostq s.stalls (s.hostReads ++ [v]) s.draws)

theorem readReg_moves (s : State) (r : Reg) : Moves s (readReg s r).2 := by
  cases r with
  | tdataLo =>
    exact (Moves.one (Move.regs s s.irqEn s.taddr (hostTexel s s.taddr.toNat).1 s.wrlatch s.par)).trans
      (Moves.one (Move.input _ s.hostq s.stalls s.hostReads (hostTexel s s.taddr.toNat).2))
  | tdataHi => exact Moves.one (Move.regs s s.irqEn (s.taddr + 1) s.rdlatch s.wrlatch s.par)
  | _ => exact Relation.ReflTransGen.refl

theorem hostStoreTexel_moves (s : State) (a : Nat) (t : Texel) (ht : t &&& headroomMask = t) :
    Moves s (hostStoreTexel s a t) := by
  unfold hostStoreTexel
  split
  · exact Relation.ReflTransGen.refl
  · split
    · exact Moves.one (Move.raceTexel s a (by omega) ‹_›)
    · exact Moves.one (Move.texel s a t (by omega) ht (Bool.eq_false_iff.2 ‹_›))

theorem writeReg_moves (rst : Bool) (m : StepMarks) (s : State) (r : Reg) (v : Word) :
    Moves s (writeReg rst m s r v).1 := by
  cases r with
  | ctrl =>
    unfold writeReg
    simp only
    split
    · exact Moves.one (Move.soft s)
    · exact Moves.one (Move.regs s (v.getLsbD 0) s.taddr s.rdlatch s.wrlatch s.par)
  | status => exact Moves.one (Move.ack s m v)
  | cmd =>
    unfold writeReg writeCmd
    simp only
    split
    · exact Relation.ReflTransGen.refl
    · split
      · exact Moves.one (Move.overrun s ‹_›)
      · exact Moves.one (Move.accept s v (Bool.eq_false_iff.2 ‹_›))
  | taddr => exact Moves.one (Move.regs s s.irqEn v s.rdlatch s.wrlatch s.par)
  | tdataLo => exact Moves.one (Move.regs s s.irqEn s.taddr s.rdlatch _ s.par)
  | tdataHi =>
    refine (hostStoreTexel_moves s s.taddr.toNat _ (headroom_masked (v ++ s.wrlatch.extractLsb' 0 32 : BitVec 64))).trans ?_
    exact Moves.one (Move.regs _ _ (s.taddr + 1) _ _ _)
  | param p => exact Moves.one (Move.regs s s.irqEn s.taddr s.rdlatch s.wrlatch (s.par.put p v))
  | descBase n =>
    unfold writeReg
    simp only
    split
    · exact Relation.ReflTransGen.refl
    · exact Moves.one (Move.base s n v (Bool.eq_false_iff.2 ‹_›))
  | _ => exact Relation.ReflTransGen.refl

theorem windowRead_moves (s : State) (off : BitVec 12) (z : AccessSize) :
    Moves s (windowRead s off z) := by
  unfold windowRead
  split
  · exact (readReg_moves s _).trans (answer_moves _ _)
  · exact answer_moves _ _

theorem windowWrite_moves (rst : Bool) (m : StepMarks) (s : State) (off : BitVec 12) (z : AccessSize)
    (v : Word) : Moves s (windowWrite rst m s off z v).1 := by
  unfold windowWrite
  split
  · exact writeReg_moves _ _ _ _ _
  · exact Relation.ReflTransGen.refl

theorem hostHmemRead_moves {s t : State} {a : Nat} (h : hostHmemRead s a = .next t) : Moves s t := by
  unfold hostHmemRead at h
  split at h
  · cases h
  · split at h
    · cases h
      exact (Moves.one (Move.input s s.hostq s.stalls s.hostReads (s.draws + 1))).trans
        (answer_moves _ _)
    · cases h; exact answer_moves _ _

theorem hostHmemWrite_moves {s t : State} {a : Nat} {v : Byte} (h : hostHmemWrite s a v = .next t) :
    Moves s t := by
  unfold hostHmemWrite at h
  split at h
  · cases h
  · split at h
    · cases h; exact Moves.one (Move.raceByte s a (by omega) ‹_›)
    · cases h; exact Moves.one (Move.byte s a v (by omega) (Bool.eq_false_iff.2 ‹_›))

theorem runOp_moves {rst : Bool} {m : StepMarks} {s : State} {op : HostOp} {p : State × StepMarks}
    (h : runOp rst m s op = .next p) : Moves s p.1 := by
  cases op with
  | read off z => cases h; exact windowRead_moves _ _ _
  | write off z v => cases h; exact windowWrite_moves _ _ _ _ _ _
  | busRead a z => cases h; exact Relation.ReflTransGen.refl
  | busWrite a z v => cases h; exact Relation.ReflTransGen.refl
  | hmemRead a =>
    simp only [runOp] at h
    cases hr : hostHmemRead s a with
    | next u => rw [hr] at h; cases h; exact hostHmemRead_moves hr
    | fault f => rw [hr] at h; cases h
    | refused r => rw [hr] at h; cases h
  | hmemWrite a v =>
    simp only [runOp] at h
    cases hr : hostHmemWrite s a v with
    | next u => rw [hr] at h; cases h; exact hostHmemWrite_moves hr
    | fault f => rw [hr] at h; cases h
    | refused r => rw [hr] at h; cases h
  | dmaBusError =>
    unfold runOp at h
    simp only at h
    split at h
    · cases h
    · cases h; exact Relation.ReflTransGen.refl

theorem runOps_moves {rst : Bool} {ops : List HostOp} {m : StepMarks} {s t : State}
    (h : runOps rst ops m s = .next t) : Moves s t := by
  induction ops generalizing m s with
  | nil => cases h; exact Relation.ReflTransGen.refl
  | cons op ops ih =>
    unfold runOps at h
    split at h <;> first | cases h | skip
    exact (runOp_moves ‹_›).trans (ih h)

theorem runOpsInReset_moves {ops : List HostOp} {s t : State} (h : runOpsInReset ops s = .next t) :
    Moves s t := by
  induction ops generalizing s with
  | nil => cases h; exact Relation.ReflTransGen.refl
  | cons op ops ih =>
    cases op with
    | read off z => exact (answer_moves _ _).trans (ih h)
    | write off z v => exact ih h
    | busRead a z => exact ih h
    | busWrite a z v => exact ih h
    | dmaBusError => exact ih h
    | hmemRead a =>
      unfold runOpsInReset at h
      split at h <;> first | cases h | skip
      exact (hostHmemRead_moves ‹_›).trans (ih h)
    | hmemWrite a v =>
      unfold runOpsInReset at h
      split at h <;> first | cases h | skip
      exact (hostHmemWrite_moves ‹_›).trans (ih h)

theorem popInput_moves (s : State) : Moves s s.popInput :=
  Moves.one (Move.input s s.hostq.tail s.stalls.tail [] s.draws)

theorem hostTick_moves {rst : Bool} {c : HostCycle} {m : StepMarks} {s t : State}
    (h : hostTick rst c m s = .next t) : Moves s t := by
  cases c with
  | accesses ops => exact runOps_moves h
  | waitIdle =>
    unfold hostTick at h
    simp only at h
    cases h
    refine (answer_moves s s.status.word).trans ?_
    split
    · exact Moves.one (Move.input _ _ s.stalls _ s.draws)
    · exact Relation.ReflTransGen.refl
  | waitIrq =>
    unfold hostTick at h
    simp only at h
    cases h
    split
    · exact Relation.ReflTransGen.refl
    · exact Moves.one (Move.input _ _ s.stalls s.hostReads s.draws)
  | rstN ops => exact (Moves.one (Move.power s)).trans (runOpsInReset_moves h)

/-- Every command ends in a next state. -/
theorem exec_next (i : Instr) (s : State) : ∃ t, exec i s = .next t := by
  cases i with
  | nop => exact runCommand_next s none s
  | release d => exact runCommand_next s none _
  | illegalImport3 => exact runCommand_next s (some .illegalOp) s
  | illegal op => exact runCommand_next s (some .illegalOp) s
  | _ => exact runCommand_next _ _ _

theorem engineTick_moves {stalled : Bool} {s : State} {p : State × StepMarks}
    (h : engineTick stalled s = .next p) : Moves s p.1 := by
  unfold engineTick at h
  split at h
  · cases h; exact Relation.ReflTransGen.refl
  · split at h
    · cases h; exact Moves.one (Move.build s (by simpa using ‹(!s.status.latticeReady) = true›))
    · split at h
      · obtain ⟨t, ht⟩ := exec_next s.running s
        simp only [runToCompletion, ht] at h
        cases h
        exact Moves.one (Move.run s t (by simpa using ‹¬(!s.status.latticeReady) = true›) ‹_› ht)
      · cases h; exact Relation.ReflTransGen.refl

/-- Everything a step can do. -/
theorem step_moves {s t : State} (h : step s = .next t) : Moves s t := by
  unfold step machineStep at h
  split at h
  · exact (popInput_moves s).trans (hostTick_moves h)
  · split at h <;> first | cases h | skip
    exact (popInput_moves s).trans ((engineTick_moves ‹_›).trans (hostTick_moves h))

/-- What every move keeps, every step keeps. -/
theorem step_keeps {P : State → Prop} (hP : ∀ s t, Move s t → P s → P t) {s t : State}
    (h : step s = .next t) (hs : P s) : P t := by
  have hm := step_moves h
  clear h
  induction hm with
  | refl => exact hs
  | tail _ hm ih => exact hP _ _ hm ih

end Sys2Proof.Machine
end

