-- ==== Sys2Proof/Laws/Hazard.lean ====
section
/-! SUPPORT. Where a command's footprint lies, and what races and an abandoned command leave. -/

namespace Sys2Proof.Machine

/-! ### Footprints -/

@[simp] theorem Footprint.none_writes : Footprint.none.writes = [] := rfl
@[simp] theorem Footprint.none_hmemWrites : Footprint.none.hmemWrites = [] := rfl
@[simp] theorem Footprint.none_hmem : Footprint.none.hmem = [] := rfl
@[simp] theorem Footprint.none_reads : Footprint.none.reads = [] := rfl

theorem mem_unless_writes {fp : Footprint} {e : Option ErrCode} {r : Region}
    (h : r ∈ (fp.unless e).writes) : e = none ∧ r ∈ fp.writes := by
  cases e <;> simp_all [Footprint.unless]

theorem mem_unless_hmemWrites {fp : Footprint} {e : Option ErrCode} {r : Region}
    (h : r ∈ (fp.unless e).hmemWrites) : e = none ∧ r ∈ fp.hmemWrites := by
  cases e <;> simp_all [Footprint.unless]

/-- The output of a command lies in TMEM (R91). -/
theorem footprint_writes_fit {i : Instr} {s : State} (hd : s.DescsOk) {r : Region}
    (h : r ∈ (footprint i s).writes) : r.base + r.count ≤ s.params.tmemTexels := by
  have hvalid : ∀ d : Slot, colorizeError s d = none →
      (s.snap.desc.at d).region.base + (s.snap.desc.at d).region.count ≤ s.params.tmemTexels :=
    fun d he => (desc_size hd (emptyFails_single he).1).2.2
  cases i with
  | nop => simp [footprint] at h
  | release d => simp [footprint] at h
  | illegalImport3 => simp [footprint] at h
  | illegal op => simp [footprint] at h
  | synth d mode =>
    obtain ⟨he, hr⟩ := mem_unless_writes h
    simp at hr; subst hr; exact (synthError_none he).2.2
  | grad d mode =>
    obtain ⟨he, hr⟩ := mem_unless_writes h
    simp at hr; subst hr; exact (synthError_none he).2.2
  | normal d src z3d tan sharp =>
    obtain ⟨he, hr⟩ := mem_unless_writes h
    simp at hr; subst hr; exact (normalError_none he).2.1
  | copy d src =>
    obtain ⟨he, hr⟩ := mem_unless_writes h
    simp at hr; subst hr; exact (copyError_none he).2
  | glow d wrapx wrapy curve rect =>
    obtain ⟨he, hr⟩ := mem_unless_writes h
    simp at hr; subst hr; exact hvalid d he
  | mergeAdd d n =>
    obtain ⟨he, hr⟩ := mem_unless_writes h
    simp at hr; subst hr; exact (mergeError_none he).2
  | mergeSub d n =>
    obtain ⟨he, hr⟩ := mem_unless_writes h
    simp at hr; subst hr; exact (mergeError_none he).2
  | mergeMul d n =>
    obtain ⟨he, hr⟩ := mem_unless_writes h
    simp at hr; subst hr; exact (mergeError_none he).2
  | mergeAdd3 d n =>
    obtain ⟨he, hr⟩ := mem_unless_writes h
    simp at hr; subst hr; exact (mergeError_none he).2
  | importG d =>
    obtain ⟨he, hr⟩ := mem_unless_writes h
    simp at hr; subst hr; exact (importError_none he).2.2.1
  | importRgb d =>
    obtain ⟨he, hr⟩ := mem_unless_writes h
    simp at hr; subst hr; exact (importError_none he).2.2.1
  | importRgba d =>
    obtain ⟨he, hr⟩ := mem_unless_writes h
    simp at hr; subst hr; exact (importError_none he).2.2.1
  | exportBuf src => obtain ⟨he, hr⟩ := mem_unless_writes h; simp at hr
  | rawfill src => obtain ⟨he, hr⟩ := mem_unless_writes h; simp at hr
  | _ d =>
    obtain ⟨he, hr⟩ := mem_unless_writes h
    simp at hr; subst hr; exact hvalid d he

/-- The bytes a transfer writes lie in HMEM (R93, R361). -/
theorem footprint_hmemWrites_fit {i : Instr} {s : State} (hd : s.DescsOk) {r : Region}
    (h : r ∈ (footprint i s).hmemWrites) : r.base + r.count ≤ s.params.hmemSize := by
  cases i with
  | exportBuf src =>
    obtain ⟨he, hr⟩ := mem_unless_hmemWrites h
    simp at hr; subst hr
    obtain ⟨hv, hl⟩ := exportError_none he
    have := desc_size hd hv
    have hc : 0 < (s.snap.desc.at src).count := Nat.mul_pos this.1 this.2.1
    simp only [exportRange]; omega
  | rawfill src =>
    obtain ⟨he, hr⟩ := mem_unless_hmemWrites h
    simp at hr; subst hr
    obtain ⟨hv, hl⟩ := rawfillError_none he
    have := desc_size hd hv
    simp only [rawfillRange] at *; omega
  | _ =>
    first
      | (obtain ⟨he, hr⟩ := mem_unless_hmemWrites h; simp [Footprint.none] at hr)
      | simp [footprint] at h

/-- The stores of a transfer lie in the range of its transfer. -/
theorem byteStores_inside {i : Instr} {s : State} {b : ByteStore} (h : b ∈ byteStores i s) :
    ∃ r ∈ (footprint i s).hmemWrites, r.has b.addr = true := by
  cases i with
  | exportBuf src =>
    simp only [byteStores] at h
    split at h
    · cases h
    · next he =>
      refine ⟨exportRange s (s.snap.desc.at src), ?_, ?_⟩
      · simp [footprint, Footprint.unless, he]
      · have := exportStores_addr h
        rw [Region.has_iff]; simp only [exportRange]; omega
  | rawfill src =>
    simp only [byteStores] at h
    split at h
    · cases h
    · next he =>
      refine ⟨rawfillRange s (s.snap.desc.at src), ?_, rawfillStores_addr h⟩
      simp [footprint, Footprint.unless, he]
  | _ => simp [byteStores] at h

/-! ### Races -/

theorem mem_dependentTexels {i : Instr} {s : State} {r : Region} {a : Nat}
    (h : a ∈ dependentTexels i s r) : r.has a = true := by
  obtain ⟨p, hp, rfl⟩ := List.mem_map.1 h
  have := List.mem_range.1 (List.mem_filter.1 hp).1
  rw [Region.has_iff]; omega

/-- A tainted texel is one the host wrote or one in the output region. -/
theorem mem_taintedTexels {i : Instr} {s : State} {a : Nat} (h : a ∈ taintedTexels i s) :
    a ∈ s.racedTexels ∨ ∃ r ∈ (footprint i s).writes, r.has a = true := by
  rcases List.mem_append.1 h with h | h
  · exact .inl h
  · obtain ⟨r, hr, ha⟩ := List.mem_flatMap.1 h
    exact .inr ⟨r, hr, mem_dependentTexels ha⟩

/-- Where the host has raced on nothing, a command ends as its rule says. -/
theorem applyRaces_noRace {i : Instr} {s t : State} (h : s.NoRace) : applyRaces i s t = t := by
  simp [applyRaces, h.1, h.2]

/-- What a race changes: texels and bytes, the record of races and the counter of draws. -/
theorem applyRaces_eq (i : Instr) (s t : State) : applyRaces i s t = t ∨
    applyRaces i s t = { t with
      tmem := t.tmem.writeAll ((taintedTexels i s).map (fun a => (a, freeStored (s.draws + 1) a)))
      hmem := Memory.writeAll (t.hmem.writeAll (taintedStores i s))
        (s.racedBytes.map (fun a => (a, Config.freeByte (s.draws + 1) a)))
      racedTexels := []
      racedBytes := []
      draws := s.draws + 2 } := by
  unfold applyRaces
  split
  · exact .inl rfl
  · exact .inr rfl

theorem mem_taintedStores {i : Instr} {s : State} {q : Nat × Byte} (h : q ∈ taintedStores i s) :
    ∃ b ∈ byteStores i s, q.1 = b.addr := by
  obtain ⟨b, hb, rfl⟩ := List.mem_map.1 h
  exact ⟨b, hb, rfl⟩

/-! ### Abandoned commands -/

theorem headroom_freeStored (n a : Nat) : freeStored n a &&& headroomMask = freeStored n a :=
  headroom_masked _

theorem headroom_abandonedTexel (i : Instr) (s : State) (a : Nat) :
    abandonedTexel i s a &&& headroomMask = abandonedTexel i s a := by
  unfold abandonedTexel
  simp only
  split
  · exact headroom_freeStored _ _
  · exact headroom_masked _

end Sys2Proof.Machine
end

