-- ==== Sys2Proof/Laws/PerInstr.lean ====
section
/-! SUPPORT. The opcode table, row by row: the word of a command agrees with its row's mask and match
(spec/opcode_table.json, R124, R125). -/

namespace Sys2Proof.Laws.TableRow

/-- Mask and match of the row of a command in spec/opcode_table.json. -/
def row : Instr → Word × Word
  | .nop => (0x0000000F, 0x00000000)
  | .synth _ _ => (0x0000000F, 0x00000001)
  | .normal _ _ _ _ _ => (0x0000000F, 0x00000002)
  | .grad _ _ => (0x0000000F, 0x00000003)
  | .glow _ _ _ _ _ => (0x0000000F, 0x00000004)
  | .mergeAdd _ _ => (0x0003000F, 0x00000005)
  | .mergeSub _ _ => (0x0003000F, 0x00010005)
  | .mergeMul _ _ => (0x0003000F, 0x00020005)
  | .mergeAdd3 _ _ => (0x0003000F, 0x00030005)
  | .colorizeMul _ => (0x0007000F, 0x00000006)
  | .colorizeAdd _ => (0x0007000F, 0x00010006)
  | .colorizeSub _ => (0x0007000F, 0x00020006)
  | .colorizeGray _ => (0x0007000F, 0x00030006)
  | .colorizeInv _ => (0x0007000F, 0x00040006)
  | .colorizeNop5 _ => (0x0007000F, 0x00050006)
  | .colorizeNop6 _ => (0x0007000F, 0x00060006)
  | .colorizeNop7 _ => (0x0007000F, 0x00070006)
  | .copy _ _ => (0x0000000F, 0x00000007)
  | .release _ => (0x0000000F, 0x00000008)
  | .importG _ => (0x0003000F, 0x00000009)
  | .importRgb _ => (0x0003000F, 0x00010009)
  | .importRgba _ => (0x0003000F, 0x00020009)
  | .illegalImport3 => (0x0003000F, 0x00030009)
  | .exportBuf _ => (0x0000000F, 0x0000000A)
  | .rawfill _ => (0x0000000F, 0x0000000B)
  | .illegal _ => (0x0000000C, 0x0000000C)

/-- The word of a well-formed command lies in its row of the opcode table. -/
def Statement (i : Instr) : Prop := i.WellFormed = true → encode i &&& (row i).1 = (row i).2

/-- What is left of a command word under a mask of OP and of some bits of FN. -/
theorem cmdWord_masked (op o : BitVec 4) (d s : Slot) (cnt : BitVec 3) (fn m : BitVec 8) :
    cmdWord op d s cnt fn &&& (0#8 ++ m ++ 0#1 ++ 0#3 ++ 0#4 ++ 0#4 ++ o) =
      0#8 ++ (fn &&& m) ++ 0#1 ++ 0#3 ++ 0#4 ++ 0#4 ++ (op &&& o) := by
  apply BitVec.eq_of_getLsbD_eq
  intro i _
  simp only [cmdWord, BitVec.getLsbD_and, BitVec.getLsbD_append]
  repeat' split
  all_goals simp

/-- A row that fixes OP and the FN bits of `m`. -/
theorem of_fields {op o : BitVec 4} {d s : Slot} {cnt : BitVec 3} {fn m : BitVec 8} {mask val : Word}
    (hm : mask = 0#8 ++ m ++ 0#1 ++ 0#3 ++ 0#4 ++ 0#4 ++ o)
    (hv : val = 0#8 ++ (fn &&& m) ++ 0#1 ++ 0#3 ++ 0#4 ++ 0#4 ++ (op &&& o)) :
    cmdWord op d s cnt fn &&& mask = val := by
  rw [hm, hv, cmdWord_masked]

theorem nop : Statement .nop := fun _ => of_fields (m := 0) (o := 0xF) rfl rfl

theorem synth (d : Slot) (mode : BitVec 2) : Statement (.synth d mode) :=
  fun _ => of_fields (m := 0) (o := 0xF) rfl (by simp [row])

theorem normal (d s : Slot) (z3d tan sharp : Bool) : Statement (.normal d s z3d tan sharp) :=
  fun _ => of_fields (m := 0) (o := 0xF) rfl (by simp [row])

theorem grad (d : Slot) (mode : BitVec 2) : Statement (.grad d mode) :=
  fun _ => of_fields (m := 0) (o := 0xF) rfl (by simp [row])

theorem glow (d : Slot) (wrapx wrapy curve rect : Bool) : Statement (.glow d wrapx wrapy curve rect) :=
  fun _ => of_fields (m := 0) (o := 0xF) rfl (by simp [row])

theorem mergeAdd (d : Slot) (n : Nat) : Statement (.mergeAdd d n) :=
  fun _ => of_fields (m := 3) (o := 0xF) rfl rfl

theorem mergeSub (d : Slot) (n : Nat) : Statement (.mergeSub d n) :=
  fun _ => of_fields (m := 3) (o := 0xF) rfl rfl

theorem mergeMul (d : Slot) (n : Nat) : Statement (.mergeMul d n) :=
  fun _ => of_fields (m := 3) (o := 0xF) rfl rfl

theorem mergeAdd3 (d : Slot) (n : Nat) : Statement (.mergeAdd3 d n) :=
  fun _ => of_fields (m := 3) (o := 0xF) rfl rfl

theorem colorizeMul (d : Slot) : Statement (.colorizeMul d) :=
  fun _ => of_fields (m := 7) (o := 0xF) rfl rfl

theorem colorizeAdd (d : Slot) : Statement (.colorizeAdd d) :=
  fun _ => of_fields (m := 7) (o := 0xF) rfl rfl

theorem colorizeSub (d : Slot) : Statement (.colorizeSub d) :=
  fun _ => of_fields (m := 7) (o := 0xF) rfl rfl

theorem colorizeGray (d : Slot) : Statement (.colorizeGray d) :=
  fun _ => of_fields (m := 7) (o := 0xF) rfl rfl

theorem colorizeInv (d : Slot) : Statement (.colorizeInv d) :=
  fun _ => of_fields (m := 7) (o := 0xF) rfl rfl

theorem colorizeNop5 (d : Slot) : Statement (.colorizeNop5 d) :=
  fun _ => of_fields (m := 7) (o := 0xF) rfl rfl

theorem colorizeNop6 (d : Slot) : Statement (.colorizeNop6 d) :=
  fun _ => of_fields (m := 7) (o := 0xF) rfl rfl

theorem colorizeNop7 (d : Slot) : Statement (.colorizeNop7 d) :=
  fun _ => of_fields (m := 7) (o := 0xF) rfl rfl

theorem copy (d s : Slot) : Statement (.copy d s) :=
  fun _ => of_fields (m := 0) (o := 0xF) rfl rfl

theorem release (d : Slot) : Statement (.release d) :=
  fun _ => of_fields (m := 0) (o := 0xF) rfl rfl

theorem importG (d : Slot) : Statement (.importG d) :=
  fun _ => of_fields (m := 3) (o := 0xF) rfl rfl

theorem importRgb (d : Slot) : Statement (.importRgb d) :=
  fun _ => of_fields (m := 3) (o := 0xF) rfl rfl

theorem importRgba (d : Slot) : Statement (.importRgba d) :=
  fun _ => of_fields (m := 3) (o := 0xF) rfl rfl

theorem illegalImport3 : Statement .illegalImport3 :=
  fun _ => of_fields (m := 3) (o := 0xF) rfl rfl

theorem exportBuf (s : Slot) : Statement (.exportBuf s) :=
  fun _ => of_fields (m := 0) (o := 0xF) rfl rfl

theorem rawfill (s : Slot) : Statement (.rawfill s) :=
  fun _ => of_fields (m := 0) (o := 0xF) rfl rfl

theorem illegal (op : BitVec 4) : Statement (.illegal op) := by
  intro h
  have hv : ∀ o : BitVec 4, illegalOpOk o = true → o &&& 0xC#4 = 0xC#4 := by decide
  exact of_fields (m := 0) (o := 0xC#4) rfl (by rw [hv op h]; rfl)

end Sys2Proof.Laws.TableRow
end

