-- ==== Sys2Proof/Tests/Slice0.lean ====
section
/-! SUPPORT. Tests of the model against the spec's own vectors, and a witness for the hypotheses of each
statement that has any. -/

namespace Sys2Proof.Tests

open Sys2Proof Sys2Proof.Machine

-- One theorem after the other: each task of its own would take a stack of its own.
set_option Elab.async false

/-! ### Well-formedness: each check refuses an ill-formed term -/

theorem test_wf_merge_add_empty : (Instr.mergeAdd 0 0).WellFormed = false := by decide
theorem test_wf_merge_sub_nine : (Instr.mergeSub 0 9).WellFormed = false := by decide
theorem test_wf_merge_mul_empty : (Instr.mergeMul 0 0).WellFormed = false := by decide
theorem test_wf_merge_add3_nine : (Instr.mergeAdd3 0 9).WellFormed = false := by decide
theorem test_wf_grad_mode3 : (Instr.grad 0 3).WellFormed = false := by decide
theorem test_wf_illegal_op0 : (Instr.illegal 0).WellFormed = false := by decide
theorem test_wf_illegal_op11 : (Instr.illegal 11).WellFormed = false := by decide

/-! ### Decoding: words written out from 30_encoding.md R121, R124 and R125, as
0b unused 31:24, FN 23:16, unused 15, CNT 14:12, SRC 11:8, DST 7:4, OP 3:0, and the words of
95_test_vectors.md section 2.1 -/

theorem test_decode_nop : decode 0b00000000_00000000_0_000_0000_0000_0000 = .nop := by decide
theorem test_decode_synth : decode 0b00000000_00000010_0_000_0000_0011_0001 = .synth 3 2 := by decide
theorem test_decode_normal :
    decode 0b00000000_00000101_0_000_0011_0100_0010 = .normal 4 3 true false true := by decide
theorem test_decode_normal_tan : decode 0x00020012 = .normal 1 0 false true false := by decide
theorem test_decode_grad : decode 0b00000000_00000001_0_000_0000_0010_0011 = .grad 2 1 := by decide
theorem test_decode_glow :
    decode 0b00000000_00000011_0_000_0000_0011_0100 = .glow 3 true true false false := by decide
theorem test_decode_glow_curve_rect : decode 0x000C0004 = .glow 0 false false true true := by decide
theorem test_decode_merge_add :
    decode 0b00000000_00000000_0_111_0000_0111_0101 = .mergeAdd 7 8 := by decide
theorem test_decode_merge_sub : decode 0x00011035 = .mergeSub 3 2 := by decide
theorem test_decode_merge_mul : decode 0x00021055 = .mergeMul 5 2 := by decide
theorem test_decode_merge_add3 :
    decode 0b00000000_00000011_0_001_0000_0000_0101 = .mergeAdd3 0 2 := by decide
theorem test_decode_colorize_mul :
    decode 0b00000000_00000000_0_000_0000_0000_0110 = .colorizeMul 0 := by decide
theorem test_decode_colorize_add : decode 0x00010016 = .colorizeAdd 1 := by decide
theorem test_decode_colorize_sub : decode 0x00020026 = .colorizeSub 2 := by decide
theorem test_decode_colorize_gray : decode 0x00030006 = .colorizeGray 0 := by decide
theorem test_decode_colorize_inv :
    decode 0b00000000_00000100_0_000_0000_1001_0110 = .colorizeInv 9 := by decide
theorem test_decode_colorize_nop5 : decode 0x00050056 = .colorizeNop5 5 := by decide
theorem test_decode_colorize_nop6 : decode 0x00060066 = .colorizeNop6 6 := by decide
theorem test_decode_colorize_nop7 : decode 0x00070006 = .colorizeNop7 0 := by decide
theorem test_decode_copy : decode 0b00000000_00000000_0_000_0000_0001_0111 = .copy 1 0 := by decide
theorem test_decode_copy_source : decode 0x00000F27 = .copy 2 15 := by decide
theorem test_decode_release : decode 0b00000000_00000000_0_000_0000_0011_1000 = .release 3 := by decide
theorem test_decode_import_g : decode 0x00000029 = .importG 2 := by decide
theorem test_decode_import_rgb :
    decode 0b00000000_00000001_0_000_0000_0000_1001 = .importRgb 0 := by decide
theorem test_decode_import_rgba : decode 0x00020019 = .importRgba 1 := by decide
theorem test_decode_illegal_import3 :
    decode 0b00000000_00000011_0_000_0000_0000_1001 = .illegalImport3 := by decide
theorem test_decode_export : decode 0b00000000_00000000_0_000_0101_0000_1010 = .exportBuf 5 := by decide
theorem test_decode_rawfill : decode 0b00000000_00000000_0_000_0001_0000_1011 = .rawfill 1 := by decide
theorem test_decode_illegal_c : decode 0b00000000_00000000_0_000_0000_0000_1100 = .illegal 0xC := by decide
theorem test_decode_illegal_f : decode 0xFFFFFFFF = .illegal 0xF := by decide
theorem test_decode_ignored_bits :
    decode 0xFF000031 = .synth 3 0 ∧ decode 0x00008001 = .synth 0 0 ∧
      decode 0x00FC0001 = .synth 0 0 ∧ decode 0x00000F01 = .synth 0 0 ∧
      decode 0x00030003 = .grad 0 0 := by decide
theorem test_decode_bytes_little_endian :
    decodeBytes [0x42, 0x03, 0x05, 0x00] = .ok (.normal 4 3 true false true) := by decide
theorem test_decode_bytes_short : decodeBytes [0x42, 0x03] = .error .truncated := by decide
theorem test_decode_table_word :
    decodeTableWord 32 0x00050342 = some (.normal 4 3 true false true) := by decide

/-! ### Datapath and tables (95_test_vectors.md sections 1.9 and 2.2) -/

theorem test_pack32 : pack32 0x80FF8000 = 0x40407FFF40400000#64 := by decide
theorem test_unpack8 : unpack8 0x7FFF = 0xFF ∧ unpack8 0x4040 = 0x80 ∧ unpack8 0x007F = 0 := by decide
theorem test_blend :
    blend 0x7FFF000000000000#64 0x7FFF7FFF7FFF7FFF#64 0xFFFF = 0x7FFF7FFE7FFE7FFE#64 := by
  decide +kernel
theorem test_quintic : quintic 0x4000 = 6784 ∧ quintic 0xC000 = 58752 ∧ quintic 65535 = 65535 := by
  decide +kernel
theorem test_sine : sineQ 32 = 201 ∧ sineQ 100 = 628 ∧ sineQ 20480 = 16384 ∧ sineQ (-4096) = -16384 := by
  decide +kernel
theorem test_gamma_half : gammaTable .exactReal (1 / 2) 1 = 2046 := by decide +kernel
theorem test_fix_floor : fixFloor32 0x3F333333 16384 = 11468 := by decide +kernel
theorem test_fix_floor_special : fixFloor32 0x7FC00000 256 = 0 ∧ fixFloor32 0x7F800000 256 = 2147483647 ∧
    fixFloor32 0xFF800000 256 = -2147483648 ∧ fixFloor 0xBF800000 65536 0 65535 = 0 := by
  decide +kernel
/-- The construction of R60 gives the tables that R62 and R63 print. -/
theorem test_lattice : constructLattice = defaultLattice := by decide +kernel

/-! ### A small machine -/

/-- A machine with 64 texels of TMEM and 256 bytes of HMEM, its window at 0x40000000. -/
def chip : Params :=
  { tmemTexels := 64, hmemSize := 256, lattice := defaultLattice, octaveOrigin := .absolute,
    powfn := .exactReal, hmsynBase := 0x40000000 }

/-- That machine, idle, the lattice built. -/
def ready : State :=
  { State.reset with
    params := chip
    lattice := defaultLattice
    status := { Status.zero with latticeReady := true } }

/-- A valid slot. -/
def buffer (base w h : Word) : Desc := { base := base, w := w, h := h, valid := true }

/-- Slots 0 and 1 of w x h texels, slot 0 filled from `f` and slot 1 from `g`, slot 2 empty with its BASE
behind them. -/
def twoBuffers (w h : Nat) (f g : Nat → Texel) : State :=
  { ready with
    desc := ((DescTable.empty.put 0 (buffer 0 (BitVec.ofNat 32 w) (BitVec.ofNat 32 h))).put 1
      (buffer (BitVec.ofNat 32 (w * h)) (BitVec.ofNat 32 w) (BitVec.ofNat 32 h))).put 2
      { Desc.empty with base := BitVec.ofNat 32 (2 * (w * h)) }
    tmem := Memory.fill (Memory.fill [] 0 (w * h) f) (w * h) (w * h) g }

/-- The state in which command i, accepted in state s, has completed. -/
def after (i : Instr) (s : State) : Option State :=
  match exec i (s.accept (encode i)) with
  | .next t => some t
  | .fault _ => none
  | .refused _ => none

/-- Texel a after command i. -/
def texelAfter (i : Instr) (s : State) (a : Nat) : Option Texel := (after i s).bind (fun t => t.tmem.find a)

/-- Byte a of HMEM after command i. -/
def byteAfter (i : Instr) (s : State) (a : Nat) : Option Byte := (after i s).bind (fun t => t.hmem.find a)

/-- STATUS after command i. -/
def statusAfter (i : Instr) (s : State) : Option Word := (after i s).map (fun t => t.status.word)

/-! ### One step of each command, against 95_test_vectors.md -/

/-- The golden noise of section 1.1. -/
def golden : State :=
  { ready with par := { ParamRegs.zero with
      width := 4, height := 4, freq := 1, oct := 1, falloff := 0x3F000000, amp := 0x3F800000,
      gamma := 0x3F800000, color0 := 0xFF000000, color1 := 0xFFFFFFFF } }

theorem test_nop : statusAfter .nop ready = some 0x12#32 := by decide +kernel

/-- Section 1.1, texel (1, 2). -/
theorem test_synth_golden : texelAfter (.synth 0 0) golden 9 = some 0x7FFF39D239D239D2#64 := by
  decide +kernel
/-- Section 2.3, mode 3, texel (1, 0). -/
theorem test_synth_mode3 : texelAfter (.synth 0 3) golden 1 = some 0x7FFF57BE57BE57BE#64 := by
  decide +kernel

/-- The ramp of section 2.4. -/
def ramp : State :=
  { twoBuffers 4 4 (fun p => mk (0x1000 * (p % 4)) 0 0 0x7FFF) (fun _ => 0) with
    par := { ParamRegs.zero with strength := 0x3F800000 } }

/-- Section 2.4, Z3D, texel (0, 0). -/
theorem test_normal_z3d :
    texelAfter (.normal 2 0 true false false) ramp 32 = some 0x7FFF580040007B53#64 := by decide +kernel
/-- Section 2.4, SHARP, texel (1, 0). -/
theorem test_normal_sharp :
    texelAfter (.normal 2 0 false false true) ramp 33 = some 0x7FFF200040007FFF#64 := by decide +kernel

/-- The gradient of section 2.5. -/
def gradient : State :=
  { ready with par := { ParamRegs.zero with
      width := 4, height := 2, color0 := 0xFF000000, color1 := 0xFFFFFFFF, len := 0x3F800000 } }

/-- Section 2.5, mode 0, texel (3, 0). -/
theorem test_grad_linear : texelAfter (.grad 0 0) gradient 3 = some 0x7FFF5FFF5FFF5FFF#64 := by
  decide +kernel
/-- Section 2.5, mode 1, texel (1, 1). -/
theorem test_grad_smooth : texelAfter (.grad 0 1) gradient 5 = some 0x7FFF12BE12BE12BE#64 := by
  decide +kernel

/-- The glow of program 1, section 3.1: the black 4 x 4 buffer and a white colour. -/
def black : State :=
  { twoBuffers 4 4 (fun _ => 0x7FFF000000000000#64) (fun _ => 0) with
    par := { ParamRegs.zero with
      cx := 0x3F000000, cy := 0x3F000000, rx := 0x3F000000, ry := 0x3F000000, color0 := 0xFFFFFFFF,
      alpha := 0x3F800000, power := 0x3E800000 } }

/-- Section 3.1, texel (2, 1). -/
theorem test_glow : texelAfter (.glow 0 false false false false) black 6 = some 0x7FFF5FFD5FFD5FFD#64 := by
  decide +kernel
/-- Section 2.6: an empty slot. -/
theorem test_glow_empty : statusAfter (.glow 2 true true true true) black = some 0x416#32 := by
  decide +kernel

/-- The operands a and b of section 2.7, in slots 0 and 1, with the list [0, 1]. -/
def pair : State :=
  { twoBuffers 1 1 (fun _ => 0x4040303020201010#64) (fun _ => 0x2020606070700808#64) with
    par := { ParamRegs.zero with mlist := 0x10 } }

theorem test_merge_add : texelAfter (.mergeAdd 2 2) pair 2 = some 0x60607FFF7FFF1818#64 := by
  decide +kernel
theorem test_merge_sub : texelAfter (.mergeSub 2 2) { pair with
    tmem := [(0, 0x60607FFF7FFF1818#64), (1, 0x2020606070700808#64)] } 2 =
      some 0x40401F9F0F8F1010#64 := by decide +kernel
theorem test_merge_mul : texelAfter (.mergeMul 2 2) pair 2 = some 0x102024481C380102#64 := by
  decide +kernel
theorem test_merge_add3 : texelAfter (.mergeAdd3 2 2) pair 2 = some 0x60607FFF7FFF1818#64 := by
  decide +kernel
/-- Section 2.9: an empty entry is reported before a size mismatch. -/
theorem test_merge_empty_first : statusAfter (.mergeAdd 3 2)
    { pair with par := { pair.par with mlist := 0x50 } } = some 0x416#32 := by decide +kernel

/-- The texel and the colour of the COLORIZE table of section 2.7. -/
def tinted : State :=
  { twoBuffers 1 1 (fun _ => 0x12347FFF40000001#64) (fun _ => 0) with
    par := { ParamRegs.zero with color0 := 0x80FF8000 } }

theorem test_colorize_mul : texelAfter (.colorizeMul 0) tinted 0 = some 0x09237FFE20200000#64 := by
  decide +kernel
theorem test_colorize_add : texelAfter (.colorizeAdd 0) tinted 0 = some 0x52747FFF7FFF0001#64 := by
  decide +kernel
theorem test_colorize_sub : texelAfter (.colorizeSub 0) tinted 0 = some 0x0000000000000001#64 := by
  decide +kernel
theorem test_colorize_gray : texelAfter (.colorizeGray 0) tinted 0 = some 0x1234400040004000#64 := by
  decide +kernel
theorem test_colorize_inv : texelAfter (.colorizeInv 0) tinted 0 = some 0x123400003FFF7FFE#64 := by
  decide +kernel
theorem test_colorize_nop5 : texelAfter (.colorizeNop5 0) tinted 0 = some 0x12347FFF40000001#64 := by
  decide +kernel
theorem test_colorize_nop6 : statusAfter (.colorizeNop6 2) tinted = some 0x416#32 := by decide +kernel
theorem test_colorize_nop7 : statusAfter (.colorizeNop7 0) tinted = some 0x12#32 := by decide +kernel

theorem test_copy : texelAfter (.copy 2 1) pair 2 = some 0x2020606070700808#64 := by decide +kernel
/-- Section 2.9: an output that does not fit. -/
theorem test_copy_nomem : statusAfter (.copy 3 1)
    { pair with desc := pair.desc.put 3 { Desc.empty with base := 64 } } = some 0x516#32 := by
  decide +kernel

theorem test_release : (after (.release 1) pair).map (fun t => t.desc.at 1) =
    some { base := 1, w := 0, h := 0, valid := false } := by decide +kernel

/-- HMEM with the bytes `l` from address 0, and a buffer size. -/
def bytes (w h : Word) (l : List Byte) : State :=
  { ready with
    hmem := Memory.writeAll [] (l.zipIdx.map (fun b => (b.2, b.1)))
    par := { ParamRegs.zero with width := w, height := h } }

theorem test_import_g : texelAfter (.importG 0) (bytes 2 1 [0x00, 0xFF]) 1 =
    some 0x7FFF7FFF7FFF7FFF#64 := by decide +kernel
theorem test_import_rgb : texelAfter (.importRgb 0) (bytes 1 1 [0x80, 0x40, 0x20]) 0 =
    some 0x7FFF404020201010#64 := by decide +kernel
theorem test_import_rgba : texelAfter (.importRgba 0) (bytes 1 1 [0x10, 0x20, 0x30, 0x40]) 0 =
    some 0x2020080810101818#64 := by decide +kernel
theorem test_illegal_import3 : statusAfter .illegalImport3 pair = some 0x316#32 := by decide +kernel

/-- Section 2.8. -/
def wide : State := twoBuffers 1 1 (fun _ => 0x7FFF280040007B53#64) (fun _ => 0x2020080810101818#64)

theorem test_export : (List.range 4).map (byteAfter (.exportBuf 0) wide) =
    [some 0x50, some 0x80, some 0xF6, some 0xFF] := by decide +kernel
/-- Section 2.9: past the end of HMEM. -/
theorem test_export_range : statusAfter (.exportBuf 0)
    { wide with par := { wide.par with haddr := 253 } } = some 0x716#32 := by decide +kernel
theorem test_rawfill : (List.range 4).map (byteAfter (.rawfill 1) wide) =
    [some 0x30, some 0x20, some 0x10, some 0x40] := by decide +kernel
theorem test_illegal : statusAfter (.illegal 0xC) pair = some 0x316#32 := by decide +kernel

/-! ### Steps -/

/-- Section 2.10: STATUS during and after the lattice build. -/
theorem test_build : State.reset.status.word = 0 ∧
    (match step State.reset with
      | .next t => t.status.word
      | .fault _ => 0
      | .refused _ => 0) = 0x10#32 := by decide +kernel

/-- The first instruction after reset, with its registers at 0: SYNTH reports INVALID_DIM. -/
theorem test_first_instruction :
    (match step (State.reset.withFetchWord 32 0x00000001) with
      | .next t => t.status.word
      | .fault _ => 0
      | .refused _ => 0) = 0x116#32 := by decide +kernel

/-- R100: a read of ID at the base of the window, and none an address below it. -/
theorem test_bus_window :
    (match step { ready with hostq := [.accesses [.busRead 0x40000000 .b32, .busRead 0x3FFFFFFF .b32]] } with
      | .next t => t.hostReads
      | .fault _ => []
      | .refused _ => []) = [0x484D0001#32] := by decide +kernel

/-! ### Witnesses: concrete states and operands that meet the hypotheses of the statements -/

/-- A written texel of a canonical memory, found by evaluation. -/
theorem writtenTexel_of {s : State} {a : Nat}
    (h : (s.tmem.find a).any (fun t => t &&& headroomMask == t) = true) : WrittenTexel s a := by
  cases hf : s.tmem.find a with
  | none => rw [hf] at h; cases h
  | some t => rw [hf] at h; exact ⟨t, hf, by simpa using h⟩

/-- A written buffer, found by evaluation. -/
theorem writtenBuffer_of {s : State} {n : Slot}
    (h : ∀ p, p < (s.snap.desc.at n).count →
      (s.tmem.find ((s.snap.desc.at n).base.toNat + p)).any (fun t => t &&& headroomMask == t) = true) :
    WrittenBuffer s n := fun p hp => writtenTexel_of (h p hp)

/-- Two runs of indices of which one ends before the other begins. -/
theorem noOverlap_of {a m b n : Nat} (h : a + m ≤ b ∨ b + n ≤ a) : NoOverlap a m b n := by
  intro i hi; omega

/-- Slots 0 and 1 of 2 x 2 written texels, slot 2 empty behind them, slot 3 empty with room for exactly 2 x 2
texels at the end of TMEM, slot 4 a valid 1 x 1 buffer on a texel that nothing has written; the list [0, 1],
2 x 2 as the size, and the last 16 bytes of HMEM as the address. -/
def scene : State :=
  let s := twoBuffers 2 2 (fun p => mk (0x1000 * p) 0x7FFF 0x0123 0x7FFF) (fun _ => 0x2020606070700808#64)
  { s with
    desc := (s.desc.put 3 { Desc.empty with base := 60 }).put 4 (buffer 32 1 1)
    par := { golden.par with width := 2, height := 2, mlist := 0x10, haddr := 240, hstride := 8 } }

/-- The scene with the command of `i` running. -/
def running (i : Instr) : State := scene.accept (encode i)

/-- The scene with a command running and one step of input. -/
def runningWith (i : Instr) (c : HostCycle) : State := { running i with hostq := [c] }

theorem witness_DecodeOfEncode :
    (Instr.mergeAdd 15 8).WellFormed = true ∧ (Instr.mergeSub 0 1).WellFormed = true ∧
      (Instr.grad 15 2).WellFormed = true ∧ (Instr.illegal 12).WellFormed = true := by decide

theorem witness_IgnoredBitsDoNotMatter :
    (0xFF00F001#32 &&& usedBits (opField 0xFF00F001)) = (0x00000001#32 &&& usedBits (opField 0xFF00F001)) := by
  decide

theorem witness_EncodingRows : (1 ≤ 1 ∧ 1 ≤ 8) ∧ (1 ≤ 8 ∧ 8 ≤ 8) := by decide

theorem witness_PowerOnReset :
    (runningWith (.synth 0 0) (.rstN [.read 0x000 .b32, .write 0x004 .b32 1])).hostq =
      .rstN [.read 0x000 .b32, .write 0x004 .b32 1] :: [] := rfl

theorem witness_SoftResetStep :
    (2#32).getLsbD 1 = true ∧ (3#32).getLsbD 1 = true ∧
      (runningWith (.synth 0 0) (.accesses [.write 0x004 .b32 3])).hostq =
        .accesses [.write 0x004 .b32 3] :: [] := by decide

theorem witness_AbandonedRegion :
    (running (.synth 3 0)).status.busy = true ∧ (running (.synth 3 0)).NoRace ∧
      ({ base := 60, count := 4 } : Region) ∈
        (footprint (running (.synth 3 0)).running (running (.synth 3 0))).writes ∧
      ({ base := 60, count := 4 } : Region).has 60 = true ∧
      ({ base := 60, count := 4 } : Region).has 63 = true :=
  ⟨rfl, ⟨rfl, rfl⟩, by decide +kernel, by decide, by decide⟩

theorem witness_ResetValues : Reg.descStat 15 ≠ .id ∧ Reg.descStat 15 ≠ .tdataLo := by decide

theorem witness_RegisterMap :
    regAt 0x000 = some .id ∧ regAt 0x080 = some (.param .hstride) ∧ regAt 0x1FC = some (.descStat 15) ∧
      (0x3FFFFFFF < scene.params.hmsynBase ∨ scene.params.hmsynBase + 4096 ≤ 0x3FFFFFFF) ∧
      (0x40001000 < scene.params.hmsynBase ∨ scene.params.hmsynBase + 4096 ≤ 0x40001000) ∧
      (1#32).getLsbD 1 = false ∧ (0xFFFFFFFD#32).getLsbD 1 = false := by
  decide

theorem witness_NarrowAccess :
    (AccessSize.b16 ≠ .b32 ∨ (0x100#12).toNat % 4 ≠ 0) ∧
      (AccessSize.b32 ≠ .b32 ∨ (0x101#12).toNat % 4 ≠ 0) := by decide

theorem witness_WindowRules :
    (0x01C#12 = 0x01C ∧ (0x084 ≤ (0x084#12).toNat ∧ (0x0FC#12).toNat ≤ 0x0FF) ∧
        0x200 ≤ (0x200#12).toNat ∧ 0x200 ≤ (0xFFC#12).toNat) ∧
      (0xFFFFFFFC#32 &&& writeBits .ctrl) = (0#32 &&& writeBits .ctrl) ∧
      writeBits .id = 0 ∧ writeBits (.descStat 15) = 0 ∧ Reg.id ≠ .tdataLo ∧ Reg.id ≠ .tdataHi := by
  decide

/-- The state just before the completion of a NOP. -/
theorem witness_SimultaneousEvents :
    (running .nop).status.latticeReady = true ∧ (running .nop).Accepted ∧
      (running .nop).nextStall = false ∧ (running .nop).NoRace ∧
      (∃ u, exec (running .nop).running (running .nop).popInput = .next u) ∧
      (3#32).getLsbD 1 = true ∧
      (runningWith .nop (.accesses [.write 0x008 .b32 0xE])).hostq =
        .accesses [.write 0x008 .b32 0xE] :: [] ∧
      (runningWith .nop (.accesses [.write 0x00C .b32 1])).hostq =
        .accesses [.write 0x00C .b32 1] :: [] ∧
      (runningWith .nop (.accesses [.write 0x00C .b32 1, .write 0x00C .b32 2, .write 0x008 .b32 8])).hostq =
        .accesses [.write 0x00C .b32 1, .write 0x00C .b32 2, .write 0x008 .b32 8] :: [] ∧
      (runningWith .nop (.accesses [.write 0x004 .b32 3])).hostq =
        .accesses [.write 0x004 .b32 3] :: [] :=
  ⟨rfl, ⟨rfl, rfl, rfl, rfl⟩, rfl, ⟨rfl, rfl⟩, exec_next _ _, by decide, rfl, rfl, rfl, rfl⟩

theorem witness_CmdWrite : scene.status.busy = false ∧ (running .nop).status.busy = true := ⟨rfl, rfl⟩

/-- An idle machine at the last texel of TMEM and behind it, and a running NORMAL of slot 0 into slot 3 at the
texel behind its source, at the one before its output, and behind TMEM, and at the ends of both regions; the
last texel that is written and the one behind it. -/
theorem witness_TexelPort :
    { scene with taddr := 63 }.texelInFlight 63 = false ∧
      ({ scene with taddr := 63 }.taddr).toNat < scene.params.tmemTexels ∧
      { scene with taddr := 64 }.texelInFlight 64 = false ∧
      scene.params.tmemTexels ≤ ({ scene with taddr := 64 }.taddr).toNat ∧
      (∀ a, a = 4 ∨ a = 59 ∨ a = 64 →
        { running (.normal 3 0 true false false) with taddr := BitVec.ofNat 32 a }.texelInFlight
          (BitVec.ofNat 32 a).toNat = false) ∧
      (∀ a, a = 0 ∨ a = 3 ∨ a = 60 ∨ a = 63 →
        { running (.normal 3 0 true false false) with taddr := BitVec.ofNat 32 a }.texelInFlight
          (BitVec.ofNat 32 a).toNat = true) ∧
      (running (.normal 3 0 true false false)).status.busy = true ∧
      scene.tmem.find 7 = some 0x2020606070700808#64 ∧ scene.tmem.find 8 = none := by
  refine ⟨rfl, by decide, rfl, by decide, ?_, ?_, rfl, by decide +kernel, by decide +kernel⟩
  · rintro a (rfl | rfl | rfl) <;> decide +kernel
  · rintro a (rfl | rfl | rfl | rfl) <;> decide +kernel

theorem witness_DescBaseWrite :
    (scene.desc.at 0).valid = true ∧ (scene.desc.at 2).valid = false ∧ (15 : Slot) ≠ 2 := by
  decide +kernel

theorem witness_ParamWriteRead : (Param.seed = .freq ∨ Param.seed = .oct ∨ Param.seed = .seed) ∧
    Param.hstride ≠ .width := by decide

theorem witness_HostHmemAccess :
    scene.params.hmemSize ≤ 256 ∧ 255 < scene.params.hmemSize ∧ scene.byteInFlight 255 = false ∧
      (running (.exportBuf 0)).byteInFlight 239 = false ∧
      (running (.exportBuf 0)).byteInFlight 240 = true ∧
      (running (.exportBuf 0)).byteInFlight 255 = true ∧
      255 < (running (.exportBuf 0)).params.hmemSize ∧
      (running (.exportBuf 0)).status.busy = true ∧
      (footprint (running (.exportBuf 0)).running (running (.exportBuf 0))).hmem ≠ [] := by
  decide +kernel

/-- A host that has raced on a source texel and on a byte of a running EXPORT. -/
def raced : State := { running (.exportBuf 0) with racedTexels := [0], racedBytes := [250] }

theorem witness_RaceConfined :
    (running (.exportBuf 0)).NoRace ∧
      (∃ t, exec (running (.exportBuf 0)).running (running (.exportBuf 0)) = .next t) ∧
      (∃ t, exec raced.running raced = .next t) ∧ 3 ∉ taintedTexels raced.running raced ∧
      247 ∉ raced.racedBytes ∧
      ∀ st ∈ byteStores raced.running raced, st.addr = 247 → st.src ∉ raced.racedTexels :=
  ⟨⟨rfl, rfl⟩, exec_next _ _, exec_next _ _, by decide +kernel, by decide, by decide +kernel⟩

theorem witness_BystanderTexel :
    (running (.normal 3 0 true false false)).status.busy = true ∧
      (running (.normal 3 0 true false false)).texelInFlight 4 = false ∧
      (running (.normal 3 0 true false false)).texelInFlight 59 = false ∧
      ∃ t, exec (running (.normal 3 0 true false false)).running
        (running (.normal 3 0 true false false)) = .next t :=
  ⟨rfl, by decide +kernel, by decide +kernel, exec_next _ _⟩

theorem witness_StepRunsDecoded :
    (running (.normal 3 0 true false false)).snap.cmd = wordOfBytes 0x32 0x00 0x01 0x00 ∧
      decodeBytes [0x32, 0x00, 0x01, 0x00] = .ok (.normal 3 0 true false false) ∧
      (running (.normal 3 0 true false false)).status.latticeReady = true ∧
      (running (.normal 3 0 true false false)).status.busy = true ∧
      (running (.normal 3 0 true false false)).nextStall = false ∧
      (running (.normal 3 0 true false false)).NoRace ∧
      (running (.normal 3 0 true false false)).hostq = [] ∧
      (runningWith .nop (.accesses [.read 0x008 .b32])).nextCycle.resets = false ∧
      ∃ u, exec .nop (runningWith .nop (.accesses [.read 0x008 .b32])).popInput = .next u :=
  ⟨by decide, by decide, rfl, rfl, rfl, ⟨rfl, rfl⟩, rfl, rfl, exec_next _ _⟩

theorem witness_BuildGate :
    State.reset.hostq = [] ∧ State.reset.status.latticeReady = false ∧ State.reset.nextStall = false ∧
      { State.reset with stalls := [true] }.nextStall = true := ⟨rfl, rfl, rfl, rfl⟩

theorem witness_CommandCompletes :
    { running (.exportBuf 0) with stalls := [true, false, true] }.status.busy = true ∧
      { running (.exportBuf 0) with stalls := [true, false, true] }.hostq = [] := ⟨rfl, rfl⟩

theorem witness_ErrorChangesOnlyStatus :
    (running (.exportBuf 2)).Accepted ∧
      exec (.exportBuf 2) (running (.exportBuf 2)) =
        .next ((running (.exportBuf 2)).complete (some .emptySrc)) ∧
      ((running (.exportBuf 2)).complete (some .emptySrc)).status.err = true := by
  refine ⟨⟨rfl, rfl, rfl, rfl⟩, ?_, rfl⟩
  have h : exportError (running (.exportBuf 2)) 2 = some .emptySrc := by decide +kernel
  show execExport 2 _ = _
  unfold execExport
  rw [h]; rfl

theorem witness_FirstFailedCheck :
    (Instr.mergeAdd 3 2).WellFormed = true ∧ (running (.mergeAdd 3 2)).Accepted ∧
      1 ≤ (running (.mergeAdd 3 2)).params.hmemSize ∧
      (∃ t, exec (.mergeAdd 3 2) (running (.mergeAdd 3 2)) = .next t) ∧
      (Instr.rawfill 15).WellFormed = true ∧ (∃ t, exec (.rawfill 15) (running .nop) = .next t) :=
  ⟨by decide, ⟨rfl, rfl, rfl, rfl⟩, by decide, exec_next _ _, by decide, exec_next _ _⟩

theorem witness_StatusWords :
    (Instr.illegal 12).WellFormed = true ∧ (running (.illegal 12)).Accepted ∧
      1 ≤ (running (.illegal 12)).params.hmemSize ∧
      (running (.illegal 12)).status.latticeReady = true ∧
      (running (.illegal 12)).status.overrun = false ∧
      ∃ t, exec (.illegal 12) (running (.illegal 12)) = .next t :=
  ⟨by decide, ⟨rfl, rfl, rfl, rfl⟩, by decide, rfl, rfl, exec_next _ _⟩

theorem witness_IrqLine :
    (∃ t, exec .nop (running .nop) = .next t) ∧ (2#32).getLsbD 1 = true ∧
      (running .nop).status.busy = true := ⟨exec_next _ _, by decide, rfl⟩

theorem witness_NoOperation : ((running (.colorizeNop5 0)).snap.desc.at 0).valid = true := by
  decide +kernel

/-- SYNTH and GRAD with an output that ends at the last texel of TMEM. -/
theorem witness_SynthResult :
    1 ≤ (running (.synth 3 3)).snap.par.width.toInt ∧ 1 ≤ (running (.synth 3 3)).snap.par.height.toInt ∧
      OutputFits (running (.synth 3 3)) 3 (parCount (running (.synth 3 3))) ∧
      (running (.synth 3 3)).snap.par.oct ≠ 0 := by
  unfold OutputFits; decide +kernel

/-- The scene with no octave. -/
def solidScene : State := { scene with par := { scene.par with oct := 0 } }

theorem witness_SynthZeroOctaves :
    1 ≤ (solidScene.accept 0x31).snap.par.width.toInt ∧
      1 ≤ (solidScene.accept 0x31).snap.par.height.toInt ∧
      OutputFits (solidScene.accept 0x31) 3 (parCount (solidScene.accept 0x31)) ∧
      (solidScene.accept 0x31).snap.par.oct = 0 := by
  unfold OutputFits; decide +kernel

/-- The running SYNTH with twice the width, and with twice the height, into slot 2. -/
def doubled (wide : Bool) : State :=
  let s := running (.synth 2 0)
  { s with snap := { s.snap with par :=
      if wide then { s.snap.par with width := 2 * s.snap.par.width }
      else { s.snap.par with height := 2 * s.snap.par.height } } }

theorem witness_SynthTileable :
    (∀ b, (doubled b).lattice = (running (.synth 2 0)).lattice ∧
      (doubled b).params = (running (.synth 2 0)).params) ∧
      1 ≤ (running (.synth 2 0)).snap.par.width.toInt ∧
      1 ≤ (running (.synth 2 0)).snap.par.height.toInt ∧
      OutputFits (running (.synth 2 0)) 2 (parCount (running (.synth 2 0))) ∧
      (∀ b, OutputFits (doubled b) 2 (parCount (doubled b))) ∧
      2 * (running (.synth 2 0)).snap.par.width.toInt < 2 ^ 31 ∧
      2 * (running (.synth 2 0)).snap.par.height.toInt < 2 ^ 31 ∧
      (doubled true).snap.par =
        { (running (.synth 2 0)).snap.par with width := 2 * (running (.synth 2 0)).snap.par.width } ∧
      (doubled false).snap.par =
        { (running (.synth 2 0)).snap.par with height := 2 * (running (.synth 2 0)).snap.par.height } := by
  refine ⟨fun b => ⟨rfl, rfl⟩, ?_⟩
  unfold OutputFits; decide +kernel

theorem witness_NormalResult :
    ((running (.normal 3 0 true true true)).snap.desc.at 0).valid = true ∧
      OutputFits (running (.normal 3 0 true true true)) 3
        ((running (.normal 3 0 true true true)).snap.desc.at 0).count ∧
      NoOverlap ((running (.normal 3 0 true true true)).snap.desc.at 3).base.toNat
        ((running (.normal 3 0 true true true)).snap.desc.at 0).count
        ((running (.normal 3 0 true true true)).snap.desc.at 0).base.toNat
        ((running (.normal 3 0 true true true)).snap.desc.at 0).count :=
  ⟨by decide +kernel, by unfold OutputFits; decide +kernel, noOverlap_of (by decide +kernel)⟩

/-- Slot 1 is flat, and slot 2 starts where it ends. -/
theorem witness_NormalFlat :
    ((running (.normal 2 1 true true true)).snap.desc.at 1).valid = true ∧
      OutputFits (running (.normal 2 1 true true true)) 2
        ((running (.normal 2 1 true true true)).snap.desc.at 1).count ∧
      NoOverlap ((running (.normal 2 1 true true true)).snap.desc.at 2).base.toNat
        ((running (.normal 2 1 true true true)).snap.desc.at 1).count
        ((running (.normal 2 1 true true true)).snap.desc.at 1).base.toNat
        ((running (.normal 2 1 true true true)).snap.desc.at 1).count ∧
      ∀ p, p < ((running (.normal 2 1 true true true)).snap.desc.at 1).count →
        lane (tread (running (.normal 2 1 true true true))
          (((running (.normal 2 1 true true true)).snap.desc.at 1).base.toNat + p)) 2 = 0x6060 :=
  ⟨by decide +kernel, by unfold OutputFits; decide +kernel, noOverlap_of (by decide +kernel),
    by decide +kernel⟩

theorem witness_GradResult :
    1 ≤ (running (.grad 3 2)).snap.par.width.toInt ∧ 1 ≤ (running (.grad 3 2)).snap.par.height.toInt ∧
      OutputFits (running (.grad 3 2)) 3 (parCount (running (.grad 3 2))) := by
  unfold OutputFits; decide +kernel

/-- Slot 4 holds a texel that nothing has written. -/
theorem witness_GlowResult :
    ((running (.glow 0 true true true true)).snap.desc.at 0).valid = true ∧
      ((running (.glow 4 true true true true)).snap.desc.at 4).valid = true := by decide +kernel

theorem witness_GlowAlphaZero :
    ((running (.glow 0 true true true true)).snap.desc.at 0).valid = true ∧
      fixFloor (running (.glow 0 true true true true)).snap.par.alpha 65536 0 65535 = 0 ∧
      fixFloor 0x7FC00000 65536 0 65535 = 0 := by decide +kernel

/-- The list [0, 1] and its continuation [0, 1, 0, 0, 0, 0, 0, 0], of every length from 1 to 8: into slot 3
at the end of TMEM, and in place into slot 0. -/
theorem witness_MergeResult :
    (∀ d : Slot, d = 0 ∨ d = 3 → ∀ k, k < 8 →
      let s := running (.mergeAdd 3 8)
      (s.snap.desc.at (mlistAt s k)).valid = true ∧
        (s.snap.desc.at (mlistAt s k)).w = (s.snap.desc.at (mlistAt s 0)).w ∧
        (s.snap.desc.at (mlistAt s k)).h = (s.snap.desc.at (mlistAt s 0)).h ∧
        WrittenBuffer s (mlistAt s k) ∧
        (NoOverlap (s.snap.desc.at d).base.toNat (s.snap.desc.at (mlistAt s 0)).count
            (s.snap.desc.at (mlistAt s k)).base.toNat (s.snap.desc.at (mlistAt s 0)).count ∨
          (s.snap.desc.at d).base = (s.snap.desc.at (mlistAt s k)).base)) ∧
      OutputFits (running (.mergeAdd 3 8)) 3
        ((running (.mergeAdd 3 8)).snap.desc.at (mlistAt (running (.mergeAdd 3 8)) 0)).count := by
  refine ⟨?_, by unfold OutputFits; decide +kernel⟩
  have hl : ∀ k, k < 8 → mlistAt (running (.mergeAdd 3 8)) k = if k = 1 then 1 else 0 := by
    decide +kernel
  have hw : ∀ n : Slot, n = 0 ∨ n = 1 → WrittenBuffer (running (.mergeAdd 3 8)) n := by
    rintro n (rfl | rfl) <;> exact writtenBuffer_of (by decide +kernel)
  intro d hd k hk
  simp only [hl k hk, hl 0 (by decide)]
  split <;> rcases hd with rfl | rfl
  · exact ⟨by decide +kernel, by decide +kernel, by decide +kernel, hw _ (.inr rfl),
      .inl (noOverlap_of (by decide +kernel))⟩
  · exact ⟨by decide +kernel, by decide +kernel, by decide +kernel, hw _ (.inr rfl),
      .inl (noOverlap_of (by decide +kernel))⟩
  · exact ⟨by decide +kernel, by decide +kernel, by decide +kernel, hw _ (.inl rfl), .inr rfl⟩
  · exact ⟨by decide +kernel, by decide +kernel, by decide +kernel, hw _ (.inl rfl),
      .inl (noOverlap_of (by decide +kernel))⟩

theorem witness_MergeOfOne :
    (Instr.mergeAdd, ladd) ∈ mergeOps ∧ (Instr.mergeSub, lsub) ∈ mergeOps ∧
      (Instr.mergeMul, lmul) ∈ mergeOps ∧ (Instr.mergeAdd3, ladd) ∈ mergeOps := by
  simp [mergeOps]

/-- a and b are slots 0 and 1, the sum is slot 2 or in place slot 0, and the result is slot 3, the sum or
slot 1. -/
theorem witness_MergeRoundTrip :
    let D := fun n => scene.desc.at n
    let apart := fun m n =>
      NoOverlap (D m).base.toNat (D 0).count (D n).base.toNat (D 0).count
    ((D 0).valid = true ∧ (D 1).valid = true ∧ (D 1).w = (D 0).w ∧ (D 1).h = (D 0).h ∧
      1 ≤ (D 0).count) ∧
      (∀ p, p < (D 0).count → WrittenTexel scene ((D 0).base.toNat + p) ∧
        WrittenTexel scene ((D 1).base.toNat + p)) ∧
      (∀ n : Slot, n.toNat < 4 → (D n).base.toNat + (D 0).count ≤ scene.params.tmemTexels) ∧
      (apart 2 0 ∧ apart 2 1) ∧ ((D 0).base = (D 0).base ∧ apart 0 1) ∧
      (apart 3 2 ∧ apart 3 1) ∧ ((D 2).base = (D 2).base ∧ apart 2 1) ∧
      (apart 1 2 ∧ (D 1).base = (D 1).base) := by
  have h : ∀ p, p < (scene.desc.at 0).count →
      (scene.tmem.find ((scene.desc.at 0).base.toNat + p)).any (fun t => t &&& headroomMask == t) = true ∧
      (scene.tmem.find ((scene.desc.at 1).base.toNat + p)).any (fun t => t &&& headroomMask == t) =
        true := by decide +kernel
  have h20 : NoOverlap (scene.desc.at 2).base.toNat (scene.desc.at 0).count
      (scene.desc.at 0).base.toNat (scene.desc.at 0).count := noOverlap_of (by decide +kernel)
  have h21 : NoOverlap (scene.desc.at 2).base.toNat (scene.desc.at 0).count
      (scene.desc.at 1).base.toNat (scene.desc.at 0).count := noOverlap_of (by decide +kernel)
  exact ⟨by decide +kernel, fun p hp => ⟨writtenTexel_of (h p hp).1, writtenTexel_of (h p hp).2⟩,
    by decide +kernel, ⟨h20, h21⟩, ⟨rfl, noOverlap_of (by decide +kernel)⟩,
    ⟨noOverlap_of (by decide +kernel), noOverlap_of (by decide +kernel)⟩, ⟨rfl, h21⟩,
    ⟨noOverlap_of (by decide +kernel), rfl⟩⟩

theorem witness_ColorizeResult :
    ((running (.colorizeMul 1)).snap.desc.at 1).valid = true ∧ WrittenBuffer (running (.colorizeMul 1)) 1 :=
  ⟨by decide +kernel, writtenBuffer_of (by decide +kernel)⟩

/-- Into slot 3, apart from the source, and onto the source itself. -/
theorem witness_CopyResult :
    ((running (.copy 3 1)).snap.desc.at 1).valid = true ∧
      OutputFits (running (.copy 3 1)) 3 ((running (.copy 3 1)).snap.desc.at 1).count ∧
      NoOverlap ((running (.copy 3 1)).snap.desc.at 3).base.toNat
        ((running (.copy 3 1)).snap.desc.at 1).count
        ((running (.copy 3 1)).snap.desc.at 1).base.toNat
        ((running (.copy 3 1)).snap.desc.at 1).count ∧
      OutputFits (running (.copy 1 1)) 1 ((running (.copy 1 1)).snap.desc.at 1).count ∧
      ((running (.copy 1 1)).snap.desc.at 1).base = ((running (.copy 1 1)).snap.desc.at 1).base ∧
      (running (.copy 1 1)).desc = (running (.copy 1 1)).snap.desc :=
  ⟨by decide +kernel, by unfold OutputFits; decide +kernel, noOverlap_of (by decide +kernel),
    by unfold OutputFits; decide +kernel, rfl, rfl⟩

theorem witness_ReleaseResult :
    (scene.desc.at 2).w = 0 ∧ (scene.desc.at 2).h = 0 ∧ (scene.desc.at 2).valid = false ∧
      (15 : Slot) ≠ 2 := by decide +kernel

/-- The four-channel transfer ends at the last byte of HMEM. -/
theorem witness_ImportResult :
    1 ≤ (running (.importRgba 3)).snap.par.width.toInt ∧
      1 ≤ (running (.importRgba 3)).snap.par.height.toInt ∧
      OutputFits (running (.importRgba 3)) 3 (parCount (running (.importRgba 3))) ∧
      (running (.importRgba 3)).snap.par.haddr.toNat + 4 * parCount (running (.importRgba 3)) ≤
        (running (.importRgba 3)).params.hmemSize := by
  unfold OutputFits; decide +kernel

theorem witness_ExportResult :
    ((running (.exportBuf 0)).snap.desc.at 0).valid = true ∧
      1 ≤ ((running (.exportBuf 0)).snap.desc.at 0).count ∧
      (running (.exportBuf 0)).snap.par.haddr.toNat +
        4 * ((running (.exportBuf 0)).snap.desc.at 0).count ≤
          (running (.exportBuf 0)).params.hmemSize := by decide +kernel

/-- Rows of 8 bytes at a stride of 8, and the pixel that is the last to write its bytes. -/
theorem witness_RawfillResult :
    ((running (.rawfill 0)).snap.desc.at 0).valid = true ∧
      1 ≤ ((running (.rawfill 0)).snap.desc.at 0).w.toNat ∧
      1 ≤ ((running (.rawfill 0)).snap.desc.at 0).h.toNat ∧
      (running (.rawfill 0)).snap.par.haddr.toNat +
        (((running (.rawfill 0)).snap.desc.at 0).h.toNat - 1) *
          (running (.rawfill 0)).snap.par.hstride.toNat +
        4 * ((running (.rawfill 0)).snap.desc.at 0).w.toNat ≤
          (running (.rawfill 0)).params.hmemSize ∧
      (∀ x', x' < 2 → ∀ y', y' < 2 → ∀ k', k' < 4 → 240 + y' * 8 + 4 * x' + k' = 240 + 1 * 8 + 4 * 1 + 3 →
        y' < 1 ∨ (y' = 1 ∧ x' ≤ 1)) ∧
      ∀ x', x' < 2 → ∀ y', y' < 2 → ∀ k', k' < 4 → 240 + y' * 8 + 4 * x' + k' ≠ 239 :=
  ⟨by decide +kernel, by decide +kernel, by decide +kernel, by decide +kernel, by omega, by omega⟩

theorem witness_ImportExportIdentity :
    1 ≤ (running (.importRgba 3)).snap.par.width.toInt ∧
      1 ≤ (running (.importRgba 3)).snap.par.height.toInt ∧
      OutputFits (running (.importRgba 3)) 3 (parCount (running (.importRgba 3))) ∧
      (running (.importRgba 3)).snap.par.haddr.toNat + 4 * parCount (running (.importRgba 3)) ≤
        (running (.importRgba 3)).params.hmemSize ∧
      (0#32).toNat + 4 * parCount (running (.importRgba 3)) ≤
        (running (.importRgba 3)).params.hmemSize ∧
      (238#32).toNat + 4 * parCount (running (.importRgba 3)) ≤
        (running (.importRgba 3)).params.hmemSize := by
  unfold OutputFits; decide +kernel

theorem witness_IllegalCompletes :
    (running (.illegal 12)).Accepted ∧ 12 ≤ (12#4).toNat ∧ IllegalWord 0x0000000C ∧
      IllegalWord 0x00030009 ∧ ¬IllegalWord 0x00020009 ∧
      ∃ t, exec (decode 0x00020009) (running (.importRgba 0)) = .next t := by
  refine ⟨⟨rfl, rfl, rfl, rfl⟩, by decide, ?_, ?_, ?_, exec_next _ _⟩ <;> unfold IllegalWord <;> decide

theorem witness_BlendLaws : 0xFFFF < 0x10000 ∧ 3 < 4 ∧ lane (0 : Texel) 3 ≤ 0x7FFF ∧
    lane (0 : Texel) 3 < lane 0x7FFF000000000000#64 3 := by decide

theorem witness_IsqrtGreatest : 3 * 3 ≤ 9 := by decide

/-- The least positive arguments of the tables, the greatest, and exponents of either sign. -/
theorem witness_PowerFloors :
    (0 : Rat) < 1 / 32768 ∧ (0 : Rat) < 1 ∧ (0 : Rat) < 1 / 4 ∧ ¬(0 : Rat) < 0 ∧ ¬(0 : Rat) < -1 := by
  decide +kernel

theorem witness_SnapshotIsolation :
    ∃ t, exec (.release 1) (running (.release 1)) = .next t ∧
      { running (.release 1) with par := ParamRegs.zero, taddr := 7, desc := DescTable.empty }.snap =
        (running (.release 1)).snap :=
  (exec_next (.release 1) (running (.release 1))).imp fun _ h => ⟨h, rfl⟩

theorem witness_OnlySynthReadsLattice :
    (∃ t, exec (.glow 0 true true true true) (running .nop) = .next t) ∧
      ∀ d mode, Instr.glow 0 true true true true ≠ .synth d mode :=
  ⟨exec_next _ _, fun _ _ => by simp⟩

/-- The machine in the middle of a command that has written its buffers: slots 0 and 1 hold what was
written, and no slot is on texels that nothing has written. -/
def sound : State :=
  let s := twoBuffers 1 1 (fun _ => 0x1234#64) (fun _ => 0x2020606070700808#64)
  s.accept (encode (.copy 2 0))

/-- The two slots of `sound` that are valid. -/
theorem sound_slots (n : Slot) : (sound.desc.at n = buffer 0 1 1 ∧ n = 0) ∨
    (sound.desc.at n = buffer 1 1 1 ∧ n = 1) ∨
    ((sound.desc.at n).valid = false ∧ (sound.desc.at n).w = 0 ∧ (sound.desc.at n).h = 0) := by
  revert n; decide +kernel

theorem sound_texels (a : Nat) (t : Texel) (h : sound.tmem.find a = some t) :
    a < 64 ∧ t &&& headroomMask = t := by
  have hm : sound.tmem = [(0, 0x1234#64), (1, 0x2020606070700808#64)] := by decide +kernel
  rw [hm] at h
  simp only [Memory.find] at h
  split at h
  · cases h; exact ⟨by omega, by decide⟩
  · split at h
    · cases h; exact ⟨by omega, by decide⟩
    · cases h

theorem sound_steps : ∃ t, step sound = .next t := by
  obtain ⟨u, hu⟩ := exec_next sound.running sound.popInput
  have hr : runToCompletion sound.popInput = .next (applyRaces sound.running sound.popInput u) := by
    unfold runToCompletion
    rw [show sound.popInput.running = sound.running from rfl, hu]
  refine ⟨applyRaces sound.running sound.popInput u, ?_⟩
  unfold step machineStep engineTick
  rw [hr]
  rfl

theorem witness_StepKeepsMemoryForm : sound.MemoriesOk ∧ ∃ t, step sound = .next t :=
  ⟨⟨by decide +kernel, by decide +kernel⟩, sound_steps⟩

theorem witness_StepKeepsRegions :
    sound.DescsOk ∧ sound.AddressesOk ∧ sound.RacesOk ∧ ∃ t, step sound = .next t := by
  refine ⟨fun n => ?_, ⟨fun a t h => (sound_texels a t h).1, fun a b h => by cases h⟩,
    ⟨fun a h => (List.not_mem_nil h).elim, fun a h => (List.not_mem_nil h).elim⟩, sound_steps⟩
  have hs : sound.snap.desc = sound.desc := rfl
  rw [hs]
  rcases sound_slots n with ⟨h, -⟩ | ⟨h, -⟩ | ⟨h1, h2, h3⟩
  · rw [h]; unfold Desc.Ok; decide
  · rw [h]; unfold Desc.Ok; decide
  · simp [Desc.Ok, h1, h2, h3]

theorem witness_StepKeepsHeadroom :
    sound.HeadroomOk ∧ sound.RegionsWritten ∧ ∃ t, step sound = .next t := by
  refine ⟨fun a t h => (sound_texels a t h).2, fun n p => ?_, sound_steps⟩
  have hs : sound.snap.desc = sound.desc := rfl
  rw [hs]
  rcases sound_slots n with ⟨h, -⟩ | ⟨h, -⟩ | ⟨h1, -⟩
  · have hp : ∀ q, q < (buffer 0 1 1).count →
        (sound.tmem.find ((buffer 0 1 1).base.toNat + q)).isSome = true := by decide +kernel
    rw [h]; exact ⟨fun _ => hp p, fun _ => hp p⟩
  · have hp : ∀ q, q < (buffer 1 1 1).count →
        (sound.tmem.find ((buffer 1 1 1).base.toNat + q)).isSome = true := by decide +kernel
    rw [h]; exact ⟨fun _ => hp p, fun _ => hp p⟩
  · rw [h1]; exact ⟨fun h => (Bool.false_ne_true h).elim, fun h => (Bool.false_ne_true h).elim⟩

theorem witness_StepKeepsStatus :
    sound.StatusOk ∧ sound.LatticeOk ∧ sound.SnapshotOk ∧ ∃ t, step sound = .next t :=
  ⟨⟨by decide +kernel, by decide +kernel, fun _ => ⟨rfl, rfl⟩⟩, fun _ => rfl, fun _ => rfl, sound_steps⟩

end Sys2Proof.Tests
end

section
/-! PROOFS. What every step keeps (R32, R36, R44, R45, R64, R69, R72, R91, R93). -/

namespace Sys2Proof.Machine

/-! ### What a memory lists -/

/-- Every pair that reads of the memory can find satisfies `P`. -/
def Memory.Each {α : Type} (P : Nat → α → Prop) (m : Memory α) : Prop :=
  ∀ a v, m.find a = some v → P a v

section
variable {α : Type} {P : Nat → α → Prop} {m : Memory α}

theorem Memory.each_nil : Memory.Each P ([] : Memory α) := by
  intro a v h
  cases h

/-- A run of stores that each satisfy `P` keeps it. -/
theorem Memory.Each.writeAll (h : m.Each P) {l : List (Nat × α)} (hl : ∀ q ∈ l, P q.1 q.2) :
    (m.writeAll l).Each P := by
  intro a v hv
  rcases Memory.find_writeAll_cases m l a with ⟨w, hw, hf⟩ | ⟨-, hf⟩
  · obtain rfl : w = v := Option.some.inj (hf.symm.trans hv)
    exact hl _ hw
  · exact h a v (hf.symm.trans hv)

theorem Memory.Each.write (h : m.Each P) {a : Nat} {v : α} (hp : P a v) : (m.write a v).Each P :=
  h.writeAll (l := [(a, v)]) (by simpa using hp)

/-- A fill whose values satisfy `P` keeps it. -/
theorem Memory.Each.fill (h : m.Each P) {base n : Nat} {f : Nat → α}
    (hp : ∀ p, p < n → P (base + p) (f p)) : (m.fill base n f).Each P := by
  refine h.writeAll (fun q hq => ?_)
  obtain ⟨p, hmem, rfl⟩ := List.mem_map.1 hq
  exact hp p (List.mem_range.1 hmem)

/-- A run of stores forgets no address. -/
theorem Memory.find_writeAll_isSome {a : Nat} (h : (m.find a).isSome = true) (l : List (Nat × α)) :
    ((m.writeAll l).find a).isSome = true := by
  rcases Memory.find_writeAll_cases m l a with ⟨w, -, hf⟩ | ⟨-, hf⟩
  · rw [hf]; rfl
  · rw [hf]; exact h

end

/-! ### The registers that work, a race and a reset leave -/

/-- The work of a command changes only the descriptors and the two memories. -/
theorem Work.frame {s w : State} (h : Work s w) : SameRegisters s w ∧ w.status = s.status := by
  cases h with
  | same => exact ⟨SameRegisters.refl s, rfl⟩
  | make d w h px => exact ⟨sameRegisters_of_work s _ s.hmem _, rfl⟩
  | edit d l => exact ⟨sameRegisters_of_work s _ s.hmem s.desc, rfl⟩
  | free d => exact ⟨sameRegisters_of_work s s.tmem s.hmem _, rfl⟩
  | store l => exact ⟨sameRegisters_of_work s s.tmem _ s.desc, rfl⟩

/-- No command changes a register but STATUS and the descriptors (R30, R402). -/
theorem exec_sameRegisters {i : Instr} {s t : State} (h : exec i s = .next t) :
    SameRegisters s t := by
  rcases exec_work h with ⟨c, rfl⟩ | ⟨w, hw, rfl⟩
  · exact (SameRegisters.refl s).complete _
  · exact hw.frame.1.complete none

/-- A command ends with the completion of its STATUS, with success or with an error (R405). -/
theorem exec_status {i : Instr} {s t : State} (h : exec i s = .next t) :
    ∃ e, t.status = s.status.complete e := by
  rcases exec_work h with ⟨c, rfl⟩ | ⟨w, hw, rfl⟩
  · exact ⟨some c, rfl⟩
  · exact ⟨none, by rw [complete_status, hw.frame.2]⟩

section
variable (i : Instr) (s t : State)

@[simp] theorem applyRaces_params : (applyRaces i s t).params = t.params := by
  rcases applyRaces_eq i s t with h | h <;> rw [h]
@[simp] theorem applyRaces_status : (applyRaces i s t).status = t.status := by
  rcases applyRaces_eq i s t with h | h <;> rw [h]
@[simp] theorem applyRaces_cmd : (applyRaces i s t).cmd = t.cmd := by
  rcases applyRaces_eq i s t with h | h <;> rw [h]
@[simp] theorem applyRaces_desc : (applyRaces i s t).desc = t.desc := by
  rcases applyRaces_eq i s t with h | h <;> rw [h]
@[simp] theorem applyRaces_snap : (applyRaces i s t).snap = t.snap := by
  rcases applyRaces_eq i s t with h | h <;> rw [h]
@[simp] theorem applyRaces_lattice : (applyRaces i s t).lattice = t.lattice := by
  rcases applyRaces_eq i s t with h | h <;> rw [h]

@[simp] theorem softReset_params : s.softReset.params = s.params := by
  unfold State.softReset
  split <;> rfl
@[simp] theorem softReset_status : s.softReset.status = Status.zero := rfl
@[simp] theorem softReset_desc : s.softReset.desc = DescTable.empty := rfl
@[simp] theorem softReset_snap : s.softReset.snap = Snapshot.zero := rfl
@[simp] theorem softReset_racedTexels : s.softReset.racedTexels = [] := rfl
@[simp] theorem softReset_racedBytes : s.softReset.racedBytes = [] := rfl

/-- A soft reset leaves TMEM, or what an abandoned command leaves of it (R444). -/
theorem softReset_tmem : s.softReset.tmem = s.tmem ∨ s.softReset.tmem = s.abandon.tmem := by
  unfold State.softReset
  split
  · exact .inr rfl
  · exact .inl rfl

theorem softReset_hmem : s.softReset.hmem = s.hmem ∨
    s.softReset.hmem = abandonedHmem s.running s := by
  unfold State.softReset
  split
  · exact .inr rfl
  · exact .inl rfl

@[simp] theorem powerOn_params : s.powerOn.params = s.params := rfl
@[simp] theorem powerOn_status : s.powerOn.status = Status.zero := rfl
@[simp] theorem powerOn_desc : s.powerOn.desc = DescTable.empty := rfl
@[simp] theorem powerOn_snap : s.powerOn.snap = Snapshot.zero := rfl
@[simp] theorem powerOn_tmem : s.powerOn.tmem = [] := rfl
@[simp] theorem powerOn_racedTexels : s.powerOn.racedTexels = [] := rfl
@[simp] theorem powerOn_racedBytes : s.powerOn.racedBytes = [] := rfl

theorem powerOn_hmem : s.powerOn.hmem = s.hmem ∨ s.powerOn.hmem = abandonedHmem s.running s := by
  unfold State.powerOn
  cases s.status.busy
  · exact .inl rfl
  · exact .inr rfl

end

/-! ### Regions: the descriptors of R36 and the addresses of R91 and R93 -/

/-- The three invariants on where things lie, which need one another. -/
structure State.RegionsOk (s : State) : Prop where
  descs : s.DescsOk
  tmem : s.tmem.Each fun a _ => a < s.params.tmemTexels
  hmem : s.hmem.Each fun a _ => a < s.params.hmemSize
  races : s.RacesOk

theorem State.regionsOk_iff (s : State) :
    s.RegionsOk ↔ s.DescsOk ∧ s.AddressesOk ∧ s.RacesOk :=
  ⟨fun ⟨hd, ht, hh, hr⟩ => ⟨hd, ⟨ht, hh⟩, hr⟩, fun ⟨hd, ⟨ht, hh⟩, hr⟩ => ⟨hd, ht, hh, hr⟩⟩

theorem Desc.ok_of_invalid {p : Params} {d : Desc} (hv : d.valid = false) (hw : d.w = 0)
    (hh : d.h = 0) : d.Ok p := by
  simp [Desc.Ok, hv, hw, hh]

theorem Desc.empty_ok (p : Params) : Desc.empty.Ok p := Desc.ok_of_invalid rfl rfl rfl

/-- An empty slot has no size. -/
theorem Desc.ok_invalid_size {p : Params} {d : Desc} (h : d.Ok p) (hv : d.valid = false) :
    d.w = 0 ∧ d.h = 0 := by
  simpa [Desc.Ok, hv] using h

theorem toNat_ofNat_word {n : Nat} (h : n < 2 ^ 32) : (BitVec.ofNat 32 n).toNat = n := by
  rw [BitVec.toNat_ofNat, Nat.mod_eq_of_lt h]

/-- The number of texels of a descriptor made from two sizes. -/
theorem Desc.made_count (base : Word) {w h : Nat} (hw : w < 2 ^ 32) (hh : h < 2 ^ 32) (v : Bool) :
    Desc.count { base := base, w := BitVec.ofNat 32 w, h := BitVec.ofNat 32 h, valid := v } = w * h := by
  simp only [Desc.count, toNat_ofNat_word hw, toNat_ofNat_word hh]

/-- A new buffer that fits keeps R36. -/
theorem Desc.made_ok {p : Params} {base : Word} {w h : Nat} (hw : w < 2 ^ 32) (hh : h < 2 ^ 32)
    (h1 : 1 ≤ w ∧ 1 ≤ h) (fits : base.toNat + w * h ≤ p.tmemTexels) :
    Desc.Ok p { base := base, w := BitVec.ofNat 32 w, h := BitVec.ofNat 32 h, valid := true } := by
  simp only [Desc.Ok, if_true, Desc.made_count base hw hh, toNat_ofNat_word hw,
    toNat_ofNat_word hh]
  exact ⟨h1.1, h1.2, fits⟩

/-- Writing one good descriptor keeps the table good. -/
theorem State.DescsOk.put {s : State} (hs : s.DescsOk) {n : Slot} {d : Desc} (hd : d.Ok s.params) :
    ∀ k, ((s.desc.put n d).at k).Ok s.params := by
  intro k
  rw [DescTable.at_put]
  split
  · exact hd
  · exact (hs k).1

/-- An index of a region that ends at or below `n` is below `n`. -/
theorem region_has_lt {r : Region} {a n : Nat} (h : r.has a = true) (hr : r.base + r.count ≤ n) :
    a < n := by
  have := (Region.has_iff r a).1 h
  omega

theorem mem_indices_lt {r : Region} {a n : Nat} (h : a ∈ r.indices) (hr : r.base + r.count ≤ n) :
    a < n := region_has_lt ((Region.has_iff r a).2 ((Region.mem_indices r a).1 h)) hr

theorem State.RegionsOk.work {s w : State} (hs : s.RegionsOk) (h : Work s w) : w.RegionsOk := by
  obtain ⟨hd, ht, hh, hr⟩ := hs
  cases h with
  | same => exact ⟨hd, ht, hh, hr⟩
  | make d w h px hw hh' fits size room =>
    refine ⟨fun k => ⟨hd.put (Desc.made_ok hw hh' (size hd) fits) k, (hd k).2⟩, ?_, hh, hr⟩
    have hfits : (s.snap.desc.at d).base.toNat + w * h ≤ s.params.tmemTexels := fits
    exact ht.fill (fun p hp => by omega)
  | edit d l valid inside room =>
    exact ⟨hd, ht.writeAll (fun q hq => region_has_lt (inside q hq) (desc_size hd valid).2.2), hh, hr⟩
  | free d =>
    exact ⟨fun k => ⟨hd.put (Desc.ok_of_invalid rfl rfl rfl) k, (hd k).2⟩, ht, hh, hr⟩
  | store l inside => exact ⟨hd, ht, hh.writeAll (inside hd), hr⟩

theorem State.RegionsOk.complete {s : State} (hs : s.RegionsOk) (e : Option ErrCode) :
    (s.complete e).RegionsOk := ⟨hs.descs, hs.tmem, hs.hmem, hs.races⟩

theorem State.RegionsOk.exec {i : Instr} {s t : State} (hs : s.RegionsOk) (h : exec i s = .next t) :
    t.RegionsOk := by
  rcases exec_work h with ⟨c, rfl⟩ | ⟨w, hw, rfl⟩
  · exact hs.complete _
  · exact (hs.work hw).complete none

/-- What a race leaves at completion stays inside the memories (R453). -/
theorem State.RegionsOk.applyRaces {i : Instr} {s t : State} (hs : s.RegionsOk) (ht : t.RegionsOk)
    (hp : t.params = s.params) : (applyRaces i s t).RegionsOk := by
  rcases applyRaces_eq i s t with h | h
  · rw [h]; exact ht
  rw [h]
  refine ⟨ht.descs, ht.tmem.writeAll ?_, (ht.hmem.writeAll ?_).writeAll ?_, by simp [State.RacesOk]⟩
  · intro q hq
    obtain ⟨a, ha, rfl⟩ := List.mem_map.1 hq
    show a < t.params.tmemTexels
    rw [hp]
    rcases mem_taintedTexels ha with ha | ⟨r, hr, ha⟩
    · exact hs.races.1 a ha
    · exact region_has_lt ha (footprint_writes_fit hs.descs hr)
  · intro q hq
    obtain ⟨b, hb, hq⟩ := mem_taintedStores hq
    obtain ⟨r, hr, ha⟩ := byteStores_inside hb
    show q.1 < t.params.hmemSize
    rw [hq, hp]
    exact region_has_lt ha (footprint_hmemWrites_fit hs.descs hr)
  · intro q hq
    obtain ⟨a, ha, rfl⟩ := List.mem_map.1 hq
    show a < t.params.hmemSize
    rw [hp]
    exact hs.races.2 a ha

/-- The bytes of a stopped transfer lie in HMEM (R444). -/
theorem State.RegionsOk.abandonedHmem {s : State} (hs : s.RegionsOk) (i : Instr) :
    (abandonedHmem i s).Each fun a _ => a < s.params.hmemSize := by
  refine hs.hmem.writeAll (fun q hq => ?_)
  obtain ⟨a, ha, rfl⟩ := List.mem_map.1 hq
  rcases List.mem_append.1 ha with ha | ha
  · obtain ⟨r, hr, ha⟩ := List.mem_flatMap.1 ha
    exact mem_indices_lt ha (footprint_hmemWrites_fit hs.descs hr)
  · exact hs.races.2 a ha

/-- The texels of an abandoned command lie in TMEM (R444). -/
theorem State.RegionsOk.abandon_tmem {s : State} (hs : s.RegionsOk) :
    s.abandon.tmem.Each fun a _ => a < s.params.tmemTexels := by
  refine hs.tmem.writeAll (fun q hq => ?_)
  obtain ⟨a, ha, rfl⟩ := List.mem_map.1 hq
  rcases List.mem_append.1 ha with ha | ha
  · obtain ⟨r, hr, ha⟩ := List.mem_flatMap.1 ha
    exact mem_indices_lt ha (footprint_writes_fit hs.descs hr)
  · exact hs.races.1 a ha

theorem State.RegionsOk.softReset {s : State} (hs : s.RegionsOk) : s.softReset.RegionsOk := by
  refine ⟨fun n => ?_, ?_, ?_, by simp [State.RacesOk]⟩
  · simp [Snapshot.zero, Desc.empty_ok]
  · rw [softReset_params]
    rcases softReset_tmem s with h | h <;> rw [h]
    · exact hs.tmem
    · exact hs.abandon_tmem
  · rw [softReset_params]
    rcases softReset_hmem s with h | h <;> rw [h]
    · exact hs.hmem
    · exact hs.abandonedHmem _

theorem State.RegionsOk.powerOn {s : State} (hs : s.RegionsOk) : s.powerOn.RegionsOk := by
  refine ⟨fun n => ?_, ?_, ?_, by simp [State.RacesOk]⟩
  · simp [Snapshot.zero, Desc.empty_ok]
  · exact Memory.each_nil
  · rcases powerOn_hmem s with h | h <;> rw [h]
    · exact hs.hmem
    · exact hs.abandonedHmem _

theorem State.RegionsOk.move {s t : State} (h : Move s t) (hs : s.RegionsOk) : t.RegionsOk := by
  obtain ⟨hd, ht, hh, hr⟩ := id hs
  cases h with
  | run t hready hbusy h => exact hs.applyRaces (hs.exec h) (exec_sameRegisters h).params
  | accept c hb => exact ⟨fun n => ⟨(hd n).1, (hd n).1⟩, ht, hh, by simp [State.RacesOk]⟩
  | base n v hv =>
    obtain ⟨hw, hhe⟩ := Desc.ok_invalid_size (hd n).1 hv
    have hmoved : Desc.Ok s.params { (s.desc.at n) with base := v } := Desc.ok_of_invalid hv hw hhe
    exact ⟨fun k => ⟨hd.put hmoved k, (hd k).2⟩, ht, hh, hr⟩
  | texel a t ha => exact ⟨hd, ht.write ha, hh, hr⟩
  | raceTexel a ha => exact ⟨hd, ht, hh, List.forall_mem_cons.2 ⟨ha, hr.1⟩, hr.2⟩
  | byte a v ha => exact ⟨hd, ht, hh.write ha, hr⟩
  | raceByte a ha => exact ⟨hd, ht, hh, hr.1, List.forall_mem_cons.2 ⟨ha, hr.2⟩⟩
  | soft => exact hs.softReset
  | power => exact hs.powerOn
  | _ => exact ⟨hd, ht, hh, hr⟩

/-- Settles O57: the three invariants together are kept by every move of a step. -/
theorem stepKeepsRegions : Obligations.StepKeepsRegions := by
  intro s t hd ha hr h
  have hs : s.RegionsOk := s.regionsOk_iff.2 ⟨hd, ha, hr⟩
  exact t.regionsOk_iff.1 (step_keeps (fun _ _ => State.RegionsOk.move) h hs)

/-! ### Headroom and written buffers (R32, R72) -/

/-- Every texel of every valid buffer of the table has been written. -/
def DescTable.Written (t : DescTable) (m : Memory Texel) : Prop :=
  ∀ (n : Slot) (p : Nat), (t.at n).valid = true → p < (t.at n).count →
    (m.find ((t.at n).base.toNat + p)).isSome = true

theorem DescTable.Written.writeAll {t : DescTable} {m : Memory Texel} (h : t.Written m)
    (l : List (Nat × Texel)) : t.Written (m.writeAll l) :=
  fun n p hv hp => Memory.find_writeAll_isSome (h n p hv hp) l

theorem DescTable.empty_written (m : Memory Texel) : DescTable.empty.Written m := by
  intro n p hv
  rw [DescTable.at_empty] at hv
  cases hv

/-- A new descriptor keeps the table written if it is empty or its own texels have been written. -/
theorem DescTable.Written.put {t : DescTable} {m : Memory Texel} (h : t.Written m) {n : Slot}
    {d : Desc} (hd : d.valid = true → ∀ p, p < d.count → (m.find (d.base.toNat + p)).isSome = true) :
    (t.put n d).Written m := by
  intro k p
  rw [DescTable.at_put]
  split
  · exact fun hv => hd hv p
  · exact h k p

/-- The two invariants of R32 and R72, which need each other. -/
structure State.TexelsOk (s : State) : Prop where
  room : s.tmem.Each fun _ t => t &&& headroomMask = t
  live : s.desc.Written s.tmem
  snap : s.snap.desc.Written s.tmem

theorem State.texelsOk_iff (s : State) : s.TexelsOk ↔ s.HeadroomOk ∧ s.RegionsWritten :=
  ⟨fun ⟨hr, hl, hs⟩ => ⟨hr, fun n p => ⟨hl n p, hs n p⟩⟩,
    fun ⟨hr, hw⟩ => ⟨hr, fun n p => (hw n p).1, fun n p => (hw n p).2⟩⟩

/-- Storing texels that keep the headroom keeps both. -/
theorem State.TexelsOk.writeAll {s : State} (hs : s.TexelsOk) {l : List (Nat × Texel)}
    (hl : ∀ q ∈ l, q.2 &&& headroomMask = q.2) : State.TexelsOk { s with tmem := s.tmem.writeAll l } :=
  ⟨hs.room.writeAll hl, hs.live.writeAll l, hs.snap.writeAll l⟩

theorem State.TexelsOk.work {s w : State} (hs : s.TexelsOk) (h : Work s w) : w.TexelsOk := by
  obtain ⟨hh, hw⟩ := s.texelsOk_iff.1 hs
  have hroom : SnapHeadroom s := snapHeadroom_of hh hw
  cases h with
  | same => exact hs
  | make d w h px hw hh fits size room =>
    have hf := hs.writeAll (l := consecutive (s.snap.desc.at d).base.toNat (w * h)
      (fun p => px (p % w) (p / w))) (fun q hq => by
        obtain ⟨p, hp, rfl⟩ := List.mem_map.1 hq
        exact room hroom p (List.mem_range.1 hp))
    refine ⟨hf.room, hf.live.put (fun _ p hp => ?_), hf.snap⟩
    rw [Desc.made_count _ hw hh] at hp
    exact Option.isSome_iff_exists.2 ⟨_, Memory.find_fill_at _ _ _ _ _ hp⟩
  | edit d l valid inside room => exact hs.writeAll (room hroom)
  | free d => exact ⟨hs.room, hs.live.put (fun hv => by cases hv), hs.snap⟩
  | store l inside => exact ⟨hs.room, hs.live, hs.snap⟩

theorem State.TexelsOk.exec {i : Instr} {s t : State} (hs : s.TexelsOk) (h : exec i s = .next t) :
    t.TexelsOk := by
  rcases exec_work h with ⟨c, rfl⟩ | ⟨w, hw, rfl⟩
  · exact ⟨hs.room, hs.live, hs.snap⟩
  · obtain ⟨hr, hl, hsn⟩ := hs.work hw
    exact ⟨hr, hl, hsn⟩

theorem State.TexelsOk.applyRaces {t : State} (ht : t.TexelsOk) (i : Instr) (s : State) :
    (applyRaces i s t).TexelsOk := by
  rcases applyRaces_eq i s t with h | h
  · rw [h]; exact ht
  · have hw := ht.writeAll (l := (taintedTexels i s).map (fun a => (a, freeStored (s.draws + 1) a)))
      (fun q hq => by
        obtain ⟨a, -, rfl⟩ := List.mem_map.1 hq
        exact headroom_freeStored _ _)
    rw [h]
    exact ⟨hw.room, hw.live, hw.snap⟩

theorem State.TexelsOk.softReset {s : State} (hs : s.TexelsOk) : s.softReset.TexelsOk := by
  refine ⟨?_, DescTable.empty_written _, DescTable.empty_written _⟩
  rcases softReset_tmem s with h | h <;> rw [h]
  · exact hs.room
  · refine hs.room.writeAll (fun q hq => ?_)
    obtain ⟨a, -, rfl⟩ := List.mem_map.1 hq
    exact headroom_abandonedTexel _ _ _

theorem State.TexelsOk.move {s t : State} (h : Move s t) (hs : s.TexelsOk) : t.TexelsOk := by
  cases h with
  | run t hready hbusy h => exact (hs.exec h).applyRaces _ _
  | accept c hb => exact ⟨hs.room, hs.live, hs.live⟩
  | base n v hv =>
    exact ⟨hs.room, hs.live.put (fun hv' => (Bool.false_ne_true (hv.symm.trans hv')).elim), hs.snap⟩
  | texel a t ha ht => exact hs.writeAll (l := [(a, t)]) (by simpa using ht)
  | soft => exact hs.softReset
  | power => exact ⟨Memory.each_nil, DescTable.empty_written _, DescTable.empty_written _⟩
  | _ => exact ⟨hs.room, hs.live, hs.snap⟩

/-- Settles O58: a texel is stored masked or by a command that keeps the headroom, and no step forgets
a texel of a buffer that stays valid. -/
theorem stepKeepsHeadroom : Obligations.StepKeepsHeadroom := by
  intro s t hh hw h
  have hs : s.TexelsOk := s.texelsOk_iff.2 ⟨hh, hw⟩
  exact t.texelsOk_iff.1 (step_keeps (fun _ _ => State.TexelsOk.move) h hs)

/-! ### STATUS, the lattice and the snapshot (R44, R45, R64, R65, R69) -/

/-- What STATUS can hold, as a property of STATUS alone. -/
structure Status.Legal (st : Status) : Prop where
  code : st.err = false ↔ st.errcode = 0
  bound : st.errcode.toNat ≤ 7
  running : st.busy = true → st.done = false ∧ st.err = false

theorem Status.zero_legal : Status.zero.Legal := ⟨by decide, by decide, by decide⟩

theorem Status.accept_legal (st : Status) : st.accept.Legal :=
  ⟨by simp [Status.accept], by simp [Status.accept], fun _ => ⟨rfl, rfl⟩⟩

theorem Status.Legal.complete {st : Status} (h : st.Legal) (e : Option ErrCode) :
    (st.complete e).Legal := by
  cases e with
  | none => exact ⟨h.code, h.bound, fun hb => by cases hb⟩
  | some e =>
    refine ⟨?_, ?_, fun hb => by cases hb⟩
    · cases e <;> simp [Status.complete, ErrCode.code]
    · cases e <;> simp [Status.complete, ErrCode.code]

/-- A STATUS write clears ERR and ERRCODE together or leaves both (R44, R411). -/
theorem Status.ack_err (st : Status) (m : StepMarks) (v : Word) :
    ((st.ack m v).err = false ∧ (st.ack m v).errcode = 0) ∨
      ((st.ack m v).err = st.err ∧ (st.ack m v).errcode = st.errcode) := by
  simp only [Status.ack]
  cases v.getLsbD 2 <;> cases m.err <;> simp

theorem Status.Legal.ack {st : Status} (h : st.Legal) (m : StepMarks) (v : Word) :
    (st.ack m v).Legal := by
  have hrun : (st.ack m v).busy = true → (st.ack m v).done = false := fun hb => by
    simp [Status.ack, (h.running hb).1]
  rcases Status.ack_err st m v with ⟨he, hc⟩ | ⟨he, hc⟩
  · exact ⟨by simp [he, hc], by simp [hc], fun hb => ⟨hrun hb, he⟩⟩
  · exact ⟨by rw [he, hc]; exact h.code, by rw [hc]; exact h.bound,
      fun hb => ⟨hrun hb, by rw [he]; exact (h.running hb).2⟩⟩

/-- The invariants of STATUS, the lattice RAM and the snapshot, for a machine of parameters `p`. -/
structure State.ControlOk (p : Params) (s : State) : Prop where
  status : s.status.Legal
  lattice : s.LatticeOk
  snapshot : s.SnapshotOk
  params : s.params = p

theorem State.controlOk_iff (p : Params) (s : State) :
    s.ControlOk p ↔ s.StatusOk ∧ s.LatticeOk ∧ s.SnapshotOk ∧ s.params = p :=
  ⟨fun ⟨⟨h1, h2, h3⟩, hl, hs, hp⟩ => ⟨⟨h1, h2, h3⟩, hl, hs, hp⟩,
    fun ⟨⟨h1, h2, h3⟩, hl, hs, hp⟩ => ⟨⟨h1, h2, h3⟩, hl, hs, hp⟩⟩

/-- A completion, with what races leave, keeps them: it ends BUSY and touches nothing else of them. -/
theorem State.ControlOk.run {p : Params} {i : Instr} {s t : State} (hs : s.ControlOk p)
    (hr : s.status.latticeReady = true) (h : Machine.exec i s = .next t) :
    (Machine.applyRaces i s t).ControlOk p := by
  obtain ⟨e, he⟩ := exec_status h
  have hreg := exec_sameRegisters h
  refine ⟨?_, ?_, ?_, ?_⟩
  · rw [applyRaces_status, he]; exact hs.status.complete e
  · intro _
    rw [applyRaces_lattice, applyRaces_params, hreg.lattice, hreg.params]
    exact hs.lattice hr
  · intro hb
    rw [applyRaces_status, he] at hb
    cases e <;> cases hb
  · rw [applyRaces_params, hreg.params]; exact hs.params

theorem State.ControlOk.move {p : Params} {s t : State} (h : Move s t) (hs : s.ControlOk p) :
    t.ControlOk p := by
  obtain ⟨hst, hl, hsn, hp⟩ := id hs
  cases h with
  | build h => exact ⟨⟨hst.code, hst.bound, hst.running⟩, fun _ => rfl, hsn, hp⟩
  | run t hready hbusy h => exact hs.run hready h
  | ack m v => exact ⟨hst.ack m v, hl, hsn, hp⟩
  | overrun hb => exact ⟨⟨hst.code, hst.bound, hst.running⟩, hl, hsn, hp⟩
  | accept c hb => exact ⟨s.status.accept_legal, hl, fun _ => rfl, hp⟩
  | soft =>
    exact ⟨Status.zero_legal, fun hr => (Bool.false_ne_true hr).elim,
      fun hb => (Bool.false_ne_true hb).elim, (softReset_params s).trans hp⟩
  | power => exact ⟨Status.zero_legal, fun hr => (Bool.false_ne_true hr).elim,
      fun hb => (Bool.false_ne_true hb).elim, hp⟩
  | _ => exact ⟨hst, hl, hsn, hp⟩

/-- Settles O59: every move of a step keeps the invariants, and none changes the parameters. -/
theorem stepKeepsStatus : Obligations.StepKeepsStatus := by
  intro s t hst hl hsn h
  have hs : s.ControlOk s.params := (s.controlOk_iff _).2 ⟨hst, hl, hsn, rfl⟩
  exact (t.controlOk_iff _).1 (step_keeps (fun _ _ => State.ControlOk.move) h hs)

end Sys2Proof.Machine
end

section
/-! PROOFS. The register map and what one access of the window reads and writes (R37, R40 to R49, R55, R92,
R441). -/

namespace Sys2Proof.Machine

/-! ### Bits of a word -/

/-- Two words that agree under a mask agree at every bit of the mask. -/
theorem getLsbD_eq_of_masked {v v' k : Word} (h : v &&& k = v' &&& k) {i : Nat}
    (hk : k.getLsbD i = true) : v.getLsbD i = v'.getLsbD i := by
  have hi := congrArg (BitVec.getLsbD · i) h
  simpa [hk] using hi

theorem eq_of_masked_full {v v' : Word} (h : v &&& 0xFFFFFFFF = v' &&& 0xFFFFFFFF) : v = v' := by
  have hones : (0xFFFFFFFF : Word) = BitVec.allOnes 32 := rfl
  rwa [hones, BitVec.and_allOnes, BitVec.and_allOnes] at h

/-- The low byte of a word is what the mask 0xFF keeps of it. -/
theorem setWidth_byte_eq_and (v : Word) : (v.setWidth 8).setWidth 32 = v &&& 0xFF := by
  apply BitVec.eq_of_toNat_eq
  have hlow : v.toNat &&& 0xFF = v.toNat % 2 ^ 8 := Nat.and_two_pow_sub_one_eq_mod v.toNat 8
  have hand : (v &&& 0xFF).toNat = v.toNat &&& 0xFF := rfl
  rw [hand, hlow, BitVec.toNat_setWidth, BitVec.toNat_setWidth]
  omega

theorem setWidth_byte_eq_of_masked {v v' : Word} (h : v &&& 0xFF = v' &&& 0xFF) :
    v.setWidth 8 = v'.setWidth 8 := by
  rw [← setWidth_byte_eq_and, ← setWidth_byte_eq_and] at h
  simpa using congrArg (BitVec.setWidth 8) h

/-- A byte shown in a word has nothing above bit 7. -/
theorem byte_word_and (b : Byte) : (b.setWidth 32 : Word) &&& ~~~0x000000FF = 0 := by
  revert b; decide +kernel

/-- A flag shown in a word is bit 0 and nothing above it. -/
theorem flag_word_and (b : Bool) : ((BitVec.ofBool b).setWidth 32 : Word) &&& ~~~0x00000001 = 0 := by
  cases b <;> rfl

theorem flag_word_eq (b : Bool) : ((BitVec.ofBool b).setWidth 32 : Word) = if b then 1 else 0 := by
  cases b <;> rfl

/-! ### Offsets (R40, R49, R55) -/

theorem ofNat_slot_offset (k : Nat) (hk : k < 0x400) (n : Slot) :
    (BitVec.ofNat 12 (k + 16 * n.toNat)).toNat = k + 16 * n.toNat := by
  have := n.isLt
  rw [BitVec.toNat_ofNat]
  omega

/-- Every register is found at its offset. -/
theorem regAt_offset (r : Reg) : regAt r.offset = some r := by
  cases r with
  | param p => cases p <;> rfl
  | descBase n => revert n; decide
  | descW n => revert n; decide
  | descH n => revert n; decide
  | descStat n => revert n; decide
  | _ => rfl

/-- The parameter register number k is the one at offset 0x020 + 4k. -/
theorem Param.offset_of_getElem? {k : Nat} {p : Param} (h : Param.all[k]? = some p) :
    p.offset = 0x020 + 4 * k := by
  have hnodup : Param.all.Nodup := by decide
  obtain ⟨hk, rfl⟩ := List.getElem?_eq_some_iff.1 h
  rw [Param.offset, hnodup.idxOf_getElem]

theorem descRegAt_offset {n : Slot} {b : Nat} {r : Reg} (h : descRegAt n b = some r) :
    r.offset.toNat = 0x100 + 16 * n.toNat + b := by
  unfold descRegAt at h
  iterate 4
    split at h
    · cases h; rw [Reg.offset, ofNat_slot_offset _ (by decide)]; omega
  cases h

/-- No other offset holds a register. -/
theorem offset_of_regAt {off : BitVec 12} {r : Reg} (h : regAt off = some r) : r.offset = off := by
  apply BitVec.eq_of_toNat_eq
  have hoff := off.isLt
  unfold regAt at h
  rw [ite_eq_iff] at h
  obtain ⟨-, h⟩ | ⟨h4, h⟩ := h
  · cases h
  iterate 7
    rw [ite_eq_iff] at h
    obtain ⟨ho, h⟩ | ⟨-, h⟩ := h
    · cases h; exact ho.symm
  rw [ite_eq_iff] at h
  obtain ⟨hpar, h⟩ | ⟨-, h⟩ := h
  · obtain ⟨p, hp, rfl⟩ := Option.map_eq_some_iff.1 h
    rw [Reg.offset, Param.offset_of_getElem? hp, BitVec.toNat_ofNat]
    omega
  rw [ite_eq_iff] at h
  obtain ⟨hdesc, h⟩ | ⟨-, h⟩ := h
  · rw [descRegAt_offset h, BitVec.toNat_ofNat]
    omega
  · cases h

/-- Every register stands at a multiple of 4 outside the reserved offsets. -/
theorem offset_defined (r : Reg) : ¬(r.offset.toNat % 4 ≠ 0 ∨ r.offset = 0x01C ∨
    (0x084 ≤ r.offset.toNat ∧ r.offset.toNat ≤ 0x0FF) ∨ 0x200 ≤ r.offset.toNat) := by
  cases r with
  | param p => cases p <;> decide
  | descBase n => revert n; decide
  | descW n => revert n; decide
  | descH n => revert n; decide
  | descStat n => revert n; decide
  | _ => decide

/-- A reserved or misaligned offset holds no register. -/
theorem regAt_reserved {off : BitVec 12} (h : off.toNat % 4 ≠ 0 ∨ off = 0x01C ∨
    (0x084 ≤ off.toNat ∧ off.toNat ≤ 0x0FF) ∨ 0x200 ≤ off.toNat) : regAt off = none := by
  cases hr : regAt off with
  | none => rfl
  | some r =>
    rw [← offset_of_regAt hr] at h
    exact (offset_defined r h).elim

/-! ### Accesses that reach no register (R41, R92) -/

theorem windowWrite_ignored {off : BitVec 12} {z : AccessSize} (h : z ≠ .b32 ∨ regAt off = none)
    (rst : Bool) (m : StepMarks) (s : State) (v : Word) : windowWrite rst m s off z v = (s, m) := by
  unfold windowWrite
  split
  · next hr => simp [hr] at h
  · rfl

theorem windowRead_zero {off : BitVec 12} {z : AccessSize} (h : z ≠ .b32 ∨ regAt off = none)
    (s : State) : windowRead s off z = { s with hostReads := s.hostReads ++ [0] } := by
  unfold windowRead
  split
  · next hr => simp [hr] at h
  · rfl

/-! ### STATUS (R44) -/

/-- STATUS as a word, bit by bit and field by field, with nothing in its reserved bits. -/
theorem Status.word_bits (st : Status) :
    st.word.getLsbD 0 = st.busy ∧ st.word.getLsbD 1 = st.done ∧ st.word.getLsbD 2 = st.err ∧
      st.word.getLsbD 3 = st.overrun ∧ st.word.getLsbD 4 = st.latticeReady ∧
      st.word.extractLsb' 8 4 = st.errcode ∧ st.word.extractLsb' 12 20 = 0 ∧
      st.word.extractLsb' 5 3 = 0 ∧ st.word &&& ~~~0x00000F1F = 0 := by
  obtain ⟨busy, done, err, overrun, ready, code⟩ := st
  revert busy done err overrun ready code
  decide +kernel

/-- Where the engine sets nothing in the step, each 1 clears its own flag and no other (R44). -/
theorem Status.ack_none (st : Status) (v : Word) : st.ack StepMarks.none v =
    { busy := st.busy
      done := if v.getLsbD 1 then false else st.done
      err := if v.getLsbD 2 then false else st.err
      overrun := if v.getLsbD 3 then false else st.overrun
      latticeReady := st.latticeReady
      errcode := if v.getLsbD 2 then 0 else st.errcode } := by
  simp only [Status.ack, StepMarks.none]
  cases v.getLsbD 1 <;> cases v.getLsbD 2 <;> cases v.getLsbD 3 <;> simp

/-- Settles O13, from the bits of the word and from what a write clears. -/
theorem statusReadAndWrite : Obligations.StatusReadAndWrite := by
  intro s v
  obtain ⟨hbusy, hdone, herr, hover, hready, hcode, hhigh, hlow, -⟩ := s.status.word_bits
  refine ⟨hbusy, hdone, herr, hover, hready, hcode, hhigh, hlow, ?_⟩
  rw [← Status.ack_none]
  rfl

/-! ### Parameter registers (R49) -/

/-- What a parameter register keeps of a word written to it. -/
def Param.kept : Param → Word → Word
  | .freq, v => (v.setWidth 8).setWidth 32
  | .oct, v => (v.setWidth 8).setWidth 32
  | .seed, v => (v.setWidth 8).setWidth 32
  | _, v => v

/-- The rule of the parameter file: a read after a write, of the same register and of another one. -/
theorem ParamRegs.get_put (par : ParamRegs) (p q : Param) (v : Word) :
    (par.put p v).get q = if q = p then p.kept v else par.get q := by
  cases p <;> cases q <;> rfl

theorem Param.kept_eq (p : Param) (v : Word) :
    p.kept v = if p = .freq ∨ p = .oct ∨ p = .seed then v &&& 0xFF else v := by
  cases p with
  | freq => exact setWidth_byte_eq_and v
  | oct => exact setWidth_byte_eq_and v
  | seed => exact setWidth_byte_eq_and v
  | _ => rfl

/-- Settles O18, by the rule of the parameter file. -/
theorem paramWriteRead : Obligations.ParamWriteRead := by
  intro s m p q v
  refine ⟨?_, fun hq => ?_, rfl⟩
  · show (s.par.put p v).get p = _
    rw [ParamRegs.get_put, if_pos rfl, Param.kept_eq]
  · show (s.par.put p v).get q = s.par.get q
    rw [ParamRegs.get_put, if_neg hq]

/-! ### Descriptor registers (R37) -/

theorem writeReg_descBase_valid {s : State} {n : Slot} (hv : (s.desc.at n).valid = true) (rst : Bool)
    (m : StepMarks) (v : Word) : writeReg rst m s (.descBase n) v = (s, m) := by
  simp only [writeReg, hv, if_true]

theorem writeReg_descBase_empty {s : State} {n : Slot} (hv : (s.desc.at n).valid = false) (rst : Bool)
    (m : StepMarks) (v : Word) : writeReg rst m s (.descBase n) v =
      ({ s with desc := s.desc.put n { (s.desc.at n) with base := v } }, m) := by
  simp only [writeReg, hv, Bool.false_eq_true, if_false]

/-- Settles O17: the two branches of a write of BASE, and the read-only registers of the group. -/
theorem descBaseWrite : Obligations.DescBaseWrite := by
  intro s m n v
  refine ⟨fun hv => ?_, fun hv => ?_, rfl, rfl, rfl⟩
  · rw [writeReg_descBase_valid hv]
  · rw [writeReg_descBase_empty hv]
    exact ⟨_, rfl, DescTable.at_put_same _ _ _, fun k hk => DescTable.at_put_other _ _ hk, rfl⟩

/-! ### CMD (R45) -/

theorem writeReg_cmd_idle {s : State} (hb : s.status.busy = false) (m : StepMarks) (c : Word) :
    writeReg false m s .cmd c = (s.accept c, m) := by
  simp only [writeReg, writeCmd, hb, Bool.false_eq_true, if_false]

theorem writeReg_cmd_busy {s : State} (hb : s.status.busy = true) (m : StepMarks) (c : Word) :
    writeReg false m s .cmd c =
      ({ s with status := { s.status with overrun := true } }, { m with overrun := true }) := by
  simp only [writeReg, writeCmd, hb, Bool.false_eq_true, if_false, if_true]

/-- Settles O15: an accept when idle, a dropped write while busy, and CMD at reset. -/
theorem cmdWrite : Obligations.CmdWrite := by
  refine ⟨fun s m c hb => ?_, fun s m c hb => ?_, rfl⟩
  · refine ⟨s.accept c, by rw [writeReg_cmd_idle hb], rfl, ⟨rfl, rfl, rfl, rfl⟩, rfl, rfl, rfl, rfl,
      rfl, rfl, rfl, rfl, rfl, rfl, rfl, rfl, rfl, rfl⟩
  · rw [writeReg_cmd_busy hb]

/-! ### The access rules (R41) -/

/-- A read shows no reserved bit. -/
theorem readReg_reservedBits (s : State) (r : Reg) : (readReg s r).1 &&& ~~~readBits r = 0 := by
  have hfull : ∀ v : Word, v &&& ~~~0xFFFFFFFF = 0 := fun v => BitVec.and_zero
  cases r with
  | ctrl => exact flag_word_and _
  | status =>
    obtain ⟨-, -, -, -, -, -, -, -, hreserved⟩ := s.status.word_bits
    exact hreserved
  | descStat n => exact flag_word_and _
  | param p =>
    cases p with
    | freq => exact byte_word_and _
    | oct => exact byte_word_and _
    | seed => exact byte_word_and _
    | _ => exact hfull _
  | _ => exact hfull _

theorem ParamRegs.put_congr (par : ParamRegs) (p : Param) {v v' : Word}
    (h : v &&& writeBits (.param p) = v' &&& writeBits (.param p)) : par.put p v = par.put p v' := by
  cases p with
  | freq => simp only [ParamRegs.put, setWidth_byte_eq_of_masked h]
  | oct => simp only [ParamRegs.put, setWidth_byte_eq_of_masked h]
  | seed => simp only [ParamRegs.put, setWidth_byte_eq_of_masked h]
  | _ => rw [eq_of_masked_full h]

/-- A write looks at no reserved bit. -/
theorem writeReg_congr (rst : Bool) (m : StepMarks) (s : State) (r : Reg) {v v' : Word}
    (h : v &&& writeBits r = v' &&& writeBits r) : writeReg rst m s r v = writeReg rst m s r v' := by
  cases r with
  | id => rfl
  | ctrl =>
    simp only [writeReg, getLsbD_eq_of_masked h (i := 0) rfl, getLsbD_eq_of_masked h (i := 1) rfl]
  | status =>
    simp only [writeReg, Status.ack, getLsbD_eq_of_masked h (i := 1) rfl,
      getLsbD_eq_of_masked h (i := 2) rfl, getLsbD_eq_of_masked h (i := 3) rfl]
  | param p => simp only [writeReg, s.par.put_congr p h]
  | descW n => rfl
  | descH n => rfl
  | descStat n => rfl
  | _ => rw [eq_of_masked_full h]

theorem writeReg_readOnly (rst : Bool) (m : StepMarks) (s : State) {r : Reg} (v : Word)
    (h : writeBits r = 0) : writeReg rst m s r v = (s, m) := by
  cases r with
  | id => rfl
  | descW n => rfl
  | descH n => rfl
  | descStat n => rfl
  | param p => cases p <;> cases h
  | _ => cases h

/-- Only the two data registers have a read with a side effect. -/
theorem readReg_state (s : State) {r : Reg} (hlo : r ≠ .tdataLo) (hhi : r ≠ .tdataHi) :
    (readReg s r).2 = s := by
  cases r with
  | tdataLo => exact (hlo rfl).elim
  | tdataHi => exact (hhi rfl).elim
  | _ => rfl

/-- Settles O11, one rule of R41 after the other. -/
theorem windowRules : Obligations.WindowRules := by
  refine ⟨fun s m rst off z v h => ?_, readReg_reservedBits,
    fun s m rst r v v' h => writeReg_congr rst m s r h,
    fun s m rst r v h => writeReg_readOnly rst m s v h,
    fun s r hlo hhi => readReg_state s hlo hhi⟩
  have hmiss : z ≠ .b32 ∨ regAt off = none := h.imp_right regAt_reserved
  exact ⟨windowWrite_ignored hmiss rst m s v, windowRead_zero hmiss s⟩

/-! ### Reset (R441) -/

/-- Settles O6: the reset state, register by register. -/
theorem resetValues : Obligations.ResetValues := by
  refine ⟨rfl, fun r hid hlo => ?_, ?_, rfl, rfl, fun a => rfl⟩
  · cases r with
    | id => exact (hid rfl).elim
    | tdataLo => exact (hlo rfl).elim
    | param p => cases p <;> rfl
    | descBase n => exact congrArg Desc.base (DescTable.at_empty n)
    | descW n => exact congrArg Desc.w (DescTable.at_empty n)
    | descH n => exact congrArg Desc.h (DescTable.at_empty n)
    | descStat n =>
      show ((BitVec.ofBool (DescTable.empty.at n).valid).setWidth 32 : Word) = 0
      rw [DescTable.at_empty]
      rfl
    | _ => rfl
  · exact ⟨rfl, rfl, rfl, rfl, rfl, rfl, rfl, DescTable.at_empty⟩

/-! ### The window on the system bus (R100) -/

/-- A step depends on the queue only through what its first entry is to the register port. -/
theorem step_congr_hostq (s : State) {c c' : HostCycle} (q : List HostCycle)
    (h : c.atPort s.params.hmsynBase = c'.atPort s.params.hmsynBase) :
    step { s with hostq := c :: q } = step { s with hostq := c' :: q } := by
  have hnext : State.nextCycle { s with hostq := c :: q } = State.nextCycle { s with hostq := c' :: q } := h
  simp only [step, machineStep, hnext]
  rfl

/-- Accesses of the system bus that are left at the port do nothing. -/
theorem hostTick_outside (rst : Bool) (a a' : Nat) (z z' : AccessSize) (v : Word) (m : StepMarks)
    (s : State) : hostTick rst (.accesses [.busRead a z, .busWrite a' z' v]) m s =
      hostTick rst (.accesses []) m s := rfl

theorem step_outside (s : State) {a a' : Nat} (z z' : AccessSize) (v : Word) (q : List HostCycle)
    (ha : a < s.params.hmsynBase ∨ s.params.hmsynBase + 4096 ≤ a)
    (ha' : a' < s.params.hmsynBase ∨ s.params.hmsynBase + 4096 ≤ a') :
    step { s with hostq := .accesses [.busRead a z, .busWrite a' z' v] :: q } =
      step { s with hostq := .accesses [] :: q } := by
  have hnext : State.nextCycle { s with hostq := .accesses [.busRead a z, .busWrite a' z' v] :: q } =
      .accesses [.busRead a z, .busWrite a' z' v] := by
    show HostCycle.accesses [_, _] = _
    rw [HostOp.atPort_busRead_outside z ha, HostOp.atPort_busWrite_outside z' v ha']
  have hnil : State.nextCycle { s with hostq := .accesses [] :: q } = .accesses [] := rfl
  simp only [step, machineStep, hnext, hnil, hostTick_outside]
  rfl

/-! ### The register map (R40, R42, R43, R46, R49, R55) -/

/-- The table of R49 lists every parameter register with its offset and what a read of it shows. -/
theorem paramMap_eq :
    paramMap = Param.all.map (fun p => (Reg.offset (.param p), p, fun par => par.get p)) := rfl

theorem Param.mem_all (p : Param) : p ∈ Param.all := by
  cases p <;> decide

theorem writeReg_ctrl {v : Word} (h : v.getLsbD 1 = false) (rst : Bool) (m : StepMarks) (s : State) :
    writeReg rst m s .ctrl v = ({ s with irqEn := v.getLsbD 0 }, m) := by
  simp only [writeReg, h, Bool.false_eq_true, if_false]

/-- Settles O12, from the map of offsets, the reads, the two writes and the system bus. -/
theorem registerMap : Obligations.RegisterMap := by
  refine ⟨rfl, rfl, rfl, rfl, rfl, rfl, rfl, fun e he => ?_, fun p => ?_, fun n => ?_,
    regAt_offset, fun off r => offset_of_regAt, fun s n => ?_, fun s m rst v => ?_, ?_⟩
  · rw [paramMap_eq] at he
    obtain ⟨p, -, rfl⟩ := List.mem_map.1 he
    exact ⟨rfl, regAt_offset _, fun s => rfl⟩
  · rw [paramMap_eq]
    exact ⟨_, List.mem_map.2 ⟨p, p.mem_all, rfl⟩, rfl⟩
  · exact ⟨ofNat_slot_offset _ (by decide) n, ofNat_slot_offset _ (by decide) n,
      ofNat_slot_offset _ (by decide) n, ofNat_slot_offset _ (by decide) n⟩
  · refine ⟨rfl, ?_, rfl, rfl, rfl, rfl, rfl, ?_⟩
    · rw [readReg, flag_word_eq]
    · rw [readReg, flag_word_eq]
  · exact ⟨fun h => writeReg_ctrl h rst m s, rfl⟩
  · intro s off off' a a' z z' v q
    refine ⟨step_congr_hostq s q ?_, fun ha ha' => step_outside s z z' v q ha ha'⟩
    simp

end Sys2Proof.Machine
end

section
/-! PROOFS. The texel port (R46 to R48, R453), the lattice build (R65, R442), and what a command reads (R64,
R69, R452). -/

namespace Sys2Proof.Machine

/-! ### The halves of a texel -/

theorem getLsbD_halves (hi lo : Word) (i : Nat) :
    (hi ++ lo : BitVec 64).getLsbD i = if i < 32 then lo.getLsbD i else hi.getLsbD (i - 32) :=
  BitVec.getLsbD_append

theorem extractLo_append (hi lo : Word) : (hi ++ lo : BitVec 64).extractLsb' 0 32 = lo := by
  apply BitVec.eq_of_getLsbD_eq
  intro i hlt
  simp [getLsbD_halves, hlt]

theorem extractHi_append (hi lo : Word) : (hi ++ lo : BitVec 64).extractLsb' 32 32 = hi := by
  apply BitVec.eq_of_getLsbD_eq
  intro i hlt
  simp [getLsbD_halves, hlt]

/-- The two data registers show a masked texel as its two masked halves (R47, R48). -/
theorem masked_halves (hi lo : Word) :
    ((hi ++ lo : BitVec 64) &&& headroomMask).extractLsb' 0 32 = lo &&& 0x7FFF7FFF#32 ∧
      ((hi ++ lo : BitVec 64) &&& headroomMask).extractLsb' 32 32 = hi &&& 0x7FFF7FFF#32 := by
  rw [BitVec.extractLsb'_and, BitVec.extractLsb'_and, extractLo_append, extractHi_append]
  exact ⟨rfl, rfl⟩

/-! ### One access of the texel port -/

section
variable {s : State} {a : Nat}

theorem hostTexel_outside (h : s.params.tmemTexels ≤ a) : hostTexel s a = (0, s.draws) := by
  rw [hostTexel, if_pos h]

theorem hostTexel_inFlight (h : a < s.params.tmemTexels) (hf : s.texelInFlight a = true) :
    hostTexel s a = (freeStored s.draws a, s.draws + 1) := by
  rw [hostTexel, if_neg (Nat.not_le.2 h), if_pos hf]

theorem hostTexel_listed {t : Texel} (h : a < s.params.tmemTexels) (hf : s.texelInFlight a = false)
    (ht : s.tmem.find a = some t) : hostTexel s a = (t, s.draws) := by
  simp only [hostTexel, if_neg (Nat.not_le.2 h), hf, Bool.false_eq_true, if_false, ht]

theorem hostTexel_unwritten (h : a < s.params.tmemTexels) (hf : s.texelInFlight a = false)
    (ht : s.tmem.find a = none) : hostTexel s a = (Config.freeTexel s.draws a, s.draws + 1) := by
  simp only [hostTexel, if_neg (Nat.not_le.2 h), hf, Bool.false_eq_true, if_false, ht]

theorem hostStoreTexel_outside (t : Texel) (h : s.params.tmemTexels ≤ a) :
    hostStoreTexel s a t = s := by
  rw [hostStoreTexel, if_pos h]

theorem hostStoreTexel_inFlight (t : Texel) (h : a < s.params.tmemTexels)
    (hf : s.texelInFlight a = true) :
    hostStoreTexel s a t = { s with racedTexels := a :: s.racedTexels } := by
  rw [hostStoreTexel, if_neg (Nat.not_le.2 h), if_pos hf]

theorem hostStoreTexel_stores (t : Texel) (h : a < s.params.tmemTexels)
    (hf : s.texelInFlight a = false) :
    hostStoreTexel s a t = { s with tmem := s.tmem.write a t } := by
  simp only [hostStoreTexel, if_neg (Nat.not_le.2 h), hf, Bool.false_eq_true, if_false]

end

/-- A read of TDATA_LO loads what the host finds at TADDR into the latch (R47). -/
theorem readReg_tdataLo {s : State} {v : Texel} {n : Nat} (h : hostTexel s s.taddr.toNat = (v, n)) :
    readReg s .tdataLo = (v.extractLsb' 0 32, { s with rdlatch := v, draws := n }) := by
  simp only [readReg, h]

/-- The texel that a write of TDATA_HI stores: both halves, with bit 15 of every lane clear (R48). -/
def latchedTexel (s : State) (hi : Word) : Texel :=
  (hi ++ s.wrlatch.extractLsb' 0 32 : BitVec 64) &&& headroomMask

theorem writeReg_tdataHi {s u : State} {hi : Word}
    (h : hostStoreTexel s s.taddr.toNat (latchedTexel s hi) = u) (rst : Bool) (m : StepMarks) :
    writeReg rst m s .tdataHi hi = ({ u with taddr := s.taddr + 1 }, m) := by
  rw [← h]
  rfl

/-! ### A texel written and read back -/

/-- The state after the host has written both halves of a texel that no running command touches. -/
def afterTexelWrite (s : State) (lo hi : Word) : State :=
  { s with
    taddr := s.taddr + 1
    wrlatch := s.wrlatch.extractLsb' 32 32 ++ lo
    tmem := if s.taddr.toNat < s.params.tmemTexels then
        s.tmem.write s.taddr.toNat ((hi ++ lo : BitVec 64) &&& headroomMask)
      else s.tmem }

theorem writeReg_texel {s : State} (hf : s.texelInFlight s.taddr.toNat = false) (m : StepMarks)
    (lo hi : Word) :
    (writeReg false m (writeReg false m s .tdataLo lo).1 .tdataHi hi).1 = afterTexelWrite s lo hi := by
  have hlatch : latchedTexel (writeReg false m s .tdataLo lo).1 hi =
      (hi ++ lo : BitVec 64) &&& headroomMask :=
    congrArg (fun l : Word => (hi ++ l : BitVec 64) &&& headroomMask) (extractLo_append _ lo)
  by_cases ha : s.taddr.toNat < s.params.tmemTexels
  · have hstore := hostStoreTexel_stores (s := (writeReg false m s .tdataLo lo).1)
      (latchedTexel (writeReg false m s .tdataLo lo).1 hi) ha hf
    rw [writeReg_tdataHi hstore, hlatch, afterTexelWrite, if_pos ha]
    rfl
  · have hstore := hostStoreTexel_outside (s := (writeReg false m s .tdataLo lo).1)
      (latchedTexel (writeReg false m s .tdataLo lo).1 hi) (Nat.not_lt.1 ha)
    rw [writeReg_tdataHi hstore, afterTexelWrite, if_neg ha]
    rfl

section
variable {s : State} (lo hi : Word)

theorem afterTexelWrite_find_same (ha : s.taddr.toNat < s.params.tmemTexels) :
    (afterTexelWrite s lo hi).tmem.find s.taddr.toNat =
      some ((hi ++ lo : BitVec 64) &&& headroomMask) := by
  simp only [afterTexelWrite, if_pos ha, Memory.find_write_same]

theorem afterTexelWrite_find_other {a : Nat} (ha : a ≠ s.taddr.toNat) :
    (afterTexelWrite s lo hi).tmem.find a = s.tmem.find a := by
  unfold afterTexelWrite
  split
  · exact Memory.find_write_other _ _ ha
  · rfl

theorem afterTexelWrite_outside (ha : s.params.tmemTexels ≤ s.taddr.toNat) :
    (afterTexelWrite s lo hi).tmem = s.tmem := by
  simp only [afterTexelWrite, if_neg (Nat.not_lt.2 ha)]

/-- What the host then finds at the same address (R48). -/
theorem hostTexel_afterTexelWrite (hf : s.texelInFlight s.taddr.toNat = false) :
    hostTexel { afterTexelWrite s lo hi with taddr := s.taddr } s.taddr.toNat =
      (if s.taddr.toNat < s.params.tmemTexels then (hi ++ lo : BitVec 64) &&& headroomMask else 0,
        s.draws) := by
  split
  next ha => exact hostTexel_listed ha hf (afterTexelWrite_find_same lo hi ha)
  next ha => exact hostTexel_outside (Nat.not_lt.1 ha)

end

/-- The two reads of a texel: its halves, and TADDR counting on (R46, R47). -/
theorem readReg_texel {s : State} {v : Texel} {n : Nat} (h : hostTexel s s.taddr.toNat = (v, n)) :
    (readReg s .tdataLo).1 = v.extractLsb' 0 32 ∧
      (readReg (readReg s .tdataLo).2 .tdataHi).1 = v.extractLsb' 32 32 ∧
      (readReg (readReg s .tdataLo).2 .tdataHi).2.taddr = s.taddr + 1 := by
  rw [readReg_tdataLo h]
  exact ⟨rfl, rfl, rfl⟩

/-- Settles O16: the round trip of a texel, then each access by where TADDR points. -/
theorem texelPort : Obligations.TexelPort := by
  refine ⟨fun s m lo hi hf => ?_, fun s m rst lo hi => ?_⟩
  · obtain ⟨hlo, hhi, htaddr⟩ := readReg_texel (hostTexel_afterTexelWrite lo hi hf)
    obtain ⟨hmlo, hmhi⟩ := masked_halves hi lo
    refine ⟨afterTexelWrite s lo hi, (writeReg_texel hf m lo hi).symm, rfl, rfl,
      fun a ha => afterTexelWrite_find_other lo hi ha, afterTexelWrite_find_same lo hi,
      afterTexelWrite_outside lo hi, _, rfl, hlo.trans ?_, hhi.trans ?_, htaddr⟩
    · split
      · exact hmlo
      · rfl
    · split
      · exact hmhi
      · rfl
  · intro a texel loads
    refine ⟨rfl, rfl, fun ha => ⟨?_, ?_⟩,
      fun ha hf => ⟨⟨freeStored s.draws a, headroom_freeStored _ _, ?_⟩, ?_⟩,
      fun ha hf => ⟨fun v hv => ?_, fun hn => ⟨Config.freeTexel s.draws a, ?_⟩, ?_⟩⟩
    · exact readReg_tdataLo (hostTexel_outside ha)
    · exact writeReg_tdataHi (hostStoreTexel_outside _ ha) rst m
    · exact readReg_tdataLo (hostTexel_inFlight ha hf)
    · exact writeReg_tdataHi (hostStoreTexel_inFlight _ ha hf) rst m
    · exact readReg_tdataLo (hostTexel_listed ha hf hv)
    · exact readReg_tdataLo (hostTexel_unwritten ha hf hn)
    · exact writeReg_tdataHi (hostStoreTexel_stores _ ha hf) rst m

/-! ### The lattice build (R65, R442) -/

/-- With an idle host a step is the engine's part alone. -/
theorem step_idleHost {s : State} (hq : s.hostq = []) {t : State} {m : StepMarks}
    (h : engineTick s.nextStall s.popInput = .next (t, m)) : step s = .next t := by
  have hnext : s.nextCycle = .accesses [] := by
    rw [State.nextCycle, hq]
    rfl
  have hidle : (HostCycle.accesses []).resets = false := rfl
  simp only [step, machineStep, hnext, hidle, Bool.false_eq_true, if_false, h]
  rfl

/-- Settles O23: the engine's part of a step before the build has ended, stalled or not. -/
theorem buildGate : Obligations.BuildGate := by
  intro s hq hready
  have hpop : s.popInput = { s with stalls := s.stalls.tail, hostReads := [] } := by
    simp only [State.popInput, hq, List.tail_nil]
  refine ⟨fun hstall => ?_, fun hstall => ?_⟩
  · rw [← hpop]
    refine step_idleHost hq (m := StepMarks.none) ?_
    rw [engineTick, if_pos hstall]
  · have hbuilt : step s = .next s.popInput.finishBuild := by
      refine step_idleHost hq (m := StepMarks.none) ?_
      rw [engineTick, if_neg (by simp [hstall]), if_pos (by simp [hready])]
    rw [hbuilt, hpop]
    rfl

/-! ### What a command reads (R69, R452) -/

/-- The machine `r` with the snapshot, the lattice, the memories and STATUS of `s`: all that a command reads
is of `s`, and every register and descriptor is of `r`. -/
def State.inputsFrom (r s : State) : State :=
  { r with
    snap := s.snap, params := s.params, lattice := s.lattice, tmem := s.tmem, hmem := s.hmem
    draws := s.draws, status := s.status }

/-- Slot n after command `i` has taken `s` to `t` and a machine with the registers of `r` to `u`: untouched in
both; or written with the same descriptor; or released, with the BASE it had. -/
def SlotAgrees (i : Instr) (s t r u : State) (n : Slot) : Prop :=
  (t.desc.at n = s.desc.at n ∧ u.desc.at n = r.desc.at n) ∨ u.desc.at n = t.desc.at n ∨
    (i = .release n ∧ u.desc.at n = { base := (r.desc.at n).base, w := 0, h := 0, valid := false })

/-- The outcome `o` of command `i` on a machine with the registers of `r` agrees with `t`, its outcome on `s`. -/
def Agrees (i : Instr) (s t r : State) (o : Host.Outcome State Fault Refusal) : Prop :=
  ∃ u, o = .next u ∧ u.tmem = t.tmem ∧ u.hmem = t.hmem ∧ u.status = t.status ∧
    ∀ n, SlotAgrees i s t r u n

section
variable {i : Instr} {s r t : State} {e : Option ErrCode}

/-- A command whose check and whose work read the inputs only ends alike on both machines. -/
theorem runCommand_agrees {work work' : State} (h : runCommand s e work = .next t)
    (htmem : work'.tmem = work.tmem) (hhmem : work'.hmem = work.hmem)
    (hstatus : work'.status = work.status) (hslots : ∀ n, SlotAgrees i s work r work' n) :
    Agrees i s t r (runCommand (r.inputsFrom s) e work') := by
  rcases runCommand_cases s e work t h with ⟨c, rfl, rfl⟩ | ⟨rfl, rfl⟩
  · exact ⟨_, rfl, rfl, rfl, rfl, fun _ => .inl ⟨rfl, rfl⟩⟩
  · exact ⟨_, rfl, htmem, hhmem, congrArg (·.complete none) hstatus, hslots⟩

/-- A command that writes no descriptor. -/
theorem runCommand_agrees_noSlot {tmem : Memory Texel} {hmem : Memory Byte}
    (h : runCommand s e { s with tmem := tmem, hmem := hmem } = .next t) :
    Agrees i s t r (runCommand (r.inputsFrom s) e { r.inputsFrom s with tmem := tmem, hmem := hmem }) :=
  runCommand_agrees h rfl rfl rfl (fun _ => .inl ⟨rfl, rfl⟩)

/-- A command that makes a new buffer in slot d. -/
theorem runCommand_agrees_produce {d : Slot} {w h : Nat} {px : Nat → Nat → Texel}
    (hrun : runCommand s e (produce s d w h px) = .next t) :
    Agrees i s t r (runCommand (r.inputsFrom s) e (produce (r.inputsFrom s) d w h px)) := by
  refine runCommand_agrees hrun rfl rfl rfl (fun n => ?_)
  by_cases hn : n = d
  · subst hn
    refine .inr (.inl ?_)
    simp only [produce_desc, DescTable.at_put_same]
    rfl
  · exact .inl ⟨DescTable.at_put_other _ _ hn, DescTable.at_put_other _ _ hn⟩

/-- RELEASE empties its slot in both machines and keeps the BASE of each (R342). -/
theorem execRelease_agrees {d : Slot} (h : execRelease d s = .next t) :
    Agrees (.release d) s t r (execRelease d (r.inputsFrom s)) := by
  refine runCommand_agrees (e := none) h rfl rfl rfl (fun n => ?_)
  by_cases hn : n = d
  · subst hn
    exact .inr (.inr ⟨rfl, DescTable.at_put_same _ _ _⟩)
  · exact .inl ⟨DescTable.at_put_other _ _ hn, DescTable.at_put_other _ _ hn⟩

end

/-- Every command ends alike on two machines of the same inputs (R69, R452). -/
theorem exec_agrees {i : Instr} {s t : State} (r : State) (h : exec i s = .next t) :
    Agrees i s t r (exec i (r.inputsFrom s)) := by
  cases i with
  | nop => exact runCommand_agrees_noSlot (e := none) (tmem := s.tmem) (hmem := s.hmem) h
  | illegalImport3 =>
    exact runCommand_agrees_noSlot (e := some .illegalOp) (tmem := s.tmem) (hmem := s.hmem) h
  | illegal op =>
    exact runCommand_agrees_noSlot (e := some .illegalOp) (tmem := s.tmem) (hmem := s.hmem) h
  | release d => exact execRelease_agrees h
  | synth d mode => exact runCommand_agrees_produce h
  | normal d src z3d tan sharp => exact runCommand_agrees_produce h
  | grad d mode => exact runCommand_agrees_produce h
  | mergeAdd d n => exact runCommand_agrees_produce h
  | mergeSub d n => exact runCommand_agrees_produce h
  | mergeMul d n => exact runCommand_agrees_produce h
  | mergeAdd3 d n => exact runCommand_agrees_produce h
  | copy d src => exact runCommand_agrees_produce h
  | importG d => exact runCommand_agrees_produce h
  | importRgb d => exact runCommand_agrees_produce h
  | importRgba d => exact runCommand_agrees_produce h
  | _ => exact runCommand_agrees_noSlot h

/-- Settles O54: a machine that agrees with `s` on the inputs is itself with the inputs of `s`. -/
theorem snapshotIsolation : Obligations.SnapshotIsolation := by
  intro i s s' t hsnap hparams hlattice htmem hhmem hdraws hstatus h
  have hs' : s' = s'.inputsFrom s := by
    rw [State.inputsFrom, ← hsnap, ← hparams, ← hlattice, ← htmem, ← hhmem, ← hdraws, ← hstatus]
  have hagrees : Agrees i s t s' (exec i s') := by
    have := exec_agrees s' h
    rwa [← hs'] at this
  exact hagrees

/-! ### The lattice (R64) -/

/-- A command that reads no lattice ends alike with another one. -/
theorem runCommand_otherLattice {s work t : State} {e : Option ErrCode} (l : Lattice)
    (h : runCommand s e work = .next t) :
    runCommand { s with lattice := l } e { work with lattice := l } = .next { t with lattice := l } := by
  rcases runCommand_cases s e work t h with ⟨c, rfl, rfl⟩ | ⟨rfl, rfl⟩ <;> rfl

theorem exec_otherLattice {i : Instr} {s t : State} (l : Lattice) (h : exec i s = .next t)
    (hi : ∀ d mode, i ≠ .synth d mode) :
    exec i { s with lattice := l } = .next { t with lattice := l } := by
  cases i with
  | synth d mode => exact (hi d mode rfl).elim
  | nop => exact runCommand_otherLattice (s := s) (work := s) (e := none) l h
  | release d => exact runCommand_otherLattice (s := s) (e := none) l h
  | illegalImport3 => exact runCommand_otherLattice (s := s) (work := s) (e := some .illegalOp) l h
  | illegal op => exact runCommand_otherLattice (s := s) (work := s) (e := some .illegalOp) l h
  | _ => exact runCommand_otherLattice l h

/-- Settles O55: no command has work on the lattice, and only the texels of SYNTH look at it. -/
theorem onlySynthReadsLattice : Obligations.OnlySynthReadsLattice := by
  intro i s t l h
  exact ⟨(exec_sameRegisters h).lattice, fun hi => exec_otherLattice l h hi⟩

end Sys2Proof.Machine
end

section
/-! PROOFS. The form of the memories, narrow accesses, the host's own bus, and the step that runs a command
(R90, R92, R103, R120, R405, R453). -/

namespace Sys2Proof.Machine

/-! ### The canonical form of the memories (R90) -/

theorem State.MemoriesOk.work {s w : State} (hs : s.MemoriesOk) (h : Work s w) : w.MemoriesOk := by
  obtain ⟨ht, hh⟩ := hs
  cases h with
  | make d w h px => exact ⟨Memory.wf_fill ht _ _ _, hh⟩
  | edit d l => exact ⟨Memory.wf_writeAll ht l, hh⟩
  | store l => exact ⟨ht, Memory.wf_writeAll hh l⟩
  | _ => exact ⟨ht, hh⟩

theorem State.MemoriesOk.complete {s : State} (hs : s.MemoriesOk) (e : Option ErrCode) :
    (s.complete e).MemoriesOk := hs

theorem State.MemoriesOk.exec {i : Instr} {s t : State} (hs : s.MemoriesOk)
    (h : exec i s = .next t) : t.MemoriesOk := by
  rcases exec_work h with ⟨c, rfl⟩ | ⟨w, hw, rfl⟩
  · exact hs.complete _
  · exact (hs.work hw).complete none

/-- What a race leaves at completion is stored like anything else (R453). -/
theorem State.MemoriesOk.applyRaces {t : State} (ht : t.MemoriesOk) (i : Instr) (s : State) :
    (applyRaces i s t).MemoriesOk := by
  rcases applyRaces_eq i s t with h | h <;> rw [h]
  · exact ht
  · exact ⟨Memory.wf_writeAll ht.1 _, Memory.wf_writeAll (Memory.wf_writeAll ht.2 _) _⟩

theorem abandonedHmem_wf {s : State} (hs : s.MemoriesOk) (i : Instr) : (abandonedHmem i s).wf :=
  Memory.wf_writeAll hs.2 _

theorem abandon_tmem_wf {s : State} (hs : s.MemoriesOk) : s.abandon.tmem.wf :=
  Memory.wf_writeAll hs.1 _

theorem State.MemoriesOk.softReset {s : State} (hs : s.MemoriesOk) : s.softReset.MemoriesOk := by
  constructor
  · rcases softReset_tmem s with h | h <;> rw [h]
    · exact hs.1
    · exact abandon_tmem_wf hs
  · rcases softReset_hmem s with h | h <;> rw [h]
    · exact hs.2
    · exact abandonedHmem_wf hs _

theorem State.MemoriesOk.powerOn {s : State} (hs : s.MemoriesOk) : s.powerOn.MemoriesOk := by
  constructor
  · rw [powerOn_tmem]
    exact List.Pairwise.nil
  · rcases powerOn_hmem s with h | h <;> rw [h]
    · exact hs.2
    · exact abandonedHmem_wf hs _

theorem State.MemoriesOk.move {s t : State} (h : Move s t) (hs : s.MemoriesOk) : t.MemoriesOk := by
  cases h with
  | run t hready hbusy h => exact (hs.exec h).applyRaces _ _
  | texel a t => exact ⟨Memory.wf_write hs.1 a t, hs.2⟩
  | byte a v => exact ⟨hs.1, Memory.wf_write hs.2 a v⟩
  | soft => exact hs.softReset
  | power => exact hs.powerOn
  | _ => exact hs

/-- Settles O56: every move of a step stores through the operations that keep the addresses rising. -/
theorem stepKeepsMemoryForm : Obligations.StepKeepsMemoryForm := by
  intro s t hs h
  exact step_keeps (fun _ _ => State.MemoriesOk.move) h hs

/-! ### Narrow and misaligned accesses (R92) -/

/-- No register stands off a multiple of 4. -/
theorem narrow_misses {off : BitVec 12} {z : AccessSize} (h : z ≠ .b32 ∨ off.toNat % 4 ≠ 0) :
    z ≠ .b32 ∨ regAt off = none :=
  h.imp_right fun h4 => regAt_reserved (.inl h4)

/-- Settles O10: such an access reaches no register. -/
theorem narrowAccess : Obligations.NarrowAccess := by
  intro s m rst off z v h
  exact ⟨windowWrite_ignored (narrow_misses h) rst m s v, windowRead_zero (narrow_misses h) s⟩

/-! ### The host's own bus to HMEM (R90, R453) -/

section
variable {s : State} {a : Nat}

theorem hostHmemRead_outside (h : s.params.hmemSize ≤ a) :
    hostHmemRead s a = .fault (.hmemOutside a) := by
  rw [hostHmemRead, if_pos h]

theorem hostHmemRead_inFlight (h : a < s.params.hmemSize) (hf : s.byteInFlight a = true) :
    hostHmemRead s a = .next
      ({ s with draws := s.draws + 1 }.answer ((Config.freeByte s.draws a).setWidth 32)) := by
  rw [hostHmemRead, if_neg (Nat.not_le.2 h), if_pos hf]

theorem hostHmemRead_stored (h : a < s.params.hmemSize) (hf : s.byteInFlight a = false) :
    hostHmemRead s a = .next (s.answer ((hread s a).setWidth 32)) := by
  simp only [hostHmemRead, if_neg (Nat.not_le.2 h), hf, Bool.false_eq_true, if_false]

theorem hostHmemWrite_outside (v : Byte) (h : s.params.hmemSize ≤ a) :
    hostHmemWrite s a v = .fault (.hmemOutside a) := by
  rw [hostHmemWrite, if_pos h]

theorem hostHmemWrite_inFlight (v : Byte) (h : a < s.params.hmemSize)
    (hf : s.byteInFlight a = true) :
    hostHmemWrite s a v = .next { s with racedBytes := a :: s.racedBytes } := by
  rw [hostHmemWrite, if_neg (Nat.not_le.2 h), if_pos hf]

theorem hostHmemWrite_stores (v : Byte) (h : a < s.params.hmemSize)
    (hf : s.byteInFlight a = false) :
    hostHmemWrite s a v = .next { s with hmem := s.hmem.write a v } := by
  simp only [hostHmemWrite, if_neg (Nat.not_le.2 h), hf, Bool.false_eq_true, if_false]

/-- A byte of HMEM reads as it was stored. -/
theorem hread_of_find {v : Byte} (h : s.hmem.find a = some v) : hread s a = v := by
  rw [hread, h, Option.getD_some]

end

/-- The failure of a DMA access stops the run exactly while a transfer runs (U7). -/
theorem runOp_dmaBusError_refused (rst : Bool) (m : StepMarks) (s : State) :
    runOp rst m s .dmaBusError = .refused .dmaBusError ↔
      s.status.busy = true ∧ (footprint s.running s).hmem ≠ [] := by
  have hguard : (s.status.busy && !(footprint s.running s).hmem.isEmpty) = true ↔
      s.status.busy = true ∧ (footprint s.running s).hmem ≠ [] := by
    simp
  rw [← hguard, runOp]
  split
  · next h => exact ⟨fun _ => h, fun _ => rfl⟩
  · next h => exact ⟨fun hr => (nomatch hr), fun hg => (h hg).elim⟩

/-- Settles O19: an access outside HMEM, one of a byte at rest, one of a byte in flight, and the DMA error. -/
theorem hostHmemAccess : Obligations.HostHmemAccess := by
  intro s m a v
  refine ⟨fun ha => ⟨hostHmemRead_outside ha, hostHmemWrite_outside v ha⟩,
    fun ha hf => ⟨hostHmemRead_stored ha hf, _, hostHmemWrite_stores v ha hf, ?_, ?_, rfl⟩,
    fun ha hf => ⟨⟨Config.freeByte s.draws a, hostHmemRead_inFlight ha hf⟩,
      hostHmemWrite_inFlight v ha hf⟩,
    runOp_dmaBusError_refused false m s⟩
  · exact hread_of_find (Memory.find_write_same _ _ _)
  · exact fun b hb => Memory.find_write_other _ _ hb

/-! ### The step that runs a command (R103, R120, R405) -/

/-- At the end of its work a running engine completes its command; without a race that is all (R405). -/
theorem engineTick_completes {s u : State} (hready : s.status.latticeReady = true)
    (hbusy : s.status.busy = true) (hrace : s.NoRace) (h : exec s.running s = .next u) :
    engineTick false s = .next (u, completionMarks u.status) := by
  simp only [engineTick, runToCompletion, hready, hbusy, h, applyRaces_noRace hrace, Bool.not_true,
    Bool.false_eq_true, if_false, if_true]

/-- A step without a reset is the engine's part and then the host's (R411). -/
theorem step_of_engineTick {s u : State} {m : StepMarks} (hreset : s.nextCycle.resets = false)
    (h : engineTick s.nextStall s.popInput = .next (u, m)) :
    step s = hostTick false s.nextCycle m u := by
  simp only [step, machineStep, hreset, Bool.false_eq_true, if_false, h]

section
variable {s : State} (hready : s.status.latticeReady = true) (hbusy : s.status.busy = true)
  (hstall : s.nextStall = false) (hrace : s.NoRace)
include hready hbusy hstall hrace

/-- The host's accesses of the step see the state that the command leaves (R411). -/
theorem step_runs {u : State} (hreset : s.nextCycle.resets = false)
    (h : exec s.running s.popInput = .next u) :
    step s = hostTick false s.nextCycle (completionMarks u.status) u := by
  refine step_of_engineTick hreset ?_
  rw [hstall]
  exact engineTick_completes hready hbusy hrace h

/-- With an idle host the step is the command and nothing else. -/
theorem step_runs_idleHost (hq : s.hostq = []) : step s = exec s.running s.popInput := by
  obtain ⟨u, hu⟩ := exec_next s.running s.popInput
  rw [hu]
  refine step_idleHost hq (m := completionMarks u.status) ?_
  rw [hstall]
  exact engineTick_completes hready hbusy hrace hu

end

/-- The engine decodes the four bytes of the snapshot's word (R120). -/
theorem running_of_decodeBytes {s : State} {b0 b1 b2 b3 : Byte} {i : Instr}
    (hcmd : s.snap.cmd = wordOfBytes b0 b1 b2 b3) (h : decodeBytes [b0, b1, b2, b3] = .ok i) :
    s.running = i := by
  rw [State.running, hcmd]
  exact Except.ok.inj h

/-- The command word that `withFetchWord` places is the one that runs (log 2). -/
theorem running_withFetchWord (s : State) (w : Word) :
    (s.withFetchWord 32 w.toNat).running = decode w := by
  have hw : BitVec.ofNat 32 (w.toNat % 2 ^ 32) = w := by
    rw [Nat.mod_eq_of_lt w.isLt, ofNat_toNat_word]
  exact congrArg decode hw

/-- Settles O22: the engine's part of a step runs the snapshot's word, placed by an accept or by
`withFetchWord`. -/
theorem stepRunsDecoded : Obligations.StepRunsDecoded := by
  refine ⟨fun s b0 b1 b2 b3 i hcmd hdec hready hbusy hstall hrace => ?_, fun s w => ?_⟩
  · obtain rfl := running_of_decodeBytes hcmd hdec
    refine ⟨fun hq => ?_, fun u hreset hu => step_runs hready hbusy hstall hrace hreset hu⟩
    rw [step_runs_idleHost hready hbusy hstall hrace hq]
    simp only [State.popInput, hq, List.tail_nil]
  · rw [← running_withFetchWord s w]
    exact step_runs_idleHost (s := s.withFetchWord 32 w.toNat) rfl rfl rfl ⟨rfl, rfl⟩ rfl

end Sys2Proof.Machine
end

section
/-! PROOFS. The command word: its fields, the decode procedure OP by OP, and what the illegal encodings do
(R121 to R129, R132). -/

namespace Sys2Proof

open Machine

-- One theorem after the other, as in the tests: each task of its own would take a stack of its own.
set_option Elab.async false

/-! ### The word of the fields (R121) -/

/-- The fields of a command word as digits of its value. -/
theorem cmdWord_toNat (op : BitVec 4) (dst src : Slot) (cnt : BitVec 3) (fn : BitVec 8) :
    (cmdWord op dst src cnt fn).toNat =
      op.toNat + dst.toNat * 2 ^ 4 + src.toNat * 2 ^ 8 + cnt.toNat * 2 ^ 12 + fn.toNat * 2 ^ 16 := by
  simp only [cmdWord, BitVec.toNat_append, BitVec.toNat_ofNat]
  rw [← Nat.shiftLeft_add_eq_or_of_lt op.isLt, ← Nat.shiftLeft_add_eq_or_of_lt dst.isLt,
    ← Nat.shiftLeft_add_eq_or_of_lt src.isLt, ← Nat.shiftLeft_add_eq_or_of_lt cnt.isLt,
    ← Nat.shiftLeft_add_eq_or_of_lt (show 0 % 2 ^ 1 < 2 ^ 1 by decide),
    ← Nat.shiftLeft_add_eq_or_of_lt fn.isLt]
  simp only [Nat.shiftLeft_eq]
  omega

theorem field_toNat (c : Word) (lo len : Nat) : (field c lo len).toNat = c.toNat / 2 ^ lo % 2 ^ len := by
  rw [field, BitVec.extractLsb'_toNat, Nat.shiftRight_eq_div_pow]

theorem field_eq_of_toNat {c : Word} {lo len : Nat} {x : BitVec len}
    (h : c.toNat / 2 ^ lo % 2 ^ len = x.toNat) : field c lo len = x :=
  BitVec.eq_of_toNat_eq ((field_toNat c lo len).trans h)

theorem mode2_eq_field (c : Word) : mode2 c = field c 16 2 := by
  apply BitVec.eq_of_toNat_eq
  rw [mode2, BitVec.extractLsb'_toNat, fnField, field_toNat, field_toNat, Nat.shiftRight_zero]
  omega

theorem mode3_eq_field (c : Word) : mode3 c = field c 16 3 := by
  apply BitVec.eq_of_toNat_eq
  rw [mode3, BitVec.extractLsb'_toNat, fnField, field_toNat, field_toNat, Nat.shiftRight_zero]
  omega

section
variable (op : BitVec 4) (dst src : Slot) (cnt : BitVec 3) (fn : BitVec 8)

@[simp] theorem opField_cmdWord : opField (cmdWord op dst src cnt fn) = op :=
  field_eq_of_toNat (by rw [cmdWord_toNat]; omega)

@[simp] theorem dstField_cmdWord : dstField (cmdWord op dst src cnt fn) = dst :=
  field_eq_of_toNat (by rw [cmdWord_toNat]; omega)

@[simp] theorem srcField_cmdWord : srcField (cmdWord op dst src cnt fn) = src :=
  field_eq_of_toNat (by rw [cmdWord_toNat]; omega)

@[simp] theorem cntField_cmdWord : cntField (cmdWord op dst src cnt fn) = cnt :=
  field_eq_of_toNat (by rw [cmdWord_toNat]; omega)

@[simp] theorem fnField_cmdWord : fnField (cmdWord op dst src cnt fn) = fn :=
  field_eq_of_toNat (by rw [cmdWord_toNat]; omega)

@[simp] theorem mode2_cmdWord : mode2 (cmdWord op dst src cnt fn) = fn.extractLsb' 0 2 := by
  rw [mode2, fnField_cmdWord]

@[simp] theorem mode3_cmdWord : mode3 (cmdWord op dst src cnt fn) = fn.extractLsb' 0 3 := by
  rw [mode3, fnField_cmdWord]

end

/-! ### What the encoder puts into CNT and FN (R122, R125) -/

theorem mergeCountOk_iff (n : Nat) : mergeCountOk n = true ↔ 1 ≤ n ∧ n ≤ 8 := by
  simp [mergeCountOk]

theorem cntOf_toNat {n : Nat} (h1 : 1 ≤ n) (h8 : n ≤ 8) : (cntOf n).toNat = n - 1 := by
  rw [cntOf, BitVec.toNat_ofNat]
  omega

theorem countOf_cmdWord {n : Nat} (h : mergeCountOk n = true) (op : BitVec 4) (dst src : Slot)
    (fn : BitVec 8) : countOf (cmdWord op dst src (cntOf n) fn) = n := by
  obtain ⟨h1, h8⟩ := (mergeCountOk_iff n).1 h
  rw [countOf, cntField_cmdWord, cntOf_toNat h1 h8]
  omega

theorem countOf_ok (c : Word) : mergeCountOk (countOf c) = true := by
  rw [mergeCountOk_iff, countOf]
  omega

theorem setWidth_mode2 (mode : BitVec 2) : (mode.setWidth 8).extractLsb' 0 2 = mode := by
  revert mode; decide

theorem setWidth_mode_toNat (mode : BitVec 2) : (mode.setWidth 8).toNat = mode.toNat := by
  revert mode; decide

theorem fnFlags_toNat (b3 b2 b1 b0 : Bool) :
    (fnFlags b3 b2 b1 b0).toNat = b0.toNat + b1.toNat * 2 + b2.toNat * 4 + b3.toNat * 8 := by
  revert b3 b2 b1 b0; decide

theorem fnFlags_bits (b3 b2 b1 b0 : Bool) :
    (fnFlags b3 b2 b1 b0)[0] = b0 ∧ (fnFlags b3 b2 b1 b0)[1] = b1 ∧
      (fnFlags b3 b2 b1 b0)[2] = b2 ∧ (fnFlags b3 b2 b1 b0)[3] = b3 := by
  revert b3 b2 b1 b0; decide

/-! ### The decode procedure, one equation for each OP (R132) -/

/-- The values of OP: the twelve that R124 names, and those that R127 makes illegal. -/
theorem op_cases (op : BitVec 4) : op = 0x0#4 ∨ op = 0x1#4 ∨ op = 0x2#4 ∨ op = 0x3#4 ∨ op = 0x4#4 ∨
    op = 0x5#4 ∨ op = 0x6#4 ∨ op = 0x7#4 ∨ op = 0x8#4 ∨ op = 0x9#4 ∨ op = 0xA#4 ∨ op = 0xB#4 ∨
    12#4 ≤ op := by
  revert op; decide

section
variable {c : Word}

theorem decode_nop (h : opField c = 0x0#4) : decode c = .nop := by simp only [decode, h]

theorem decode_synth (h : opField c = 0x1#4) : decode c = .synth (dstField c) (mode2 c) := by
  simp only [decode, h]

theorem decode_normal (h : opField c = 0x2#4) : decode c = .normal (dstField c) (srcField c)
    ((fnField c).getLsbD 0) ((fnField c).getLsbD 1) ((fnField c).getLsbD 2) := by
  simp only [decode, h]

theorem decode_grad (h : opField c = 0x3#4) :
    decode c = .grad (dstField c) (if mode2 c = 3#2 then 0#2 else mode2 c) := by
  simp only [decode, h]

theorem decode_glow (h : opField c = 0x4#4) : decode c = .glow (dstField c) ((fnField c).getLsbD 0)
    ((fnField c).getLsbD 1) ((fnField c).getLsbD 2) ((fnField c).getLsbD 3) := by
  simp only [decode, h]

theorem decode_merge (h : opField c = 0x5#4) : decode c = decodeMerge c := by
  simp only [decode, h]

theorem decode_colorize (h : opField c = 0x6#4) : decode c = decodeColorize c := by
  simp only [decode, h]

theorem decode_copy (h : opField c = 0x7#4) : decode c = .copy (dstField c) (srcField c) := by
  simp only [decode, h]

theorem decode_release (h : opField c = 0x8#4) : decode c = .release (dstField c) := by
  simp only [decode, h]

theorem decode_import (h : opField c = 0x9#4) : decode c = decodeImport c := by
  simp only [decode, h]

theorem decode_export (h : opField c = 0xA#4) : decode c = .exportBuf (srcField c) := by
  simp only [decode, h]

theorem decode_rawfill (h : opField c = 0xB#4) : decode c = .rawfill (srcField c) := by
  simp only [decode, h]

theorem decode_illegal (h : 12#4 ≤ opField c) : decode c = .illegal (opField c) := by
  unfold decode
  split
  case h_13 => rfl
  all_goals
    rename_i hop
    rw [hop] at h
    exact absurd h (by decide)

end

/-! ### Decoding what was encoded (R129, R132) -/

theorem decode_encode {i : Instr} (h : i.WellFormed = true) : decode (encode i) = i := by
  cases i with
  | nop => exact decode_nop (opField_cmdWord ..)
  | synth d mode => simp [encode, decode_synth, setWidth_mode2]
  | normal d s z3d tan sharp => simp [encode, decode_normal, fnFlags_bits]
  | grad d mode =>
    have hmode : mode ≠ 3#2 := of_decide_eq_true h
    simp [encode, decode_grad, setWidth_mode2, hmode]
  | glow d wrapx wrapy curve rect => simp [encode, decode_glow, fnFlags_bits]
  | mergeAdd d n | mergeSub d n | mergeMul d n | mergeAdd3 d n =>
    simp [encode, decode_merge, decodeMerge, countOf_cmdWord h]
  | colorizeMul d | colorizeAdd d | colorizeSub d | colorizeGray d | colorizeInv d | colorizeNop5 d
  | colorizeNop6 d | colorizeNop7 d => simp [encode, decode_colorize, decodeColorize]
  | copy d s => simp [encode, decode_copy]
  | release d => simp [encode, decode_release]
  | importG d | importRgb d | importRgba d | illegalImport3 =>
    simp [encode, decode_import, decodeImport]
  | exportBuf s => simp [encode, decode_export]
  | rawfill s => simp [encode, decode_rawfill]
  | illegal op =>
    have hop : 12#4 ≤ op := of_decide_eq_true h
    rw [encode, decode_illegal (by rwa [opField_cmdWord]), opField_cmdWord]

theorem wordOfBytes_toNat (b0 b1 b2 b3 : Byte) : (wordOfBytes b0 b1 b2 b3).toNat =
    b0.toNat + b1.toNat * 2 ^ 8 + b2.toNat * 2 ^ 16 + b3.toNat * 2 ^ 24 := by
  simp only [wordOfBytes, BitVec.toNat_append]
  rw [← Nat.shiftLeft_add_eq_or_of_lt b0.isLt, ← Nat.shiftLeft_add_eq_or_of_lt b1.isLt,
    ← Nat.shiftLeft_add_eq_or_of_lt b2.isLt]
  simp only [Nat.shiftLeft_eq]
  omega

/-- The little-endian bytes of a word give the word back (R94). -/
theorem wordOfBytes_ofWord (w : Word) : wordOfBytes (BitVec.ofNat 8 w.toNat)
    (BitVec.ofNat 8 (w.toNat >>> 8)) (BitVec.ofNat 8 (w.toNat >>> 16))
    (BitVec.ofNat 8 (w.toNat >>> 24)) = w := by
  apply BitVec.eq_of_toNat_eq
  simp only [wordOfBytes_toNat, BitVec.toNat_ofNat, Nat.shiftRight_eq_div_pow]
  omega

theorem decodeBytes_bytesOfWord (w : Word) : decodeBytes (bytesOfWord w.toNat) = .ok (decode w) := by
  rw [bytesOfWord, decodeBytes, wordOfBytes_ofWord]

/-- Settles O1: each field of the encoder's word is read back, and the bytes give the word. -/
theorem decodeOfEncode : Obligations.DecodeOfEncode := by
  intro i h
  exact ⟨decode_encode h, by rw [decodeBytes_bytesOfWord, decode_encode h]⟩

/-- A word that a command encodes to decodes to that command. -/
theorem decode_eq_of_encode {i : Instr} {c : Word} (hi : i.WellFormed = true) (hc : encode i = c) :
    decode c = i := by
  rw [← hc, decode_encode hi]

/-- Settles O5: each word is the encoder's word of its command. -/
theorem specWordsDecode : Obligations.SpecWordsDecode :=
  ⟨decode_eq_of_encode rfl rfl, decode_eq_of_encode rfl rfl, decode_eq_of_encode rfl rfl,
    decode_eq_of_encode rfl rfl, decode_eq_of_encode rfl rfl, decode_eq_of_encode rfl rfl,
    decode_eq_of_encode rfl rfl, decode_eq_of_encode rfl rfl, decode_eq_of_encode rfl rfl,
    decode_eq_of_encode rfl rfl, decode_eq_of_encode rfl rfl, decode_eq_of_encode rfl rfl,
    decode_eq_of_encode rfl rfl⟩

/-! ### What every word decodes to (R126, R127) -/

/-- The commands of R127, which no word but an illegal encoding names. -/
def Instr.IsIllegal (i : Instr) : Prop := i = .illegalImport3 ∨ ∃ op, i = .illegal op

section
variable (c : Word)

theorem decodeMerge_legal : (decodeMerge c).WellFormed = true ∧ ¬(decodeMerge c).IsIllegal := by
  unfold decodeMerge
  split <;> exact ⟨countOf_ok c, by simp [Instr.IsIllegal]⟩

theorem decodeColorize_legal :
    (decodeColorize c).WellFormed = true ∧ ¬(decodeColorize c).IsIllegal := by
  unfold decodeColorize
  split <;> exact ⟨rfl, by simp [Instr.IsIllegal]⟩

theorem decodeImport_legal :
    (decodeImport c).WellFormed = true ∧ ((decodeImport c).IsIllegal ↔ mode2 c = 3) := by
  have hmode : ∀ m : BitVec 2, (m = 0#2 → False) → (m = 1#2 → False) → (m = 2#2 → False) →
      m = 3#2 := by decide
  unfold decodeImport
  split
  case h_4 h0 h1 h2 => exact ⟨rfl, iff_of_true (.inl rfl) (hmode _ h0 h1 h2)⟩
  all_goals
    rename_i hm
    exact ⟨rfl, iff_of_false (by simp [Instr.IsIllegal]) (by rw [hm]; decide)⟩

theorem gradMode_ok : gradModeOk (if mode2 c = 3#2 then 0#2 else mode2 c) = true := by
  generalize mode2 c = m
  revert m; decide

end

/-- What R126 and R127 say of a word. -/
def DecodesLegally (c : Word) : Prop :=
  (decode c).WellFormed = true ∧ ((decode c).IsIllegal ↔ IllegalWord c)

/-- An OP of R124 other than that of IMPORT has no illegal encoding. -/
theorem decodesLegally_of_op {c : Word} {k : BitVec 4} {i : Instr} (hop : opField c = k)
    (hd : decode c = i) (hi : i.WellFormed = true ∧ ¬i.IsIllegal)
    (hk : ¬12 ≤ k.toNat ∧ k ≠ 9 := by decide) : DecodesLegally c := by
  have hlegal : ¬IllegalWord c := by
    rintro (hc | ⟨hc, -⟩)
    · exact hk.1 (hop ▸ hc)
    · exact hk.2 (hop.symm.trans hc)
  rw [DecodesLegally, hd]
  exact ⟨hi.1, iff_of_false hi.2 hlegal⟩

theorem decodesLegally (c : Word) : DecodesLegally c := by
  rcases op_cases (opField c) with h | h | h | h | h | h | h | h | h | h | h | h | h
  · exact decodesLegally_of_op h (decode_nop h) ⟨rfl, by simp [Instr.IsIllegal]⟩
  · exact decodesLegally_of_op h (decode_synth h) ⟨rfl, by simp [Instr.IsIllegal]⟩
  · exact decodesLegally_of_op h (decode_normal h) ⟨rfl, by simp [Instr.IsIllegal]⟩
  · exact decodesLegally_of_op h (decode_grad h) ⟨gradMode_ok c, by simp [Instr.IsIllegal]⟩
  · exact decodesLegally_of_op h (decode_glow h) ⟨rfl, by simp [Instr.IsIllegal]⟩
  · exact decodesLegally_of_op h (decode_merge h) (decodeMerge_legal c)
  · exact decodesLegally_of_op h (decode_colorize h) (decodeColorize_legal c)
  · exact decodesLegally_of_op h (decode_copy h) ⟨rfl, by simp [Instr.IsIllegal]⟩
  · exact decodesLegally_of_op h (decode_release h) ⟨rfl, by simp [Instr.IsIllegal]⟩
  · have hword : IllegalWord c ↔ mode2 c = 3 := by simp [IllegalWord, h]
    rw [DecodesLegally, decode_import h, hword]
    exact decodeImport_legal c
  · exact decodesLegally_of_op h (decode_export h) ⟨rfl, by simp [Instr.IsIllegal]⟩
  · exact decodesLegally_of_op h (decode_rawfill h) ⟨rfl, by simp [Instr.IsIllegal]⟩
  · rw [DecodesLegally, decode_illegal h]
    exact ⟨decide_eq_true h, iff_of_true (.inr ⟨_, rfl⟩) (.inl h)⟩

/-- Settles O2, OP by OP. -/
theorem decodeTotalAndLegal : Obligations.DecodeTotalAndLegal := decodesLegally

/-! ### Ignored bits (R123) -/

section
variable {c c' k : Word} (h : c &&& k = c' &&& k)
include h

/-- Two words that agree under a mask agree on each field that the mask covers. -/
theorem field_eq_of_masked {lo len : Nat} (hk : field k lo len = BitVec.allOnes len) :
    field c lo len = field c' lo len := by
  have hfield := congrArg (field · lo len) h
  simp only [field, BitVec.extractLsb'_and] at hfield hk ⊢
  simpa only [hk, BitVec.and_allOnes] using hfield

theorem dstField_eq_of_masked (hk : dstField k = 0xF#4) : dstField c = dstField c' :=
  field_eq_of_masked h hk

theorem srcField_eq_of_masked (hk : srcField k = 0xF#4) : srcField c = srcField c' :=
  field_eq_of_masked h hk

theorem countOf_eq_of_masked (hk : cntField k = 0x7#3) : countOf c = countOf c' := by
  rw [countOf, countOf, show cntField c = cntField c' from field_eq_of_masked h hk]

theorem mode2_eq_of_masked (hk : mode2 k = 3#2) : mode2 c = mode2 c' := by
  rw [mode2_eq_field] at hk ⊢
  rw [mode2_eq_field]
  exact field_eq_of_masked h hk

theorem mode3_eq_of_masked (hk : mode3 k = 7#3) : mode3 c = mode3 c' := by
  rw [mode3_eq_field] at hk ⊢
  rw [mode3_eq_field]
  exact field_eq_of_masked h hk

theorem fnFlag_eq_of_masked {i : Nat} (hk : (fnField k).getLsbD i = true) :
    (fnField c).getLsbD i = (fnField c').getLsbD i := by
  rw [fnField, field, BitVec.getLsbD_extractLsb', Bool.and_eq_true] at hk
  rw [fnField, fnField, field, field, BitVec.getLsbD_extractLsb', BitVec.getLsbD_extractLsb',
    getLsbD_eq_of_masked h hk.2]

end

/-- OP is named by every command. -/
theorem opField_usedBits (op : BitVec 4) : opField (usedBits op) = 0xF#4 := by
  revert op; decide

/-- Settles O3, OP by OP: the mask covers the fields that the command is made of. -/
theorem ignoredBitsDoNotMatter : Obligations.IgnoredBitsDoNotMatter := by
  intro c c' h
  have hop : opField c' = opField c := (field_eq_of_masked h (opField_usedBits _)).symm
  rcases op_cases (opField c) with hc | hc | hc | hc | hc | hc | hc | hc | hc | hc | hc | hc | hc
  case inr.inr.inr.inr.inr.inr.inr.inr.inr.inr.inr.inr =>
    rw [decode_illegal hc, decode_illegal (hop ▸ hc), hop]
  all_goals
    have hc' := hop.trans hc
    rw [hc] at h
  · rw [decode_nop hc, decode_nop hc']
  · rw [decode_synth hc, decode_synth hc', dstField_eq_of_masked h rfl, mode2_eq_of_masked h rfl]
  · rw [decode_normal hc, decode_normal hc', dstField_eq_of_masked h rfl, srcField_eq_of_masked h rfl,
      fnFlag_eq_of_masked (i := 0) h rfl, fnFlag_eq_of_masked (i := 1) h rfl,
      fnFlag_eq_of_masked (i := 2) h rfl]
  · rw [decode_grad hc, decode_grad hc', dstField_eq_of_masked h rfl, mode2_eq_of_masked h rfl]
  · rw [decode_glow hc, decode_glow hc', dstField_eq_of_masked h rfl,
      fnFlag_eq_of_masked (i := 0) h rfl, fnFlag_eq_of_masked (i := 1) h rfl,
      fnFlag_eq_of_masked (i := 2) h rfl, fnFlag_eq_of_masked (i := 3) h rfl]
  · rw [decode_merge hc, decode_merge hc', decodeMerge, dstField_eq_of_masked h rfl,
      countOf_eq_of_masked h rfl, mode2_eq_of_masked h rfl, decodeMerge]
  · rw [decode_colorize hc, decode_colorize hc', decodeColorize, dstField_eq_of_masked h rfl,
      mode3_eq_of_masked h rfl, decodeColorize]
  · rw [decode_copy hc, decode_copy hc', dstField_eq_of_masked h rfl, srcField_eq_of_masked h rfl]
  · rw [decode_release hc, decode_release hc', dstField_eq_of_masked h rfl]
  · rw [decode_import hc, decode_import hc', decodeImport, dstField_eq_of_masked h rfl,
      mode2_eq_of_masked h rfl, decodeImport]
  · rw [decode_export hc, decode_export hc', srcField_eq_of_masked h rfl]
  · rw [decode_rawfill hc, decode_rawfill hc', srcField_eq_of_masked h rfl]

/-! ### The word of each command (R129) -/

/-- Settles O4, row by row from the digits of the word. -/
theorem encodingRows : Obligations.EncodingRows := by
  intro d s m f0 f1 f2 f3 n h1 h8
  simp only [encode, cmdWord_toNat, setWidth_mode_toNat, fnFlags_toNat, cntOf_toNat h1 h8]
  and_intros <;> simp

/-! ### ILLEGAL_OP (R127) -/

theorem illegalOp_code (e : ErrCode) : e.code = 3 ↔ e = .illegalOp := by
  cases e <;> decide

@[simp] theorem dimFails_snd (s : State) : (dimFails s).2 = .invalidDim := rfl
@[simp] theorem emptyFails_snd (ds : List Desc) : (emptyFails ds).2 = .emptySrc := rfl
@[simp] theorem nomemFails_snd (s : State) (d : Slot) (n : Nat) : (nomemFails s d n).2 = .nomem := rfl
@[simp] theorem dmaFails_snd (s : State) (last : Nat) : (dmaFails s last).2 = .dmaRange := rfl

/-- A list of checks raises only the errors it names. -/
theorem firstFailing_ne_of_not_mem {l : List (Bool × ErrCode)} {e : ErrCode}
    (h : e ∉ l.map (·.2)) : firstFailing l ≠ some e := by
  intro he
  obtain ⟨p, hp, hpe⟩ := Option.map_eq_some_iff.1 he
  exact h (List.mem_map.2 ⟨p, List.mem_of_find?_eq_some hp, hpe⟩)

/-- A command that ends by `runCommand` with an error other than ILLEGAL_OP, or with none and work that
leaves STATUS alone. -/
def EndsLegally (i : Instr) (s : State) : Prop :=
  ∃ e work, exec i s = runCommand s e work ∧ e ≠ some .illegalOp ∧ work.status = s.status

theorem endsLegally_of_checks {i : Instr} {s work : State} {l : List (Bool × ErrCode)}
    (hi : exec i s = runCommand s (firstFailing l) work) (hw : work.status = s.status)
    (hl : .illegalOp ∉ l.map (·.2)) : EndsLegally i s :=
  ⟨_, work, hi, firstFailing_ne_of_not_mem hl, hw⟩

/-- No check of a legal command raises ILLEGAL_OP (R404). -/
theorem exec_endsLegally {i : Instr} (h : ¬i.IsIllegal) (s : State) : EndsLegally i s := by
  cases i with
  | nop => exact ⟨none, s, rfl, nofun, rfl⟩
  | release d => exact ⟨none, _, rfl, nofun, rfl⟩
  | synth d mode | grad d mode => exact endsLegally_of_checks rfl rfl (by simp)
  | normal d src z3d tan sharp => exact endsLegally_of_checks rfl rfl (by simp)
  | glow d wrapx wrapy curve rect => exact endsLegally_of_checks rfl rfl (by simp)
  | mergeAdd d n | mergeSub d n | mergeMul d n | mergeAdd3 d n =>
    exact endsLegally_of_checks rfl rfl (by simp)
  | colorizeMul d | colorizeAdd d | colorizeSub d | colorizeGray d | colorizeInv d | colorizeNop5 d
  | colorizeNop6 d | colorizeNop7 d => exact endsLegally_of_checks rfl rfl (by simp)
  | copy d src => exact endsLegally_of_checks rfl rfl (by simp)
  | importG d | importRgb d | importRgba d => exact endsLegally_of_checks rfl rfl (by simp)
  | exportBuf src | rawfill src => exact endsLegally_of_checks rfl rfl (by simp)
  | illegalImport3 => exact absurd (.inl rfl) h
  | illegal op => exact absurd (.inr ⟨op, rfl⟩) h

/-- The code of a command that ends legally: that of its error, or the one STATUS held. -/
theorem EndsLegally.errcode_ne {i : Instr} {s t : State} (hi : EndsLegally i s)
    (hs : s.status.errcode ≠ 3) (h : exec i s = .next t) : t.status.errcode ≠ 3 := by
  obtain ⟨e, work, hrun, he, hw⟩ := hi
  rcases runCommand_cases s e work t (hrun ▸ h) with ⟨c, rfl, rfl⟩ | ⟨-, rfl⟩
  · exact fun hc => he (congrArg some ((illegalOp_code c).1 hc))
  · rwa [complete_status, hw]

/-- An illegal command is the error completion ILLEGAL_OP (R127, R402). -/
theorem exec_illegal {i : Instr} (h : i.IsIllegal) (s : State) :
    exec i s = .next (s.complete (some .illegalOp)) := by
  rcases h with rfl | ⟨op, rfl⟩ <;> rfl

/-- Settles O49: the illegal commands have one completion, and no check of another has its code. -/
theorem illegalCompletes : Obligations.IllegalCompletes := by
  intro c op s t hs
  obtain ⟨-, -, -, hcode⟩ := hs
  refine ⟨exec_illegal (.inl rfl) s, fun _ => exec_illegal (.inr ⟨op, rfl⟩) s,
    fun hc => exec_illegal ((decodesLegally c).2.2 hc) s, fun hc h => ?_⟩
  have hlegal : ¬(decode c).IsIllegal := fun hi => hc ((decodesLegally c).2.1 hi)
  exact (exec_endsLegally hlegal s).errcode_ne (by rw [hcode]; decide) h

end Sys2Proof
end

section
/-! PROOFS. The datapath: the lanes of a blend (R162), the integer square root (R172), SineQ (R170), and the
curve tables of the exact real power (R177, R178, R290). -/

namespace Sys2Proof.Machine

/-! ### Blend (R162) -/

/-- Two equal lanes blend to themselves. -/
theorem blendLane_self {fade : Nat} (hf : fade ≤ 0x10000) (a : Nat) : blendLane fade a a = a :=
  Nat.le_antisymm (blendLane_le hf le_rfl le_rfl) (le_blendLane hf le_rfl le_rfl)

theorem blendLane_zero (a b : Nat) : blendLane 0 a b = a := by
  rw [blendLane_eq]; omega

/-- A fade below one does not reach a greater second lane: each of its units that is missing takes
`b - a` off the sum. -/
theorem blendLane_lt {fade a b : Nat} (hf : fade < 0x10000) (hab : a < b) : blendLane fade a b < b := by
  rw [blendLane_eq, Nat.div_lt_iff_lt_mul (by decide)]
  calc a * (0x10000 - fade) + b * fade < b * (0x10000 - fade) + b * fade :=
        Nat.add_lt_add_right (Nat.mul_lt_mul_of_pos_right hab (by omega)) _
    _ = b * 2 ^ 16 := by rw [← Nat.mul_add]; congr 1; omega

theorem blend_zero (a b : Texel) : blend a b 0 = a :=
  texel_ext fun l hl => by rw [lane_blend a b 0 hl (by decide), blendLane_zero]

theorem blend_self (a : Texel) {fade : Nat} (hf : fade ≤ 0x10000) : blend a a fade = a :=
  texel_ext fun l hl => by rw [lane_blend a a fade hl hf, blendLane_self hf]

/-- Settles O50: each law is one of `blendLane`, the lane of a blend. -/
theorem blendLaws : Obligations.BlendLaws := by
  intro a b fade l hf hl
  have hle : fade ≤ 0x10000 := hf.le
  refine ⟨?_, ?_, ?_, ?_, blend_zero a b, blend_self a hle, ?_⟩ <;> rw [lane_blend a b fade hl hle]
  · exact blendLane_eq fade _ _
  · exact le_blendLane hle (min_le_left _ _) (min_le_right _ _)
  · exact blendLane_le hle (le_max_left _ _) (le_max_right _ _)
  · exact blendLane_le hle
  · exact fun hab => (blendLane_lt hf hab).ne

/-! ### The integer square root (R172) -/

/-- The search of `isqrt` has digits enough: no root of `n` needs more than half of the digits of `n`. -/
theorem root_lt_two_pow {n r : Nat} (h : r * r ≤ n) : r < 2 ^ (n.log2 / 2 + 1) := by
  rw [← Nat.mul_self_lt_mul_self_iff]
  calc r * r ≤ n := h
    _ < 2 ^ (n.log2 + 1) := Nat.lt_log2_self
    _ ≤ 2 ^ ((n.log2 / 2 + 1) + (n.log2 / 2 + 1)) := Nat.pow_le_pow_right (by decide) (by omega)
    _ = 2 ^ (n.log2 / 2 + 1) * 2 ^ (n.log2 / 2 + 1) := Nat.pow_add _ _ _

/-- Every number whose square is at most `n` is at most `isqrt n` (R172). -/
theorem le_isqrt {n r : Nat} (h : r * r ≤ n) : r ≤ isqrt n := by
  refine bitSearch_greatest _ (fun i j hij hj => ?_) _ 0 r (decide_eq_true h)
    (by rw [Nat.zero_add]; exact root_lt_two_pow h)
  exact decide_eq_true ((Nat.mul_self_le_mul_self hij).trans (of_decide_eq_true hj))

/-- Settles O51: the search of `isqrt` keeps the square below `n` and misses no root. -/
theorem isqrtGreatest : Obligations.IsqrtGreatest :=
  fun n => ⟨isqrt_mul_self_le n, fun _ => le_isqrt⟩

/-! ### SineQ (R66, R170) -/

theorem sineRom_bounds : ∀ v ∈ sineRom, -16384 ≤ v ∧ v ≤ 16384 := by decide +kernel

theorem sineAt_bounds (k : Nat) : -16384 ≤ sineAt k ∧ sineAt k ≤ 16384 := by
  rcases Nat.lt_or_ge k sineRom.length with hk | hk
  · rw [sineAt, List.getD_eq_getElem _ _ hk]
    exact sineRom_bounds _ (List.getElem_mem hk)
  · rw [sineAt, List.getD_eq_default _ _ hk]
    decide

/-- SineQ reads its entry at `p / 64`, and the rest of `p` is how far the next entry counts. -/
theorem sineQ_eq (p : Int) : sineQ p = sineAt (p / 64 % 256).toNat +
    (sineAt ((p / 64 % 256).toNat + 1) - sineAt (p / 64 % 256).toNat) * (p % 64) / 64 := by
  unfold sineQ
  simp only
  rw [shr_eq_ediv, fdiv_eq_ediv _ (by decide)]
  rfl

theorem sineQ_mod (p : Int) : sineQ p = sineQ (p % 16384) := by
  have hindex : p % 16384 / 64 % 256 = p / 64 % 256 := by omega
  have hrest : p % 16384 % 64 = p % 64 := by omega
  rw [sineQ_eq, sineQ_eq (p % 16384), hindex, hrest]

theorem sineQ_bounds (p : Int) : -16384 ≤ sineQ p ∧ sineQ p ≤ 16384 :=
  interpolate_bounds (by decide) (sineAt_bounds _) (sineAt_bounds _) (by omega)

/-- Settles O53: SineQ lies between two neighbours of the ROM, and reads it by the digits of `p`. -/
theorem sineLaws : Obligations.SineLaws := fun p =>
  ⟨sineQ_eq p, sineQ_mod p, by decide, by decide, by decide, by decide, (sineQ_bounds p).1,
    (sineQ_bounds p).2⟩

/-! ### The exact real power in natural numbers (R177) -/

/-- The real power x^y, y = p/q in lowest terms, is the number whose q-th power is x^p. -/
theorem rpow_pow_den {x : Rat} (hx : 0 < x) (y : Rat) :
    ((x : ℝ) ^ (y : ℝ)) ^ y.den = (x : ℝ) ^ y.num := by
  have hy : (y : ℝ) * (y.den : ℝ) = (y.num : ℝ) := by exact_mod_cast Rat.mul_den_eq_num y
  rw [← Real.rpow_natCast, ← Real.rpow_mul (by exact_mod_cast hx.le), hy, Real.rpow_intCast]

theorem cast_mul_den {x : Rat} (hx : 0 < x) : (x : ℝ) * (x.den : ℝ) = (x.num.toNat : ℝ) := by
  have hnum : (x.num.toNat : ℤ) = x.num := Int.toNat_of_nonneg (Rat.num_pos.2 hx).le
  have hmul : x * x.den = (x.num.toNat : ℚ) := by
    rw [Rat.mul_den_eq_num]; exact_mod_cast hnum.symm
  exact_mod_cast hmul

/-- The fractions of `rpow_pow_den` cleared, for an exponent that is not negative. -/
theorem rpow_pow_mul_den {x y : Rat} (hx : 0 < x) (hy : 0 ≤ y.num) :
    ((x : ℝ) ^ (y : ℝ)) ^ y.den * (x.den : ℝ) ^ y.num.natAbs = (x.num.toNat : ℝ) ^ y.num.natAbs := by
  obtain ⟨p, hp⟩ := Int.eq_ofNat_of_zero_le hy
  rw [rpow_pow_den hx, hp, Int.natAbs_natCast, zpow_natCast, ← mul_pow, cast_mul_den hx]

/-- The fractions of `rpow_pow_den` cleared, for a negative exponent. -/
theorem rpow_pow_mul_num {x y : Rat} (hx : 0 < x) (hy : y.num < 0) :
    ((x : ℝ) ^ (y : ℝ)) ^ y.den * (x.num.toNat : ℝ) ^ y.num.natAbs = (x.den : ℝ) ^ y.num.natAbs := by
  have hne : (x : ℝ) ≠ 0 := by exact_mod_cast hx.ne'
  obtain ⟨p, hp⟩ := Int.eq_ofNat_of_zero_le (Int.neg_nonneg.2 hy.le)
  rw [rpow_pow_den hx, ← cast_mul_den hx, show y.num = -p by omega, Int.natAbs_neg,
    Int.natAbs_natCast, zpow_neg, zpow_natCast, mul_pow, inv_mul_cancel_left₀ (pow_ne_zero p hne)]

section
variable {z : ℝ} {q p u v : Nat}

theorem cast_bound_eq (hz : z ^ q * (v : ℝ) ^ p = (u : ℝ) ^ p) :
    ((32767 ^ q * u ^ p : ℕ) : ℝ) = (z * 32767) ^ q * (v : ℝ) ^ p := by
  push_cast
  rw [← hz]
  ring

/-- Of z^q = u^p / v^p, a comparison with 32767·z is one of natural numbers. -/
theorem natPow_le_iff (hz0 : 0 ≤ z) (hq : q ≠ 0) (hv : 0 < v)
    (hz : z ^ q * (v : ℝ) ^ p = (u : ℝ) ^ p) (n : Nat) :
    n ^ q * v ^ p ≤ 32767 ^ q * u ^ p ↔ (n : ℝ) ≤ z * 32767 := by
  have hvp : (0 : ℝ) < (v : ℝ) ^ p := by positivity
  rw [← Nat.cast_le (α := ℝ), cast_bound_eq hz, Nat.cast_mul, Nat.cast_pow, Nat.cast_pow,
    mul_le_mul_iff_left₀ hvp, pow_le_pow_iff_left₀ (Nat.cast_nonneg n) (by positivity) hq]

theorem natPow_lt_iff (hz0 : 0 ≤ z) (hq : q ≠ 0) (hv : 0 < v)
    (hz : z ^ q * (v : ℝ) ^ p = (u : ℝ) ^ p) (n : Nat) :
    n ^ q * v ^ p < 32767 ^ q * u ^ p ↔ (n : ℝ) < z * 32767 := by
  have hvp : (0 : ℝ) < (v : ℝ) ^ p := by positivity
  rw [← Nat.cast_lt (α := ℝ), cast_bound_eq hz, Nat.cast_mul, Nat.cast_pow, Nat.cast_pow,
    mul_lt_mul_iff_left₀ hvp, pow_lt_pow_iff_left₀ (Nat.cast_nonneg n) (by positivity) hq]

end

section
variable {x : Rat} (hx : 0 < x) (y : Rat)
include hx

theorem rpow_cast_pos : (0 : ℝ) < (x : ℝ) ^ (y : ℝ) :=
  Real.rpow_pos_of_pos (by exact_mod_cast hx) _

theorem num_toNat_pos : 0 < x.num.toNat := Int.pos_iff_toNat_pos.1 (Rat.num_pos.2 hx)

/-- `powAtLeast` compares with the real power (R177). -/
theorem powAtLeast_iff_le (n : Nat) :
    powAtLeast x y n = true ↔ (n : ℝ) ≤ (x : ℝ) ^ (y : ℝ) * 32767 := by
  have hz := (rpow_cast_pos hx y).le
  rw [powAtLeast_iff]
  split
  · next hy => exact natPow_le_iff hz y.den_nz x.den_pos (rpow_pow_mul_den hx hy) n
  · next hy =>
    exact natPow_le_iff hz y.den_nz (num_toNat_pos hx) (rpow_pow_mul_num hx (not_le.1 hy)) n

/-- `powAbove` compares with the real power (R177). -/
theorem powAbove_iff_lt (n : Nat) :
    powAbove x y n = true ↔ (n : ℝ) < (x : ℝ) ^ (y : ℝ) * 32767 := by
  have hz := (rpow_cast_pos hx y).le
  rw [powAbove_iff]
  split
  · next hy => exact natPow_lt_iff hz y.den_nz x.den_pos (rpow_pow_mul_den hx hy) n
  · next hy =>
    exact natPow_lt_iff hz y.den_nz (num_toNat_pos hx) (rpow_pow_mul_num hx (not_le.1 hy)) n

end

/-! ### The floors behind the tables (R177, R290) -/

/-- The search for the numbers up to `m` ends at `m`, or at the greatest number of `k` digits. -/
theorem bitSearch_eq_min {P : Nat → Bool} {m : Nat} (hP : ∀ n, P n = true ↔ n ≤ m) (k : Nat) :
    bitSearch P k 0 = min m (2 ^ k - 1) := by
  have hholds := (hP _).1 (bitSearch_holds P k 0 ((hP 0).2 (Nat.zero_le m)))
  have hlt := bitSearch_lt P k 0
  have hgreatest := bitSearch_greatest P (fun i j hij hj => (hP i).2 (hij.trans ((hP j).1 hj))) k 0
    (min m (2 ^ k - 1)) ((hP _).2 (min_le_left _ _)) (by have := Nat.two_pow_pos k; omega)
  omega

/-- The integer behind a table of the exact power, for x > 0: the floor, up to the clamp of Entry. -/
theorem powFloor_exactReal {x : Rat} (hx : 0 < x) (y : Rat) :
    powFloor .exactReal x y = min ⌊(x : ℝ) ^ (y : ℝ) * 32767⌋ 32767 := by
  have hw : (0 : ℝ) ≤ (x : ℝ) ^ (y : ℝ) * 32767 := by have := rpow_cast_pos hx y; positivity
  have hsearch : bitSearch (powAtLeast x y) 15 0 = min ⌊(x : ℝ) ^ (y : ℝ) * 32767⌋₊ 32767 :=
    bitSearch_eq_min (fun n => (powAtLeast_iff_le hx y n).trans (Nat.le_floor_iff hw).symm) 15
  rw [powFloor, hsearch, Nat.cast_min, Int.natCast_floor_eq_floor hw]
  rfl

theorem oneMinusPowFloor_exactReal_eq (x y : Rat) :
    oneMinusPowFloor .exactReal x y = 32767 - ((bitSearch (powAbove x y) 15 0 : Int) + 1) := rfl

theorem oneMinusPowFloor_other_eq (x y : Rat) :
    oneMinusPowFloor .other x y = max ((1 - otherPow x y) * 32767).floor (-1) := rfl

/-- The floor of one minus a number is 32767 minus the ceiling of the scaled number. -/
theorem floor_one_sub_scaled (z : ℝ) : ⌊(1 - z) * 32767⌋ = 32767 - ⌈z * 32767⌉ := by
  rw [show (1 - z) * 32767 = ((32767 : ℤ) : ℝ) + -(z * 32767) by push_cast; ring,
    Int.floor_intCast_add, Int.floor_neg, sub_eq_add_neg]

/-- The integer behind an inverted table of the exact power, for x > 0: the greatest number below
the scaled power, and one more, is its ceiling, unless the search ends at its 15 digits. -/
theorem oneMinusPowFloor_exactReal {x : Rat} (hx : 0 < x) (y : Rat) :
    oneMinusPowFloor .exactReal x y = max ⌊(1 - (x : ℝ) ^ (y : ℝ)) * 32767⌋ (-1) := by
  have hw : (0 : ℝ) < (x : ℝ) ^ (y : ℝ) * 32767 := by have := rpow_cast_pos hx y; positivity
  have hpos : 0 < ⌈(x : ℝ) ^ (y : ℝ) * 32767⌉₊ := Nat.ceil_pos.2 hw
  have hsearch : bitSearch (powAbove x y) 15 0 = min (⌈(x : ℝ) ^ (y : ℝ) * 32767⌉₊ - 1) 32767 :=
    bitSearch_eq_min (fun n => by rw [powAbove_iff_lt hx, ← Nat.lt_ceil, Nat.lt_iff_le_pred hpos]) 15
  rw [oneMinusPowFloor_exactReal_eq, hsearch, floor_one_sub_scaled, ← Int.natCast_ceil_eq_ceil hw.le]
  generalize ⌈(x : ℝ) ^ (y : ℝ) * 32767⌉₊ = c at hpos ⊢
  omega

/-! ### Entry of the curves (R178) -/

theorem entry_scaled (n : Int) : entry (.scaled n) = 2 * max 0 (min n 32767) := by
  simp only [entry, clampZ]
  omega

section
variable (pf : PowFn) {x : Rat} (y : Rat)

theorem powCurve_of_pos (hx : 0 < x) : powCurve pf x y = .scaled (powFloor pf x y) := if_neg hx.ne'

theorem oneMinusPowCurve_of_pos (hx : 0 < x) :
    oneMinusPowCurve pf x y = .scaled (oneMinusPowFloor pf x y) := if_neg hx.ne'

/-- POW(1, y) is 1 with every power function. -/
theorem powFloor_one : powFloor pf 1 y = 32767 := by
  cases pf with
  | exactReal => rw [powFloor_exactReal one_pos, Rat.cast_one, Real.one_rpow]; norm_num
  | other => rw [powFloor, otherPow, if_pos rfl, one_mul]; rfl

theorem oneMinusPowFloor_one : oneMinusPowFloor pf 1 y = 0 := by
  cases pf with
  | exactReal => rw [oneMinusPowFloor_exactReal one_pos, Rat.cast_one, Real.one_rpow]; norm_num
  | other => rw [oneMinusPowFloor_other_eq, otherPow, if_pos rfl, sub_self, zero_mul]; rfl

/-- The cases of x = 0: 0, 1 and +infinity by the sign of y, and Entry of the last two agrees. -/
theorem entry_powCurve_zero : entry (powCurve pf 0 y) = if 0 < y then 0 else 65534 := by
  rw [powCurve, if_pos rfl]
  split
  · rfl
  · split <;> rfl

theorem entry_oneMinusPowCurve_zero :
    entry (oneMinusPowCurve pf 0 y) = if 0 < y then 65534 else 0 := by
  rw [oneMinusPowCurve, if_pos rfl]
  split
  · rfl
  · split <;> rfl

end

/-- Settles O52: the searches end at the floors, and Entry clamps them. -/
theorem powerFloors : Obligations.PowerFloors := by
  refine ⟨fun x y hx => ?_, fun pf y => ?_, rfl, rfl⟩
  · have hpow := powFloor_exactReal hx y
    have hone := oneMinusPowFloor_exactReal hx y
    refine ⟨hpow, hone, ?_, ?_⟩
    · rw [powCurve_of_pos _ _ hx, entry_scaled, hpow]
      omega
    · rw [oneMinusPowCurve_of_pos _ _ hx, entry_scaled, hone]
      omega
  · refine ⟨?_, ?_, entry_powCurve_zero pf y, entry_oneMinusPowCurve_zero pf y⟩
    · rw [powCurve_of_pos _ _ one_pos, powFloor_one, entry_scaled]
      decide
    · rw [oneMinusPowCurve_of_pos _ _ one_pos, oneMinusPowFloor_one, entry_scaled]
      decide

end Sys2Proof.Machine
end

section
/-! PROOFS. SYNTH: the skip of whole octaves changes no sum (R208), the value of every texel (R203 to R209,
R212 to R214), and the periodicity of the noise and of the sample positions (R211). -/

namespace Sys2Proof.Machine

/-! ### The buffer that SYNTH makes (R38, R200) -/

/-- The checks of SYNTH into slot d pass (R200). -/
structure SynthFits (s : State) (d : Slot) : Prop where
  width : 1 ≤ s.snap.par.width.toInt
  height : 1 ≤ s.snap.par.height.toInt
  room : OutputFits s d (parCount s)

/-- Pixel (x, y) lies in the output of SYNTH. -/
structure InSynth (s : State) (x y : Nat) : Prop where
  column : x < s.snap.par.width.toNat
  row : y < s.snap.par.height.toNat

theorem SynthFits.toNat_width {s : State} {d : Slot} (h : SynthFits s d) :
    (widthOf s).toNat = s.snap.par.width.toNat := (widthOf_toNat h.width).1

theorem SynthFits.toNat_height {s : State} {d : Slot} (h : SynthFits s d) :
    (heightOf s).toNat = s.snap.par.height.toNat := (heightOf_toNat h.height).1

theorem SynthFits.no_error {s : State} {d : Slot} (h : SynthFits s d) : synthError s d = none := by
  have hdim : (dimFails s).1 = false :=
    decide_eq_false (not_or.2 ⟨not_lt.2 h.width, not_lt.2 h.height⟩)
  have hroom : (nomemFails s d ((widthOf s).toNat * (heightOf s).toNat)).1 = false :=
    nomem_pass h.room
  rw [synthError, firstFailing_cons, firstFailing_cons, if_neg (Bool.eq_false_iff.1 hdim),
    if_neg (Bool.eq_false_iff.1 hroom), firstFailing_nil]

theorem exec_synth (d : Slot) (mode : BitVec 2) (s : State) :
    exec (.synth d mode) s = execSynth d mode s := rfl

/-- SYNTH whose checks pass completes with the buffer of `synthTexel`. -/
theorem synth_succeeds {d : Slot} {s : State} (h : SynthFits s d) (mode : BitVec 2) :
    Succeeds (.synth d mode) s fun t =>
      ProducedBuffer s t d s.snap.par.width s.snap.par.height (synthTexel s mode) := by
  refine succeeds_of_run (exec_synth d mode s) h.no_error (sameRegisters_of_work s _ s.hmem _) rfl ?_
  have hbuf := produce_buffer s d s.snap.par.width.isLt s.snap.par.height.isLt (synthTexel s mode)
  rw [h.toNat_width, h.toNat_height]
  simpa only [ofNat_toNat_word] using hbuf.complete none

/-- SYNTH completes with the texels of any function that agrees with `synthTexel` on the buffer. -/
theorem synth_succeeds_of_eq {d : Slot} {s : State} {mode : BitVec 2} {px : Nat → Nat → Texel}
    (h : SynthFits s d) (hpx : ∀ x y, InSynth s x y → synthTexel s mode x y = px x y) :
    Succeeds (.synth d mode) s fun t =>
      ProducedBuffer s t d s.snap.par.width s.snap.par.height px := by
  obtain ⟨t, hexec, hstatus, hregs, hbuf⟩ := synth_succeeds h mode
  exact ⟨t, hexec, hstatus, hregs, hbuf.congr fun x y hx hy => hpx x y ⟨hx, hy⟩⟩

/-! ### Zero octaves (R203) -/

theorem synthTexel_of_oct_zero {s : State} (h : s.snap.par.oct = 0) (mode : BitVec 2) (x y : Nat) :
    synthTexel s mode x y = pack32 s.snap.par.color0 := if_pos (by rw [h]; rfl)

/-- Settles O32: a texel of SYNTH reads neither the lattice nor a parameter but the low colour then. -/
theorem synthZeroOctaves : Obligations.SynthZeroOctaves :=
  fun _ mode _ hw hh hfit hoct =>
    synth_succeeds_of_eq ⟨hw, hh, hfit⟩ fun x y _ => synthTexel_of_oct_zero hoct mode x y

/-! ### One octave (R204 to R207) -/

theorem cellFrac_eq (i u : Nat) : cellFrac i u = u * 2 ^ i % 65536 := by
  rw [cellFrac, Nat.shiftLeft_eq]

theorem cellIndex_eq (i u : Nat) : cellIndex i u = u / 2 ^ (16 - i) := Nat.shiftRight_eq_div_pow u _

theorem quintic_eq (t : Int) :
    quintic t = fdiv (t ^ 3 * (6 * t ^ 2 - 15 * 65536 * t + 10 * 65536 ^ 2)) (2 ^ 64) := by
  rw [quintic, shr_eq_ediv, fdiv_eq_ediv _ (by decide)]

/-- The octave of the model at a pixel is the octave as the rules write it. -/
theorem octaveNoise_samplePos (s : State) (i x y : Nat) :
    octaveNoise s.lattice s.snap.par.seed.toNat i (samplePos x s.snap.par.width.toNat)
      (samplePos y s.snap.par.height.toNat) = octaveAt s i x y := by
  simp only [octaveNoise, cellFrac_eq, cellIndex_eq, quintic_eq]
  rfl

theorem octaveAmplitude_eq (s : State) (i : Nat) :
    octaveAmplitude s.params.octaveOrigin (fin32 s.snap.par.falloff) s.snap.par.freq.toNat i =
      amplitudeAt s i := by
  unfold octaveAmplitude amplitudeAt
  cases s.params.octaveOrigin <;> rfl

@[simp] theorem cornerDot_zero (g : Int × Int) : cornerDot g 0 0 = 0 := by simp [cornerDot]

@[simp] theorem quintic_zero : quintic 0 = 0 := by decide

@[simp] theorem lerp_weight_zero (a b : Int) : lerp a b 0 = a := by simp [lerp]

/-- On a lattice point an octave is 0: all weight is on the corner there, at distance 0 (R208). -/
theorem octaveNoise_of_cellFrac_zero {i u w : Nat} (l : Lattice) (seed : Nat) (hu : cellFrac i u = 0)
    (hw : cellFrac i w = 0) : octaveNoise l seed i u w = 0 := by
  simp [octaveNoise, hu, hw]

/-! ### The sum without the skip (R208, R209) -/

theorem cellFrac_of_sixteen_le {i : Nat} (h : 16 ≤ i) (u : Nat) : cellFrac i u = 0 := by
  have hdvd : 65536 ∣ u * 2 ^ i := Dvd.dvd.mul_left (Nat.pow_dvd_pow 2 h) u
  rw [cellFrac_eq, Nat.mod_eq_zero_of_dvd hdvd]

/-- An octave is skipped when every sample of the output lies on its lattice (R208). -/
theorem octaveSkipped_iff (w h i : Nat) : octaveSkipped w h i = true ↔
    (∀ x, x < w → cellFrac i (samplePos x w) = 0) ∧ ∀ y, y < h → cellFrac i (samplePos y h) = 0 := by
  simp [octaveSkipped]

theorem lt_sixteen_of_not_skipped {w h i : Nat} (hk : octaveSkipped w h i = false) : i < 16 := by
  by_contra hi
  have hall := cellFrac_of_sixteen_le (not_lt.1 hi)
  rw [(octaveSkipped_iff w h i).2 ⟨fun _ _ => hall _, fun _ _ => hall _⟩] at hk
  cases hk

/-- The term of octave i in the sum of R209. -/
def octaveTerm (s : State) (x y i : Nat) : Int := fdiv (octaveAt s i x y * amplitudeAt s i) 65536

theorem octaveTerm_of_skipped {s : State} {x y i : Nat} (hin : InSynth s x y)
    (hk : octaveSkipped s.snap.par.width.toNat s.snap.par.height.toNat i = true) :
    octaveTerm s x y i = 0 := by
  obtain ⟨hx, hy⟩ := (octaveSkipped_iff _ _ i).1 hk
  rw [octaveTerm, ← octaveNoise_samplePos,
    octaveNoise_of_cellFrac_zero _ _ (hx x hin.column) (hy y hin.row), zero_mul, fdiv_zero_left]

/-- Inside the output, keeping the octaves of R208 counts the same as keeping those below 16. -/
theorem term_if_kept {s : State} {x y : Nat} (hin : InSynth s x y) (i : Nat) :
    (if octaveSkipped s.snap.par.width.toNat s.snap.par.height.toNat i = true then 0
      else octaveTerm s x y i) = if i < 16 then octaveTerm s x y i else 0 := by
  cases hk : octaveSkipped s.snap.par.width.toNat s.snap.par.height.toNat i with
  | true => simp [octaveTerm_of_skipped hin hk]
  | false => simp [lt_sixteen_of_not_skipped hk]

theorem noiseAcc_eq_sum (l : Lattice) (seed : Nat) (octs : List (Nat × Int)) (u w : Nat) :
    noiseAcc l seed octs u w =
      (octs.map fun ia => fdiv (octaveNoise l seed ia.1 u w * ia.2) 65536).sum := by
  rw [noiseAcc, List.sum_eq_foldl, List.foldl_map]

/-- A sum over a filtered list is the sum over the whole list with 0 for what the filter drops. -/
theorem sum_map_filter_not {α : Type} (p : α → Bool) (f : α → Int) (l : List α) :
    ((l.filter fun a => !p a).map f).sum = (l.map fun a => if p a = true then 0 else f a).sum := by
  induction l with
  | nil => rfl
  | cons a l ih => cases hp : p a <;> simp [hp, ih]

/-- The sum over the kept octaves is the sum over every octave below 16: the skip changes no result. -/
theorem noiseAcc_synthOctaves {s : State} {d : Slot} {x y : Nat} (h : SynthFits s d)
    (hin : InSynth s x y) :
    noiseAcc s.lattice s.snap.par.seed.toNat (synthOctaves s) (samplePos x (widthOf s).toNat)
      (samplePos y (heightOf s).toNat) = fullNoise s x y := by
  have hterm : ∀ i, fdiv (octaveNoise s.lattice s.snap.par.seed.toNat i
      (samplePos x s.snap.par.width.toNat) (samplePos y s.snap.par.height.toNat) *
      octaveAmplitude s.params.octaveOrigin (fin32 s.snap.par.falloff) s.snap.par.freq.toNat i) 65536 =
      octaveTerm s x y i := fun i => by
    rw [octaveNoise_samplePos, octaveAmplitude_eq, octaveTerm]
  rw [noiseAcc_eq_sum, synthOctaves, h.toNat_width, h.toNat_height, List.map_map, keptOctaves]
  simp only [Function.comp_def, hterm, sum_map_filter_not, term_if_kept hin, List.map_map]
  rfl

/-! ### The texel (R212 to R214) -/

/-- Remap, by the number of the mode (R212). -/
theorem noiseRemap_eq (mode : BitVec 2) (acc : Int) : noiseRemap mode acc =
    if mode = 0 then acc else if mode = 1 then |acc| else if mode = 2 then sineQ acc
      else sineQ |acc| := by
  obtain rfl | rfl | rfl | rfl : mode = 0 ∨ mode = 1 ∨ mode = 2 ∨ mode = 3 := by
    revert mode; decide
  all_goals rfl

/-- Scale, by the number of the mode: the odd ones have no bias and twice the gain (R213). -/
theorem noiseScale_eq (mode : BitVec 2) (ampf r : Int) : noiseScale mode ampf r =
    if mode = 1 ∨ mode = 3 then fdiv (r * ampf) (2 ^ 14)
      else fdiv (r * ampf) (2 ^ 15) + 0x4000 := by
  have hodd : mode.getLsbD 0 = true ↔ mode = 1 ∨ mode = 3 := by revert mode; decide
  simp only [noiseScale, hodd]

theorem gammaLookup_eq_tableAt (v : Nat) (T : Nat → Int) : gammaLookup v T = tableAt T v := by
  have hrest : v &&& 31 = v % 32 := Nat.and_two_pow_sub_one_eq_mod v 5
  have hindex : v >>> 5 = v / 32 := Nat.shiftRight_eq_div_pow v 5
  rw [gammaLookup, hrest, hindex, tableAt]

/-- A texel of SYNTH inside the output, from the noise without the skip. -/
theorem synthTexel_eq {s : State} {d : Slot} {x y : Nat} (h : SynthFits s d) (hin : InSynth s x y)
    (mode : BitVec 2) : synthTexel s mode x y =
      if s.snap.par.oct.toNat = 0 then pack32 s.snap.par.color0
      else blend (pack32 s.snap.par.color0) (pack32 s.snap.par.color1)
        (synthFade s mode (fullNoise s x y)) := by
  rw [synthTexel, noiseAcc_synthOctaves h hin]

/-- Settles O31: the skip changes no sum, and the fade is the written-out table at the written-out
remap and scale. -/
theorem synthResult : Obligations.SynthResult := by
  intro d mode s hw hh hfit hoct
  have h : SynthFits s d := ⟨hw, hh, hfit⟩
  have hoct' : s.snap.par.oct.toNat ≠ 0 := fun h0 => hoct (BitVec.eq_of_toNat_eq h0)
  refine synth_succeeds_of_eq h fun x y hin => ?_
  rw [synthTexel_eq h hin, if_neg hoct', synthFade, gammaLookup_eq_tableAt, noiseScale_eq,
    noiseRemap_eq]
  rfl

/-! ### The torus (R211) -/

theorem cellFrac_add_turn (i u : Nat) : cellFrac i (u + 65536) = cellFrac i u := by
  rw [cellFrac_eq, cellFrac_eq, Nat.add_mul, Nat.add_mul_mod_self_left]

/-- One turn of the torus is 2^i cells at octave i, or 2^16 at a finer one. -/
theorem cellIndex_add_turn (i u : Nat) :
    cellIndex i (u + 65536) = cellIndex i u + 2 ^ min i 16 := by
  have hturn : 65536 = 2 ^ min i 16 * 2 ^ (16 - i) := by
    rw [← Nat.pow_add, show min i 16 + (16 - i) = 16 by omega]
  rw [cellIndex_eq, cellIndex_eq, hturn, Nat.add_mul_div_right _ _ (Nat.two_pow_pos _)]

/-- The mask of R206 keeps the low digits of a cell: as many as the octave has, and at most 8. -/
theorem and_cellMask (i k : Nat) : k &&& ((2 ^ i - 1) &&& 255) = k % 2 ^ min i 8 := by
  have hbyte : k % 2 ^ i &&& 255 = k % 2 ^ i % 2 ^ 8 := Nat.and_two_pow_sub_one_eq_mod _ 8
  rw [← Nat.and_assoc, Nat.and_two_pow_sub_one_eq_mod, hbyte]
  rcases le_total i 8 with hi | hi
  · have hlt : k % 2 ^ i < 2 ^ 8 :=
      (Nat.mod_lt _ (Nat.two_pow_pos i)).trans_le (Nat.pow_le_pow_right (by decide) hi)
    rw [min_eq_left hi, Nat.mod_eq_of_lt hlt]
  · rw [min_eq_right hi, Nat.mod_mod_of_dvd _ (Nat.pow_dvd_pow 2 hi)]

/-- A turn of the torus comes back to the same masked cell, and to the same neighbour. -/
theorem maskedCell_add_turn (i u n : Nat) :
    (cellIndex i (u + 65536) + n) &&& ((2 ^ i - 1) &&& 255) =
      (cellIndex i u + n) &&& ((2 ^ i - 1) &&& 255) := by
  have hdvd : 2 ^ min i 8 ∣ 2 ^ min i 16 := Nat.pow_dvd_pow 2 (by omega)
  rw [and_cellMask, and_cellMask, cellIndex_add_turn, Nat.add_right_comm]
  obtain ⟨k, hk⟩ := hdvd
  rw [hk, Nat.add_mul_mod_self_left]

theorem octaveNoise_add_turn (l : Lattice) (seed i u w : Nat) :
    octaveNoise l seed i (u + 65536) w = octaveNoise l seed i u w ∧
      octaveNoise l seed i u (w + 65536) = octaveNoise l seed i u w := by
  have hcell := fun v => maskedCell_add_turn i v 0
  have hnext := fun v => maskedCell_add_turn i v 1
  simp only [Nat.add_zero] at hcell
  simp only [octaveNoise, cellFrac_add_turn, hcell, hnext, and_self]

theorem noiseAcc_add_turn (l : Lattice) (seed : Nat) (octs : List (Nat × Int)) (u w : Nat) :
    noiseAcc l seed octs (u + 65536) w = noiseAcc l seed octs u w ∧
      noiseAcc l seed octs u (w + 65536) = noiseAcc l seed octs u w := by
  simp only [noiseAcc, octaveNoise_add_turn, and_self]

/-! ### Buffers of other sizes (R211) -/

/-- The machine of `s'` is that of `s`, but for the size of the output and the descriptors. -/
structure Resized (s s' : State) (w h : Word) : Prop where
  lattice : s'.lattice = s.lattice
  params : s'.params = s.params
  par : s'.snap.par = { s.snap.par with width := w, height := h }

section
variable {s s' : State} {w h : Word} {x y x' y' : Nat}

/-- The noise depends on the size of the output only through the sample positions. -/
theorem Resized.fullNoise_eq (hr : Resized s s' w h)
    (hx : samplePos x' w.toNat = samplePos x s.snap.par.width.toNat)
    (hy : samplePos y' h.toNat = samplePos y s.snap.par.height.toNat) :
    fullNoise s' x' y' = fullNoise s x y := by
  simp only [fullNoise, amplitudeAt, ← octaveNoise_samplePos, hr.lattice, hr.params, hr.par, hx, hy]

theorem Resized.synthFade_eq (hr : Resized s s' w h) (mode : BitVec 2) (acc : Int) :
    synthFade s' mode acc = synthFade s mode acc := by
  simp only [synthFade, ampOf, hr.params, hr.par]

/-- Two outputs of SYNTH, of slots in two machines that differ in the size, agree wherever their
sample positions do. -/
theorem Resized.synth_agrees {d : Slot} (hr : Resized s s' w h) (hs : SynthFits s d)
    (hs' : SynthFits s' d) (mode : BitVec 2) :
    ∃ t t', exec (.synth d mode) s = .next t ∧ exec (.synth d mode) s' = .next t' ∧
      ∀ x y x' y', InSynth s x y → InSynth s' x' y' →
        samplePos x' w.toNat = samplePos x s.snap.par.width.toNat →
        samplePos y' h.toNat = samplePos y s.snap.par.height.toNat →
        ∃ v, t.tmem.find ((s.snap.desc.at d).base.toNat + (y * s.snap.par.width.toNat + x)) = some v ∧
          t'.tmem.find ((s'.snap.desc.at d).base.toNat + (y' * w.toNat + x')) = some v := by
  obtain ⟨t, hexec, -, -, hbuf⟩ := synth_succeeds hs mode
  obtain ⟨t', hexec', -, -, hbuf'⟩ := synth_succeeds hs' mode
  refine ⟨t, t', hexec, hexec', fun x y x' y' hin hin' hx hy => ?_⟩
  have htexel : synthTexel s' mode x' y' = synthTexel s mode x y := by
    rw [synthTexel_eq hs hin, synthTexel_eq hs' hin', hr.fullNoise_eq hx hy, hr.synthFade_eq, hr.par]
  have hfind' := hbuf'.texels x' y' hin'.column hin'.row
  rw [htexel, hr.par] at hfind'
  exact ⟨_, hbuf.texels x y hin.column hin.row, hfind'⟩

end

/-- A size doubled within 31 bits. -/
theorem double_word {w : Word} (h1 : 1 ≤ w.toInt) (h2 : 2 * w.toInt < 2 ^ 31) :
    (2 * w).toNat = 2 * w.toNat ∧ 1 ≤ (2 * w).toInt := by
  have := w.isLt
  rw [BitVec.toInt_eq_toNat_cond] at h1 h2 ⊢
  have htwo : (2 : Word).toNat = 2 := rfl
  have hdouble : (2 * w).toNat = 2 * w.toNat := by
    rw [BitVec.toNat_mul, htwo]; omega
  omega

/-- Every second sample of a size doubled is a sample of the size. -/
theorem samplePos_double (x size : Nat) : samplePos (2 * x) (2 * size) = samplePos x size := by
  rw [samplePos, Nat.mul_assoc, Nat.mul_div_mul_left _ _ (by decide), samplePos]

/-- Settles O33: a turn of the torus changes no cell and no fraction, and the samples of the smaller
buffer are among those of the greater. -/
theorem synthTileable : Obligations.SynthTileable := by
  refine ⟨noiseAcc_add_turn, ?_, ?_⟩
  · intro d mode s s' hlat hparams hw hh hfit hfit' hsmall hpar
    obtain ⟨hdouble, hpos⟩ := double_word hw hsmall
    have hr : Resized s s' (2 * s.snap.par.width) s.snap.par.height := ⟨hlat, hparams, hpar⟩
    have hs' : SynthFits s' d := ⟨by rw [hpar]; exact hpos, by rw [hpar]; exact hh, hfit'⟩
    obtain ⟨t, t', hexec, hexec', hagree⟩ := hr.synth_agrees ⟨hw, hh, hfit⟩ hs' mode
    refine ⟨t, t', hexec, hexec', fun x y hx hy => ?_⟩
    have hin' : InSynth s' (2 * x) y := by
      constructor <;> simp only [hpar]
      · omega
      · exact hy
    rw [← hdouble]
    exact hagree x y (2 * x) y ⟨hx, hy⟩ hin' (by rw [hdouble, samplePos_double]) rfl
  · intro d mode s s' hlat hparams hw hh hfit hfit' hsmall hpar
    obtain ⟨hdouble, hpos⟩ := double_word hh hsmall
    have hr : Resized s s' s.snap.par.width (2 * s.snap.par.height) := ⟨hlat, hparams, hpar⟩
    have hs' : SynthFits s' d := ⟨by rw [hpar]; exact hw, by rw [hpar]; exact hpos, hfit'⟩
    obtain ⟨t, t', hexec, hexec', hagree⟩ := hr.synth_agrees ⟨hw, hh, hfit⟩ hs' mode
    refine ⟨t, t', hexec, hexec', fun x y hx hy => ?_⟩
    have hin' : InSynth s' x (2 * y) := by
      constructor <;> simp only [hpar]
      · exact hx
      · omega
    exact hagree x y x (2 * y) ⟨hx, hy⟩ hin' rfl (by rw [hdouble, samplePos_double])

end Sys2Proof.Machine
end

section
/-! PROOFS. NORMAL: the buffer it makes (R38, R240), the value of every texel as the rules write it (R241 to
R248), and the upright normal of a flat source (R249). -/

namespace Sys2Proof.Machine

/-! ### The buffer that NORMAL makes (R38, R240) -/

/-- The checks of NORMAL from slot src into slot d pass (R240). -/
structure NormalFits (s : State) (d src : Slot) : Prop where
  valid : (s.snap.desc.at src).valid = true
  room : OutputFits s d (s.snap.desc.at src).count
  disjoint : NoOverlap (s.snap.desc.at d).base.toNat (s.snap.desc.at src).count
    (s.snap.desc.at src).base.toNat (s.snap.desc.at src).count

/-- Pixel (x, y) lies in the buffer of a descriptor. -/
structure Desc.InBuffer (ds : Desc) (x y : Nat) : Prop where
  column : x < ds.w.toNat
  row : y < ds.h.toNat

/-- Regions without a common index do not overlap (R39). -/
theorem Region.overlaps_eq_false {r q : Region} (h : NoOverlap r.base r.count q.base q.count) :
    r.overlaps q = false := by
  refine Bool.eq_false_iff.2 fun hov => ?_
  obtain ⟨i, hr, hq⟩ := (Region.overlaps_iff r q).1 hov
  obtain ⟨hr1, hr2⟩ := (Region.has_iff r i).1 hr
  obtain ⟨hq1, hq2⟩ := (Region.has_iff q i).1 hq
  exact h i ⟨hr1, hr2, hq1, hq2⟩

theorem NormalFits.no_error {s : State} {d src : Slot} (h : NormalFits s d src) :
    normalError s d src = none := by
  have hempty : (emptyFails [s.snap.desc.at src]).1 = false := by simp [emptyFails, h.valid]
  have hroom : (nomemFails s d (s.snap.desc.at src).count).1 = false := nomem_pass h.room
  have halias : (outRegion s d (s.snap.desc.at src).count).overlaps
      (s.snap.desc.at src).region = false := Region.overlaps_eq_false h.disjoint
  rw [normalError, firstFailing_cons, firstFailing_cons, firstFailing_cons,
    if_neg (Bool.eq_false_iff.1 hempty), if_neg (Bool.eq_false_iff.1 hroom),
    if_neg (Bool.eq_false_iff.1 halias), firstFailing_nil]

theorem exec_normal (d src : Slot) (z3d tan sharp : Bool) (s : State) :
    exec (.normal d src z3d tan sharp) s = execNormal d src z3d tan sharp s := rfl

/-- NORMAL whose checks pass completes with the texels of any function that agrees with `normalTexel` on
the buffer. -/
theorem normal_succeeds_of_eq {d src : Slot} {z3d tan sharp : Bool} {s : State}
    {px : Nat → Nat → Texel} (h : NormalFits s d src)
    (hpx : ∀ x y, (s.snap.desc.at src).InBuffer x y →
      normalTexel s (s.snap.desc.at src) z3d tan sharp x y = px x y) :
    Succeeds (.normal d src z3d tan sharp) s fun t =>
      ProducedBuffer s t d (s.snap.desc.at src).w (s.snap.desc.at src).h px := by
  refine succeeds_of_run (exec_normal d src z3d tan sharp s) h.no_error
    (sameRegisters_of_work s _ s.hmem _) rfl ?_
  have hbuf := produce_buffer s d (s.snap.desc.at src).w.isLt (s.snap.desc.at src).h.isLt
    (normalTexel s (s.snap.desc.at src) z3d tan sharp)
  rw [ofNat_toNat_word, ofNat_toNat_word] at hbuf
  exact (hbuf.complete none).congr fun x y hx hy => hpx x y ⟨hx, hy⟩

/-! ### The differences and the slopes (R241 to R244) -/

/-- The sums over the taps are the differences as the rules write them. -/
theorem diff_eq_gradientOf (s : State) (ds : Desc) (sharp : Bool) (x y : Int) :
    diffX s ds sharp x y = (gradientOf (heightAt s ds) sharp x y).1 ∧
      diffY s ds sharp x y = (gradientOf (heightAt s ds) sharp x y).2 := by
  simp only [diffX, diffY, kernelTaps, gradientOf]
  cases sharp with
  | true => constructor <;> simp <;> ring_nf
  | false => constructor <;> simp <;> ring_nf

theorem slope_eq (g str : Int) (size : Nat) :
    slope g str size = clampS15 (fdiv (g * str * 2 ^ Nat.log2 size) (2 ^ 12)) := by
  rw [slope, Nat.cast_pow, Nat.cast_ofNat]

/-! ### The z reconstruction (R245, R246) -/

/-- The radicand of R246. -/
def radicand (nx ny : Int) : Int := 16383 ^ 2 - nx ^ 2 - ny ^ 2

/-- A component v of (nx, ny) on the circle of radius 16383 (R246). -/
def onCircle (nx ny v : Int) : Int :=
  clampS15 (fdiv (v * 16383) (isqrt (nx ^ 2 + ny ^ 2).toNat))

theorem zRec_false (nx ny : Int) : zRec false nx ny = (nx, ny, 16383) := rfl

theorem zRec_of_radicand_nonneg {nx ny : Int} (h : 0 ≤ radicand nx ny) :
    zRec true nx ny = (nx, ny, (isqrt (radicand nx ny).toNat : Int)) := if_pos h

theorem zRec_of_radicand_neg {nx ny : Int} (h : radicand nx ny < 0) :
    zRec true nx ny = (onCircle nx ny nx, onCircle nx ny ny, 0) := if_neg (not_le.2 h)

/-- The three components one by one, each by whether the fallback of R246 is taken. -/
theorem zRec_eq (z3d : Bool) (nx ny : Int) : zRec z3d nx ny =
    (if z3d ∧ radicand nx ny < 0 then onCircle nx ny nx else nx,
      if z3d ∧ radicand nx ny < 0 then onCircle nx ny ny else ny,
      if z3d then (if radicand nx ny < 0 then 0 else (isqrt (radicand nx ny).toNat : Int))
        else 16383) := by
  cases z3d with
  | false => simp [zRec_false]
  | true =>
    rcases lt_or_ge (radicand nx ny) 0 with hneg | hnonneg
    · simp [zRec_of_radicand_neg hneg, hneg]
    · simp [zRec_of_radicand_nonneg hnonneg, not_lt.2 hnonneg]

/-! ### The texel (R240, R248) -/

/-- Settles O34: the taps are the differences as written, and the reconstruction is taken branch by branch. -/
theorem normalResult : Obligations.NormalResult := by
  intro d src z3d tan sharp s hvalid hroom hdisjoint
  refine normal_succeeds_of_eq ⟨hvalid, hroom, hdisjoint⟩ fun x y _ => ?_
  obtain ⟨hgx, hgy⟩ := diff_eq_gradientOf s (s.snap.desc.at src) sharp x y
  rw [normalTexel, hgx, hgy, slope_eq, slope_eq, zRec_eq]
  rfl

/-! ### A flat source (R249) -/

/-- Every texel of the buffer of a descriptor has R lane c. -/
def FlatBuffer (s : State) (ds : Desc) (c : Nat) : Prop :=
  ∀ p, p < ds.count → lane (tread s (ds.base.toNat + p)) 2 = c

/-- Reduced indices lie in a buffer that has a pixel, so a flat source has one height on the whole
torus (R241). -/
theorem heightAt_of_flat {s : State} {ds : Desc} {c x y : Nat} (hflat : FlatBuffer s ds c)
    (hin : ds.InBuffer x y) (i j : Int) : heightAt s ds i j = c := by
  have hcol : (i % ds.w.toNat).toNat < ds.w.toNat := by
    have := hin.column
    have := Int.emod_lt_of_pos i (show (0 : Int) < ds.w.toNat by omega)
    omega
  have hrow : (j % ds.h.toNat).toNat < ds.h.toNat := by
    have := hin.row
    have := Int.emod_lt_of_pos j (show (0 : Int) < ds.h.toNat by omega)
    omega
  have hlane := hflat _ (rowMajor_lt hcol hrow)
  rw [← Nat.add_assoc] at hlane
  exact congrArg Nat.cast hlane

/-- The weights of each kernel add up to 0, so equal heights have no difference (R242, R243). -/
theorem gradientOf_of_const {h : Int → Int → Int} {c : Int} (hc : ∀ i j, h i j = c) (sharp : Bool)
    (x y : Int) : gradientOf h sharp x y = (0, 0) := by
  cases sharp with
  | true => simp [gradientOf, hc]
  | false => simp [gradientOf, hc]

theorem slope_zero (str : Int) (size : Nat) : slope 0 str size = 0 := by
  rw [slope_eq, zero_mul, zero_mul, fdiv_zero_left]; rfl

theorem isqrt_mul_self (n : Nat) : isqrt (n * n) = n :=
  le_antisymm (isqrt_le le_rfl) (le_isqrt le_rfl)

/-- The normal of no slope is upright in both modes (R245, R246). -/
theorem zRec_zero (z3d : Bool) : zRec z3d 0 0 = (0, 0, 16383) := by
  cases z3d with
  | false => rfl
  | true =>
    have hrad : (radicand 0 0).toNat = 16383 * 16383 := by decide
    rw [zRec_of_radicand_nonneg (by decide), hrad, isqrt_mul_self]
    rfl

theorem tangentFlip_zero (tan : Bool) : tangentFlip tan 0 = 0 := by cases tan <;> rfl

/-- Without differences the texel is the upright normal, whatever the strength and the size (R249). -/
theorem normalTexel_of_diff_zero {s : State} {ds : Desc} {sharp : Bool} {x y : Nat}
    (hx : diffX s ds sharp x y = 0) (hy : diffY s ds sharp x y = 0) (z3d tan : Bool) :
    normalTexel s ds z3d tan sharp x y = 0x7FFF400040007FFF#64 := by
  simp only [normalTexel, hx, hy, slope_zero, zRec_zero, tangentFlip_zero]
  decide

/-- Settles O35: a flat source has no differences, and without them the normal is upright. -/
theorem normalFlat : Obligations.NormalFlat := by
  intro d src z3d tan sharp c s hvalid hroom hdisjoint hflat
  refine normal_succeeds_of_eq ⟨hvalid, hroom, hdisjoint⟩ fun x y hin => ?_
  have hgrad := gradientOf_of_const (heightAt_of_flat hflat hin) sharp x y
  obtain ⟨hgx, hgy⟩ := diff_eq_gradientOf s (s.snap.desc.at src) sharp x y
  rw [hgrad] at hgx hgy
  exact normalTexel_of_diff_zero hgx hgy z3d tan

end Sys2Proof.Machine
end

section
/-! PROOFS. GRAD and GLOW: the buffer that GRAD makes and the value of its texels (R270 to R276), the texels
that GLOW leaves, pass by pass (R285 to R292, R296), and GLOW without opacity (R295). -/

namespace Sys2Proof.Machine

/-! ### The buffer that GRAD makes (R38, R270) -/

theorem exec_grad (d : Slot) (mode : BitVec 2) (s : State) :
    exec (.grad d mode) s = execGrad d mode s := rfl

/-- GRAD has the checks of SYNTH (R200, R270). -/
theorem gradError_eq_synthError (s : State) (d : Slot) : gradError s d = synthError s d := rfl

/-- GRAD whose checks pass completes with the texels of any function that agrees with `gradTexel`. -/
theorem grad_succeeds_of_eq {d : Slot} {s : State} {mode : BitVec 2} {px : Nat → Nat → Texel}
    (h : SynthFits s d) (hpx : ∀ x y, gradTexel s mode x y = px x y) :
    Succeeds (.grad d mode) s fun t =>
      ProducedBuffer s t d s.snap.par.width s.snap.par.height px := by
  refine succeeds_of_run (exec_grad d mode s) ((gradError_eq_synthError s d).trans h.no_error)
    (sameRegisters_of_work s _ s.hmem _) rfl ?_
  have hbuf := produce_buffer s d s.snap.par.width.isLt s.snap.par.height.isLt (gradTexel s mode)
  rw [ofNat_toNat_word, ofNat_toNat_word] at hbuf
  rw [h.toNat_width, h.toNat_height]
  exact (hbuf.complete none).congr fun x y _ _ => hpx x y

/-! ### The accumulator and the ramp (R272 to R275) -/

theorem gradLength_eq (s : State) : gradLength s = max (fin32 s.snap.par.len) (1 / 65536) :=
  (max_def_lt _ _).symm

/-- Where the checks pass, the signed sizes are the unsigned ones. -/
theorem SynthFits.cast_width {s : State} {d : Slot} (h : SynthFits s d) :
    (widthOf s : Rat) = (s.snap.par.width.toNat : Rat) := by
  have hnonneg : 0 ≤ widthOf s := zero_le_one.trans h.width
  rw [← h.toNat_width, ← Int.cast_natCast, Int.toNat_of_nonneg hnonneg]

theorem SynthFits.cast_height {s : State} {d : Slot} (h : SynthFits s d) :
    (heightOf s : Rat) = (s.snap.par.height.toNat : Rat) := by
  have hnonneg : 0 ≤ heightOf s := zero_le_one.trans h.height
  rw [← h.toNat_height, ← Int.cast_natCast, Int.toNat_of_nonneg hnonneg]

theorem gradDX_eq {s : State} {d : Slot} (h : SynthFits s d) :
    gradDX s = ((sineQ (gradPhase s + 4096) : Rat) * 131072 /
      (gradLength s * s.snap.par.width.toNat)).floor := by
  rw [gradDX, h.cast_width, Int.cast_mul, Int.cast_ofNat]

theorem gradDY_eq {s : State} {d : Slot} (h : SynthFits s d) :
    gradDY s = ((sineQ (gradPhase s) : Rat) * 131072 /
      (gradLength s * s.snap.par.height.toNat)).floor := by
  rw [gradDY, h.cast_height, Int.cast_mul, Int.cast_ofNat]

/-- The shift of R11 is the floor of the division by the power of two. -/
theorem shr_eq_fdiv (a : Int) (n : Nat) : shr a n = fdiv a (2 ^ n) := by
  rw [shr_eq_ediv, fdiv_eq_ediv _ (by positivity)]

/-- The ramp, by the number of the mode; mode 3 is read as mode 0 (R132, R275). -/
theorem gradRamp_eq (mode : BitVec 2) (v : Int) : gradRamp mode v =
    if mode = 1 then 0x4000 + sineQ (12288 + fdiv (min (max v 0) 32768) 4)
      else if mode = 2 then 0x4000 + sineQ (12288 + fdiv v 2) else v := by
  have hcases : mode = 0 ∨ mode = 1 ∨ mode = 2 ∨ mode = 3 := by revert mode; decide
  obtain rfl | rfl | rfl | rfl := hcases
  · rfl
  · exact congrArg (fun z => 0x4000 + sineQ (12288 + z)) (shr_eq_fdiv _ 2)
  · exact congrArg (fun z => 0x4000 + sineQ (12288 + z)) (shr_eq_fdiv _ 1)
  · rfl

/-- Settles O36: the accumulator and the ramp of the model are those of the rules. -/
theorem gradResult : Obligations.GradResult := by
  intro d mode s hw hh hfit
  have h : SynthFits s d := ⟨hw, hh, hfit⟩
  refine grad_succeeds_of_eq h fun x y => ?_
  rw [gradTexel, gradRamp_eq, gradV, shr_eq_fdiv, gradDX_eq h, gradDY_eq h, gradA0, gradLength_eq]
  rfl

/-! ### One texel through the passes of GLOW (R285, R292) -/

/-- What a pass of GLOW makes of texel number k of its buffer. -/
def glowTexel (s : State) (ds : Desc) (curve rect : Bool) (k : Nat) (px : Texel) (p : Pass) : Texel :=
  let di := glowQuant (glowGeometry s.snap.par ds.w.toNat ds.h.toNat) rect p (k % ds.w.toNat)
    (k / ds.w.toNat)
  if di < 32768 then blend px (pack32 s.snap.par.color0) (glowFade s curve di) else px

/-- A run of writes at offsets from a base leaves at each offset it names the value for that offset. -/
theorem Memory.find_writeAll_offsets {α : Type} (m : Memory α) (base : Nat) (l : List Nat) (f : Nat → α)
    (k : Nat) : (m.writeAll (l.map fun j => (base + j, f j))).find (base + k) =
      if k ∈ l then some (f k) else m.find (base + k) := by
  rcases m.find_writeAll_cases (l.map fun j => (base + j, f j)) (base + k) with
    ⟨v, hv, hfind⟩ | ⟨hnone, hfind⟩
  · obtain ⟨j, hj, he⟩ := List.mem_map.1 hv
    obtain ⟨haddr, rfl⟩ := Prod.mk.inj he
    obtain rfl := Nat.add_left_cancel haddr
    rw [hfind, if_pos hj]
  · have hk : k ∉ l := fun hk => hnone _ (List.mem_map.2 ⟨k, hk, rfl⟩) rfl
    rw [hfind, if_neg hk]

section
variable (s : State) (ds : Desc) (curve rect : Bool) {k : Nat}

/-- A pass reads and writes each texel of the buffer on its own. -/
theorem treadIn_glowPass (hk : k < ds.count) (m : Memory Texel) (p : Pass) :
    treadIn s.draws (glowPass s ds curve rect m p) (ds.base.toNat + k) =
      glowTexel s ds curve rect k (treadIn s.draws m (ds.base.toNat + k)) p := by
  rw [treadIn, glowPass, Memory.find_writeAll_offsets, glowTexel]
  simp only [List.mem_filter, List.mem_range, hk, true_and, decide_eq_true_eq]
  split
  · rfl
  · rfl

theorem treadIn_glowPasses (hk : k < ds.count) (ps : List Pass) (m : Memory Texel) :
    treadIn s.draws (ps.foldl (glowPass s ds curve rect) m) (ds.base.toNat + k) =
      ps.foldl (glowTexel s ds curve rect k) (treadIn s.draws m (ds.base.toNat + k)) := by
  induction ps generalizing m with
  | nil => rfl
  | cons p ps ih => rw [List.foldl_cons, List.foldl_cons, ih, treadIn_glowPass s ds curve rect hk]

theorem find_glowPasses_outside (ps : List Pass) (m : Memory Texel) {a : Nat}
    (ha : a < ds.base.toNat ∨ ds.base.toNat + ds.count ≤ a) :
    (ps.foldl (glowPass s ds curve rect) m).find a = m.find a := by
  obtain ⟨l, hl, hin, -⟩ := glowPasses_eq s ds curve rect ps m
  rw [hl]
  refine Memory.find_writeAll_other _ _ _ fun q hq he => ?_
  obtain ⟨hlo, hhi⟩ := (Region.has_iff _ _).1 (hin q hq)
  simp only [Desc.region] at hlo hhi
  omega

end

/-! ### The buffer that GLOW edits (R285) -/

theorem exec_glow (d : Slot) (wrapx wrapy curve rect : Bool) (s : State) :
    exec (.glow d wrapx wrapy curve rect) s = execGlow d wrapx wrapy curve rect s := rfl

theorem glowError_of_valid {s : State} {d : Slot} (h : (s.snap.desc.at d).valid = true) :
    glowError s d = none := by
  have hempty : (emptyFails [s.snap.desc.at d]).1 = false := by simp [emptyFails, h]
  rw [glowError, firstFailing_cons, if_neg (Bool.eq_false_iff.1 hempty), firstFailing_nil]

/-- GLOW on a valid slot completes, and each texel of the buffer has gone through the passes in order. -/
theorem glow_succeeds {s : State} {d : Slot} (hvalid : (s.snap.desc.at d).valid = true)
    (wrapx wrapy curve rect : Bool) :
    Succeeds (.glow d wrapx wrapy curve rect) s fun t => EditedBuffer s t d fun k =>
      (glowPasses wrapx wrapy (s.snap.desc.at d).w.toNat (s.snap.desc.at d).h.toNat).foldl
        (glowTexel s (s.snap.desc.at d) curve rect k)
        (tread s ((s.snap.desc.at d).base.toNat + k)) := by
  refine succeeds_of_run (exec_glow d wrapx wrapy curve rect s) (glowError_of_valid hvalid)
    (sameRegisters_of_work s _ s.hmem s.desc) rfl ?_
  refine EditedBuffer.complete ?_ none
  refine ⟨?_, ?_, rfl, rfl⟩
  · exact fun k hk => treadIn_glowPasses s _ curve rect hk _ _
  · exact fun a ha => find_glowPasses_outside s _ curve rect _ _ ha

theorem Succeeds.mono {i : Instr} {s : State} {P Q : State → Prop} (h : Succeeds i s P)
    (hPQ : ∀ t, SameRegisters s t → P t → Q t) : Succeeds i s Q := by
  obtain ⟨t, hexec, hstatus, hregs, hP⟩ := h
  exact ⟨t, hexec, hstatus, hregs, hPQ t hregs hP⟩

theorem EditedBuffer.congr {s t : State} {d : Slot} {px qx : Nat → Texel}
    (hb : EditedBuffer s t d px) (he : ∀ p, px p = qx p) : EditedBuffer s t d qx := by
  rwa [← funext he]

/-! ### The passes and the weight as the rules write them (R181, R288 to R291, R296) -/

/-- The shifts of the centre, without the wrapped-copy flag, which no texel depends on (R70, R296). -/
def Pass.shift (p : Pass) : Int × Int := (p.ox, p.oy)

theorem map_shift_glowPasses (wrapx wrapy : Bool) (w h : Nat) :
    (glowPasses wrapx wrapy w h).map Pass.shift = [(0, 0)] ++
      (if wrapx then [(-(w : Int), 0), ((w : Int), 0)] else []) ++
      (if wrapy then [(0, -(h : Int)), (0, (h : Int))] else []) := by
  cases wrapx <;> cases wrapy <;> rfl

theorem falloff_eq (pf : PowFn) (curve : Bool) (p' : Rat) (n : Nat) : falloff pf curve p' n =
    if n < 32 then entry (falloffCurve pf curve p' ((n : Rat) / 32768))
    else tableAt (fun k => entry (falloffCurve pf curve p' ((k : Rat) / 1024))) n := by
  rw [falloff, gammaLookup_eq_tableAt]
  rfl

theorem glowFade_eq (s : State) (curve : Bool) (di : Nat) : glowFade s curve di =
    (fdiv (falloff s.params.powfn curve (glowPower s.snap.par) di *
      fixFloor s.snap.par.alpha 65536 0 65535) 65536).toNat := by
  rw [glowFade, shr_eq_fdiv]
  rfl

/-- The distance of R288 as the rule writes it, an integer. -/
def glowFloor (s : State) (ds : Desc) (rect : Bool) (k : Nat) (p : Pass) : Int :=
  (glowDistance (glowGeometry s.snap.par ds.w.toNat ds.h.toNat) rect p (k % ds.w.toNat)
    (k / ds.w.toNat) * 32768).floor

theorem glowTexel_eq (s : State) (ds : Desc) (curve rect : Bool) (k : Nat) (px : Texel) (p : Pass) :
    glowTexel s ds curve rect k px p =
      if glowFloor s ds rect k p < 32768 then
        blend px (pack32 s.snap.par.color0)
          (fdiv (falloff s.params.powfn curve (glowPower s.snap.par) (glowFloor s ds rect k p).toNat *
            fixFloor s.snap.par.alpha 65536 0 65535) 65536).toNat
      else px := by
  have hmask : (glowFloor s ds rect k p).toNat < 32768 ↔ glowFloor s ds rect k p < 32768 := by omega
  rw [← glowFade_eq]
  exact if_congr hmask rfl rfl

/-- Settles O37: the passes and, in each of them, the distance and the weight are those of the rules. -/
theorem glowResult : Obligations.GlowResult := by
  intro d wrapx wrapy curve rect s hvalid
  refine (glow_succeeds hvalid wrapx wrapy curve rect).mono fun t _ hbuf => hbuf.congr fun k => ?_
  dsimp only
  rw [← map_shift_glowPasses, List.foldl_map]
  congr 1
  funext px p
  rw [glowTexel_eq, falloff_eq]
  rfl

/-! ### GLOW without opacity (R295) -/

theorem glowFade_of_alpha_zero {s : State} (h : glowAlpha s.snap.par = 0) (curve : Bool) (di : Nat) :
    glowFade s curve di = 0 := by
  rw [glowFade, h, mul_zero]
  rfl

/-- Inside the mask the blend has no fade, and outside it there is no blend. -/
theorem glowTexel_of_alpha_zero {s : State} (h : glowAlpha s.snap.par = 0) (ds : Desc)
    (curve rect : Bool) (k : Nat) (px : Texel) (p : Pass) : glowTexel s ds curve rect k px p = px := by
  rw [glowTexel, glowFade_of_alpha_zero h, blend_zero, ite_self]

theorem foldl_glowTexel_of_alpha_zero {s : State} (h : glowAlpha s.snap.par = 0) (ds : Desc)
    (curve rect : Bool) (k : Nat) (px : Texel) (ps : List Pass) :
    ps.foldl (glowTexel s ds curve rect k) px = px :=
  List.foldl_fixed' (glowTexel_of_alpha_zero h ds curve rect k px) ps

/-- Settles O38: without opacity no pass changes a texel of the buffer, and outside it none is written. -/
theorem glowAlphaZero : Obligations.GlowAlphaZero := by
  intro d wrapx wrapy curve rect s hvalid halpha
  refine (glow_succeeds hvalid wrapx wrapy curve rect).mono fun t hregs hbuf =>
    ⟨fun a => ?_, hbuf.desc, hbuf.hmem⟩
  by_cases hin : (s.snap.desc.at d).base.toNat ≤ a ∧
      a < (s.snap.desc.at d).base.toNat + (s.snap.desc.at d).count
  · obtain ⟨p, rfl⟩ := Nat.exists_eq_add_of_le hin.1
    rw [hbuf.texels p (by omega), foldl_glowTexel_of_alpha_zero halpha]
  · exact tread_congr (hbuf.otherTexels a (by omega)) hregs.draws

end Sys2Proof.Machine
end

section
/-! PROOFS. The compositor on one buffer: NOP and the colorize modes without an operation (R336, R375),
RELEASE (R342, R343), the five COLORIZE operations (R330 to R335), and COPY (R340, R341). -/

namespace Sys2Proof.Machine

/-! ### Checks that pass, and tables of descriptors -/

theorem firstFailing_eq_none {l : List (Bool × ErrCode)} (h : ∀ c ∈ l, c.1 = false) :
    firstFailing l = none := by
  rw [firstFailing, List.find?_eq_none.2 fun c hc => Bool.eq_false_iff.1 (h c hc), Option.map_none]

/-- A descriptor table is known by its slots. -/
theorem DescTable.eq_of_at_eq {t u : DescTable} (h : ∀ n, t.at n = u.at n) : t = u :=
  Vector.ext fun i hi => h (BitVec.ofNatLT i hi)

/-! ### NOP, and COLORIZE in modes 5 to 7 (R336, R375) -/

/-- COLORIZE has the check of GLOW (R285, R330). -/
theorem colorizeError_of_valid {s : State} {d : Slot} (h : (s.snap.desc.at d).valid = true) :
    colorizeError s d = none := glowError_of_valid h

/-- Modes 5 to 7 check the slot and do nothing else (R336). -/
theorem runColorizeNone_of_valid {s : State} {d : Slot} (h : (s.snap.desc.at d).valid = true) :
    runColorizeNone d s = .next (s.complete none) := by
  rw [runColorizeNone, colorizeError_of_valid h, runCommand]

/-- Settles O30: NOP has no check, and the check of the three reserved modes passes. -/
theorem noOperation : Obligations.NoOperation := by
  intro s d
  refine ⟨rfl, fun hvalid => ?_⟩
  have hnone := runColorizeNone_of_valid hvalid
  exact ⟨hnone, hnone, hnone⟩

/-! ### RELEASE (R342, R343) -/

theorem exec_release (d : Slot) (s : State) : exec (.release d) s = execRelease d s := rfl

theorem Desc.emptied_eq_self {d : Desc} (hw : d.w = 0) (hh : d.h = 0) (hvalid : d.valid = false) :
    { d with w := 0, h := 0, valid := false } = d := by
  cases d
  simp_all

/-- Settles O44: the only write is that of the slot, and it puts back an empty slot as it was. -/
theorem releaseResult : Obligations.ReleaseResult := by
  intro d s
  refine succeeds_of_run (exec_release d s) rfl (sameRegisters_of_work s s.tmem s.hmem _) rfl
    ⟨DescTable.at_put_same _ _ _, fun n hn => DescTable.at_put_other _ _ hn, rfl, rfl, ?_⟩
  intro hw hh hvalid
  refine DescTable.eq_of_at_eq fun n => ?_
  by_cases hn : n = d
  · subst hn
    exact (DescTable.at_put_same _ _ _).trans (Desc.emptied_eq_self hw hh hvalid)
  · exact DescTable.at_put_other _ _ hn

/-! ### COLORIZE (R330 to R335) -/

/-- A COLORIZE with the texel function f on a valid slot completes with f of every texel (R330). -/
theorem colorize_succeeds {i : Instr} {s : State} {d : Slot} {f : Texel → Texel}
    (hi : exec i s = runColorize f d s) (hvalid : (s.snap.desc.at d).valid = true) :
    Succeeds i s fun t => EditedBuffer s t d fun p =>
      f (tread s ((s.snap.desc.at d).base.toNat + p)) :=
  succeeds_of_run hi (colorizeError_of_valid hvalid) (sameRegisters_of_work s _ s.hmem s.desc) rfl
    ((editInPlace_buffer s d f).complete none)

/-- Every lane of a written texel is at most 0x7FFF (R32). -/
theorem WrittenTexel.lane_le {s : State} {a l : Nat} (h : WrittenTexel s a) (hl : l < 4) :
    lane (tread s a) l ≤ 0x7FFF := by
  obtain ⟨t, hfind, hroom⟩ := h
  rw [tread_of_find hfind]
  exact (headroom_iff t).1 hroom l hl

theorem lane_pack32_le (col : Word) {l : Nat} (hl : l < 4) : lane (pack32 col) l ≤ 0x7FFF :=
  (headroom_iff _).1 (headroom_pack32 col) l hl

/-- The lanes of a COLORIZE whose texel function f has the lanes g on texels with the headroom. -/
theorem colorize_lanes {i : Instr} {s : State} {d : Slot} {f : Texel → Texel}
    {g : Texel → Nat → Nat} (hi : exec i s = runColorize f d s)
    (hvalid : (s.snap.desc.at d).valid = true) (hwritten : WrittenBuffer s d)
    (hf : ∀ t l, (∀ k, k < 4 → lane t k ≤ 0x7FFF) → l < 4 → lane (f t) l = g t l) :
    Succeeds i s fun t => ∃ px, EditedBuffer s t d px ∧
      ∀ p l, p < (s.snap.desc.at d).count → l < 4 →
        lane (px p) l = g (tread s ((s.snap.desc.at d).base.toNat + p)) l :=
  (colorize_succeeds hi hvalid).mono fun _ _ hbuf =>
    ⟨_, hbuf, fun p _ hp hl => hf _ _ (fun _ hk => (hwritten p hp).lane_le hk) hl⟩

section
variable {t u : Texel} {l : Nat} (ht : lane t l ≤ 0x7FFF) (hu : lane u l ≤ 0x7FFF) (hl : l < 4)
include hl

theorem lane_zipLanes_ladd : lane (zipLanes ladd t u) l = min (lane t l + lane u l) 0x7FFF := by
  have hle := ladd_le (lane t l) (lane u l)
  rw [lane_zipLanes ladd t u hl (by omega), ladd_eq]

include ht

theorem lane_zipLanes_lsub : lane (zipLanes lsub t u) l = lane t l - lane u l := by
  have hle := lsub_le (lane t l) (lane u l)
  rw [lane_zipLanes lsub t u hl (by omega), lsub_eq]
  omega

include hu

theorem lane_zipLanes_lmul : lane (zipLanes lmul t u) l = lane t l * lane u l / 2 ^ 15 := by
  have hle := lmul_le ht hu
  rw [lane_zipLanes lmul t u hl (by omega), lmul_eq]

end

/-- GRAY writes the mean of the colour lanes to each of them and keeps alpha (R334). -/
theorem lane_grayTexel {t : Texel} (ht : ∀ k, k < 4 → lane t k ≤ 0x7FFF) {l : Nat} (hl : l < 4) :
    lane (grayTexel t) l =
      if l = 3 then lane t 3 else (lane t 2 + lane t 1 + lane t 0) / 3 := by
  have hb := ht 0 (by decide)
  have hg := ht 1 (by decide)
  have hr := ht 2 (by decide)
  have ha := ht 3 (by decide)
  have hcases : l = 0 ∨ l = 1 ∨ l = 2 ∨ l = 3 := by omega
  rw [grayTexel]
  obtain rfl | rfl | rfl | rfl := hcases
  · rw [lane_mk_0, if_neg (by decide)]; omega
  · rw [lane_mk_1, if_neg (by decide)]; omega
  · rw [lane_mk_2, if_neg (by decide)]; omega
  · rw [lane_mk_3, if_pos rfl]; omega

/-- INV mirrors each colour lane and keeps alpha (R335). -/
theorem lane_invTexel {t : Texel} (ht : ∀ k, k < 4 → lane t k ≤ 0x7FFF) {l : Nat} (hl : l < 4) :
    lane (invTexel t) l = if l = 3 then lane t 3 else 0x7FFF - lane t l := by
  have ha := ht 3 (by decide)
  have hcases : l = 0 ∨ l = 1 ∨ l = 2 ∨ l = 3 := by omega
  rw [invTexel]
  obtain rfl | rfl | rfl | rfl := hcases
  · rw [lane_mk_0, if_neg (by decide)]; omega
  · rw [lane_mk_1, if_neg (by decide)]; omega
  · rw [lane_mk_2, if_neg (by decide)]; omega
  · rw [lane_mk_3, if_pos rfl]; omega

/-- Settles O42: the five texel functions, lane by lane. -/
theorem colorizeResult : Obligations.ColorizeResult := by
  intro d s hvalid hwritten
  have hc : ∀ {l}, l < 4 → lane (colorOf s) l ≤ 0x7FFF := lane_pack32_le _
  refine ⟨?mul, ?add, ?sub, ?gray, ?inv⟩
  case mul =>
    exact colorize_lanes rfl hvalid hwritten fun t l ht hl => lane_zipLanes_lmul (ht l hl) (hc hl) hl
  case add =>
    exact colorize_lanes (f := fun t => zipLanes ladd t (colorOf s)) rfl hvalid hwritten
      fun t l _ hl => lane_zipLanes_ladd hl
  case sub => exact colorize_lanes rfl hvalid hwritten fun t l ht hl => lane_zipLanes_lsub (ht l hl) hl
  case gray => exact colorize_lanes rfl hvalid hwritten fun t l ht hl => lane_grayTexel ht hl
  case inv => exact colorize_lanes rfl hvalid hwritten fun t l ht hl => lane_invTexel ht hl

/-! ### The buffer that COPY and MERGE make (R38, R39, R403) -/

/-- The output of `count` texels in slot d and the buffer of slot n do not meet, or they start at the same
texel (R403). -/
def OutputPlaced (s : State) (d n : Slot) (count : Nat) : Prop :=
  NoOverlap (s.snap.desc.at d).base.toNat count (s.snap.desc.at n).base.toNat count ∨
    (s.snap.desc.at d).base = (s.snap.desc.at n).base

/-- ALIAS does not fail for an input of the size of the output (R403). -/
theorem not_aliased {s : State} {d n : Slot} {count : Nat} (hcount : (s.snap.desc.at n).count = count)
    (h : OutputPlaced s d n count) :
    ((outRegion s d count).overlaps (s.snap.desc.at n).region &&
      !(outRegion s d count).identical (s.snap.desc.at n).region) = false := by
  subst hcount
  obtain hdisjoint | hbase := h
  · rw [Region.overlaps_eq_false hdisjoint, Bool.false_and]
  · have hsame : (outRegion s d (s.snap.desc.at n).count).identical
        (s.snap.desc.at n).region = true := decide_eq_true ⟨congrArg BitVec.toNat hbase, rfl⟩
    rw [hsame, Bool.not_true, Bool.and_false]

/-- A command whose work is a new buffer and whose checks pass completes with that buffer. -/
theorem produce_succeeds {i : Instr} {s : State} {d : Slot} {e : Option ErrCode} {w h : Word}
    {px : Nat → Nat → Texel} (hi : exec i s = runCommand s e (produce s d w.toNat h.toNat px))
    (he : e = none) : Succeeds i s fun t => ProducedBuffer s t d w h px := by
  refine succeeds_of_run hi he (sameRegisters_of_work s _ s.hmem _) rfl ?_
  have hbuf := produce_buffer s d w.isLt h.isLt px
  rw [ofNat_toNat_word, ofNat_toNat_word] at hbuf
  exact hbuf.complete none

/-- The texels of a new buffer by their number (R35). -/
theorem ProducedBuffer.texel {s t : State} {d : Slot} {w h : Word} {px : Nat → Nat → Texel} {p : Nat}
    (hb : ProducedBuffer s t d w h px) (hp : p < w.toNat * h.toNat) :
    t.tmem.find ((s.snap.desc.at d).base.toNat + p) = some (px (p % w.toNat) (p / w.toNat)) := by
  have hw : 0 < w.toNat := Nat.pos_of_mul_pos_right (Nat.zero_lt_of_lt hp)
  have hfind := hb.texels _ _ (Nat.mod_lt p hw) (Nat.div_lt_of_lt_mul hp)
  rwa [Nat.div_add_mod'] at hfind

/-! ### COPY (R340, R341) -/

/-- The checks of COPY from slot src into slot d pass (R340). -/
structure CopyFits (s : State) (d src : Slot) : Prop where
  valid : (s.snap.desc.at src).valid = true
  room : OutputFits s d (s.snap.desc.at src).count
  placed : OutputPlaced s d src (s.snap.desc.at src).count

theorem CopyFits.no_error {s : State} {d src : Slot} (h : CopyFits s d src) :
    copyError s d src = none := by
  have hempty : (emptyFails [s.snap.desc.at src]).1 = false := by simp [emptyFails, h.valid]
  exact firstFailing_eq_none (List.forall_mem_cons.2 ⟨hempty, List.forall_mem_cons.2
    ⟨nomem_pass h.room, List.forall_mem_singleton.2 (not_aliased rfl h.placed)⟩⟩)

/-- Texel (x, y) of the buffer of slot n. -/
def slotTexel (s : State) (n : Slot) (x y : Nat) : Texel :=
  tread s ((s.snap.desc.at n).base.toNat + (y * (s.snap.desc.at n).w.toNat + x))

theorem exec_copy (d src : Slot) (s : State) : exec (.copy d src) s =
    runCommand s (copyError s d src) (produce s d (s.snap.desc.at src).w.toNat
      (s.snap.desc.at src).h.toNat (slotTexel s src)) := rfl

theorem copy_succeeds {s : State} {d src : Slot} (h : CopyFits s d src) :
    Succeeds (.copy d src) s fun t => ProducedBuffer s t d (s.snap.desc.at src).w
      (s.snap.desc.at src).h (slotTexel s src) :=
  produce_succeeds (exec_copy d src s) h.no_error

section
variable {s t : State} {d : Slot}
  (hbuf : ProducedBuffer s t d (s.snap.desc.at d).w (s.snap.desc.at d).h (slotTexel s d))
include hbuf

/-- A valid buffer copied to itself keeps the descriptors that the snapshot was taken of (R341). -/
theorem copy_self_desc (hvalid : (s.snap.desc.at d).valid = true) (hlive : s.desc = s.snap.desc) :
    t.desc = s.desc := by
  refine DescTable.eq_of_at_eq fun n => ?_
  by_cases hn : n = d
  · subst hn
    rw [hbuf.slot, hlive, ← hvalid]
  · exact hbuf.otherSlots n hn

/-- A buffer copied to itself keeps every texel (R341). -/
theorem copy_self_tread (hregs : SameRegisters s t) (a : Nat) : tread t a = tread s a := by
  by_cases hin : (s.snap.desc.at d).base.toNat ≤ a ∧
      a < (s.snap.desc.at d).base.toNat + (s.snap.desc.at d).count
  · obtain ⟨p, rfl⟩ := Nat.exists_eq_add_of_le hin.1
    have hp : p < (s.snap.desc.at d).count := by omega
    rw [tread_of_find (hbuf.texel hp), slotTexel, Nat.div_add_mod']
  · have hout : a < (s.snap.desc.at d).base.toNat ∨
        (s.snap.desc.at d).base.toNat + (s.snap.desc.at d).count ≤ a := by omega
    exact tread_congr (hbuf.otherTexels a hout) hregs.draws

end

/-- Settles O43: the buffer of the source's texels, which is the source itself where d = s. -/
theorem copyResult : Obligations.CopyResult := by
  intro d src s hvalid hroom hplaced
  refine (copy_succeeds ⟨hvalid, hroom, hplaced⟩).mono fun t hregs hbuf => ⟨hbuf, ?_⟩
  rintro rfl hlive
  exact ⟨copy_self_desc hbuf hvalid hlive, copy_self_tread hbuf hregs⟩

end Sys2Proof.Machine
end

section
/-! PROOFS. MERGE: the fold of its list lane by lane (R320 to R324, R327), the list of one entry (R325), and
the round trip of an addition and a subtraction (R328). -/

namespace Sys2Proof.Machine

/-! ### The family of MERGE (R320 to R323) -/

section
variable {m : (Slot → Nat → Instr) × (Nat → Nat → Nat)} (hm : m ∈ mergeOps)
include hm

/-- The work of a MERGE is the buffer of its folds (R320). -/
theorem exec_merge (d : Slot) (n : Nat) (s : State) : exec (m.1 d n) s =
    runCommand s (mergeError s d n) (produce s d (s.snap.desc.at (mlistAt s 0)).w.toNat
      (s.snap.desc.at (mlistAt s 0)).h.toNat
      (fun x y => mergeFold s m.2 n (y * (s.snap.desc.at (mlistAt s 0)).w.toNat + x))) := by
  simp only [mergeOps, List.mem_cons, List.not_mem_nil, or_false] at hm
  obtain rfl | rfl | rfl | rfl := hm
  · rfl
  · rfl
  · rfl
  · rfl

/-- The lane operations keep the headroom (R166). -/
theorem mergeOp_le {a b : Nat} (ha : a ≤ 0x7FFF) (hb : b ≤ 0x7FFF) : m.2 a b ≤ 0x7FFF := by
  simp only [mergeOps, List.mem_cons, List.not_mem_nil, or_false] at hm
  obtain rfl | rfl | rfl | rfl := hm
  · exact ladd_le a b
  · exact lsub_le a b
  · exact lmul_le ha hb
  · exact ladd_le a b

end

/-! ### A list of one entry (R325) -/

theorem firstFailing_cons_passed (c : Bool × ErrCode) (e : ErrCode) (l : List (Bool × ErrCode)) :
    firstFailing (c :: (false, e) :: l) = firstFailing (c :: l) := by
  obtain ⟨b, e'⟩ := c
  simp only [firstFailing_cons, Bool.false_eq_true, if_false]

/-- A single entry has the size of the first, so the checks of COPY are left. -/
theorem mergeError_one (s : State) (d : Slot) : mergeError s d 1 = copyError s d (mlistAt s 0) := by
  have hdescs : mergeDescs s 1 = [s.snap.desc.at (mlistAt s 0)] := rfl
  simp [mergeError, copyError, hdescs, firstFailing_cons_passed]

/-- Settles O40: with one entry the fold is the texel of the entry, and the checks are those of COPY. -/
theorem mergeOfOne : Obligations.MergeOfOne := by
  intro m hm d s
  rw [exec_merge hm, mergeError_one]
  rfl

/-! ### The fold, lane by lane (R324) -/

theorem WrittenTexel.headroom {s : State} {a : Nat} (h : WrittenTexel s a) :
    tread s a &&& headroomMask = tread s a :=
  (headroom_iff _).2 fun _ hl => h.lane_le hl

/-- A fold of texels with the headroom is the fold of each lane on its own. -/
theorem lane_foldl_zipLanes {op : Nat → Nat → Nat}
    (hop : ∀ a b, a ≤ 0x7FFF → b ≤ 0x7FFF → op a b ≤ 0x7FFF) {l : Nat} (hl : l < 4)
    {us : List Texel} (hus : ∀ u ∈ us, u &&& headroomMask = u) {t : Texel}
    (ht : t &&& headroomMask = t) :
    lane (us.foldl (zipLanes op) t) l = us.foldl (fun a u => op a (lane u l)) (lane t l) := by
  induction us generalizing t with
  | nil => rfl
  | cons u us ih =>
    obtain ⟨hu, hrest⟩ := List.forall_mem_cons.1 hus
    have hle := hop _ _ ((headroom_iff t).1 ht l hl) ((headroom_iff u).1 hu l hl)
    rw [List.foldl_cons, List.foldl_cons, ih hrest (headroom_op hop ht hu),
      lane_zipLanes op t u hl (by omega)]

/-! ### The buffer that MERGE makes (R320, R327) -/

/-- Entry q of a list that starts with slot `first` passes the checks of MERGE into slot d, and its texels
have been written (R320, R72). -/
structure MergeEntry (s : State) (d first q : Slot) : Prop where
  valid : (s.snap.desc.at q).valid = true
  width : (s.snap.desc.at q).w = (s.snap.desc.at first).w
  height : (s.snap.desc.at q).h = (s.snap.desc.at first).h
  written : WrittenBuffer s q
  placed : OutputPlaced s d q (s.snap.desc.at first).count

/-- The checks of MERGE of n entries into slot d pass (R320). -/
structure MergeFits (s : State) (d : Slot) (n : Nat) : Prop where
  nonempty : 1 ≤ n
  entries : ∀ k, k < n → MergeEntry s d (mlistAt s 0) (mlistAt s k)
  room : OutputFits s d (s.snap.desc.at (mlistAt s 0)).count

theorem MergeEntry.count_eq {s : State} {d first q : Slot} (h : MergeEntry s d first q) :
    (s.snap.desc.at q).count = (s.snap.desc.at first).count := by
  rw [Desc.count, h.width, h.height, Desc.count]

/-- Texel number p of entry k of the list. -/
def mergeInput (s : State) (p k : Nat) : Texel :=
  tread s ((s.snap.desc.at (mlistAt s k)).base.toNat + p)

section
variable {s : State} {d : Slot} {n : Nat} (h : MergeFits s d n)
include h

/-- The descriptors that the checks look at are those of the entries. -/
theorem MergeFits.entry_of_mem {q : Desc} (hq : q ∈ mergeDescs s n) :
    ∃ k, q = s.snap.desc.at k ∧ MergeEntry s d (mlistAt s 0) k := by
  obtain rfl | hq := List.mem_cons.1 hq
  · exact ⟨_, rfl, h.entries 0 h.nonempty⟩
  · obtain ⟨j, hj, rfl⟩ := List.mem_map.1 hq
    obtain ⟨k, hk, rfl⟩ := List.mem_map.1 hj
    have hk := List.mem_range.1 hk
    exact ⟨_, rfl, h.entries (k + 1) (by omega)⟩

theorem MergeFits.any_eq_false {f : Desc → Bool}
    (hf : ∀ k, MergeEntry s d (mlistAt s 0) k → f (s.snap.desc.at k) = false) :
    (mergeDescs s n).any f = false := by
  refine List.any_eq_false.2 fun q hq => ?_
  obtain ⟨k, rfl, hk⟩ := h.entry_of_mem hq
  exact Bool.eq_false_iff.1 (hf k hk)

theorem MergeFits.no_error : mergeError s d n = none := by
  have hempty : (mergeDescs s n).any (fun q => !q.valid) = false :=
    h.any_eq_false fun k hk => by rw [hk.valid, Bool.not_true]
  have hsize : (mergeDescs s n).any (fun q => decide (q.w ≠ (s.snap.desc.at (mlistAt s 0)).w ∨
      q.h ≠ (s.snap.desc.at (mlistAt s 0)).h)) = false :=
    h.any_eq_false fun k hk => by simp [hk.width, hk.height]
  have halias : (mergeDescs s n).any (fun q =>
      (outRegion s d (s.snap.desc.at (mlistAt s 0)).count).overlaps q.region &&
        !(outRegion s d (s.snap.desc.at (mlistAt s 0)).count).identical q.region) = false :=
    h.any_eq_false fun k hk => not_aliased hk.count_eq hk.placed
  exact firstFailing_eq_none (List.forall_mem_cons.2 ⟨hempty, List.forall_mem_cons.2 ⟨hsize,
    List.forall_mem_cons.2 ⟨nomem_pass h.room, List.forall_mem_singleton.2 halias⟩⟩⟩)

theorem MergeFits.headroom_mergeInput {p k : Nat} (hk : k < n)
    (hp : p < (s.snap.desc.at (mlistAt s 0)).count) :
    mergeInput s p k &&& headroomMask = mergeInput s p k := by
  have hentry := h.entries k hk
  exact (hentry.written p (hentry.count_eq ▸ hp)).headroom

/-- Each lane of a texel of the result is the fold of that lane of the inputs (R324). -/
theorem MergeFits.lane_mergeFold {op : Nat → Nat → Nat}
    (hop : ∀ a b, a ≤ 0x7FFF → b ≤ 0x7FFF → op a b ≤ 0x7FFF) {p l : Nat}
    (hp : p < (s.snap.desc.at (mlistAt s 0)).count) (hl : l < 4) :
    lane (mergeFold s op n p) l = (List.range (n - 1)).foldl
      (fun a k => op a (lane (mergeInput s p (k + 1)) l)) (lane (mergeInput s p 0) l) := by
  have hfold : mergeFold s op n p = ((List.range (n - 1)).map
      fun k => mergeInput s p (k + 1)).foldl (zipLanes op) (mergeInput s p 0) := by
    rw [mergeFold, mergeRest, List.foldl_map, List.foldl_map, List.foldl_map]
    rfl
  rw [hfold, lane_foldl_zipLanes hop hl ?_ (h.headroom_mergeInput h.nonempty hp), List.foldl_map]
  intro u hu
  obtain ⟨k, hk, rfl⟩ := List.mem_map.1 hu
  have hk := List.mem_range.1 hk
  exact h.headroom_mergeInput (by omega) hp

end

/-- Settles O39: the checks pass, and the texels of the new buffer are the folds. -/
theorem mergeResult : Obligations.MergeResult := by
  intro m hm d n s hn _ hentries hroom
  have h : MergeFits s d n := by
    refine ⟨hn, fun k hk => ?_, hroom⟩
    obtain ⟨hvalid, hwidth, hheight, hwritten, hplaced⟩ := hentries k hk
    exact ⟨hvalid, hwidth, hheight, hwritten, hplaced⟩
  refine (produce_succeeds (exec_merge hm d n s) h.no_error).mono fun t _ hbuf => ⟨_, hbuf, ?_⟩
  intro x y l hx hy hl
  exact h.lane_mergeFold (fun _ _ => mergeOp_le hm) (rowMajor_lt hx hy) hl

/-! ### A MERGE of two entries that the host writes (R131) -/

/-- The accept of the command that MERGE2 writes after the list of a and b (R131). -/
def acceptMergeTwo (s : State) (i : Instr) (a b : Slot) : State :=
  State.accept { s with par := { s.par with mlist := mlistOf2 a b } } (encode i)

theorem extractLsb'_mlistOf2 (a b : Slot) :
    (mlistOf2 a b).extractLsb' 0 4 = a ∧ (mlistOf2 a b).extractLsb' 4 4 = b := by
  revert a b
  decide

theorem mlistAt_acceptMergeTwo (s : State) (i : Instr) (a b : Slot) :
    mlistAt (acceptMergeTwo s i a b) 0 = a ∧ mlistAt (acceptMergeTwo s i a b) 1 = b :=
  extractLsb'_mlistOf2 a b

/-- The output of `count` texels in slot d and the buffer of slot n, both live, do not meet. -/
def Apart (s : State) (d n : Slot) (count : Nat) : Prop :=
  NoOverlap (s.desc.at d).base.toNat count (s.desc.at n).base.toNat count

/-- The live slots a and b, merged into slot d, pass the checks of MERGE (R320). -/
structure PairFits (s : State) (d a b : Slot) : Prop where
  validLeft : (s.desc.at a).valid = true
  validRight : (s.desc.at b).valid = true
  width : (s.desc.at b).w = (s.desc.at a).w
  height : (s.desc.at b).h = (s.desc.at a).h
  writtenLeft : ∀ p, p < (s.desc.at a).count → WrittenTexel s ((s.desc.at a).base.toNat + p)
  writtenRight : ∀ p, p < (s.desc.at a).count → WrittenTexel s ((s.desc.at b).base.toNat + p)
  room : (s.desc.at d).base.toNat + (s.desc.at a).count ≤ s.params.tmemTexels
  placedLeft : Apart s d a (s.desc.at a).count ∨ (s.desc.at d).base = (s.desc.at a).base
  placedRight : Apart s d b (s.desc.at a).count ∨ (s.desc.at d).base = (s.desc.at b).base

/-- What the MERGE of slots a and b with the lane operation `op` leaves in slot d and elsewhere. -/
structure PairMerged (s t : State) (op : Nat → Nat → Nat) (d a b : Slot) : Prop where
  params : t.params = s.params
  noError : t.status.err = false
  texels : ∀ p, p < (s.desc.at a).count → ∃ px,
    t.tmem.find ((s.desc.at d).base.toNat + p) = some px ∧ ∀ l, l < 4 →
      lane px l = op (lane (tread s ((s.desc.at a).base.toNat + p)) l)
        (lane (tread s ((s.desc.at b).base.toNat + p)) l)
  otherTexels : SameTexelsOutside s t (s.desc.at d).base.toNat (s.desc.at a).count
  slot : t.desc.at d =
    { base := (s.desc.at d).base, w := (s.desc.at a).w, h := (s.desc.at a).h, valid := true }
  otherSlots : ∀ n, n ≠ d → t.desc.at n = s.desc.at n

theorem PairFits.mergeFits {s : State} {d a b : Slot} (h : PairFits s d a b) (i : Instr) :
    MergeFits (acceptMergeTwo s i a b) d 2 := by
  obtain ⟨hfirst, hsecond⟩ := mlistAt_acceptMergeTwo s i a b
  have hcount : (s.desc.at b).count = (s.desc.at a).count := by
    rw [Desc.count, h.width, h.height, Desc.count]
  refine ⟨one_le_two, fun k hk => ?_, ?_⟩
  · rw [hfirst]
    obtain rfl | rfl : k = 0 ∨ k = 1 := by omega
    · rw [hfirst]
      exact ⟨h.validLeft, rfl, rfl, h.writtenLeft, h.placedLeft⟩
    · rw [hsecond]
      exact ⟨h.validRight, h.width, h.height, fun p hp => h.writtenRight p (hcount ▸ hp),
        h.placedRight⟩
  · rw [hfirst]
    exact h.room

/-- A MERGE of two slots that fit completes with the operation on each lane. -/
theorem mergeTwo_merges {m : (Slot → Nat → Instr) × (Nat → Nat → Nat)} (hm : m ∈ mergeOps)
    {s : State} {d a b : Slot} (h : PairFits s d a b) :
    ∃ t, exec (m.1 d 2) (acceptMergeTwo s (m.1 d 2) a b) = .next t ∧ PairMerged s t m.2 d a b := by
  have hfits := h.mergeFits (m.1 d 2)
  obtain ⟨hfirst, hsecond⟩ := mlistAt_acceptMergeTwo s (m.1 d 2) a b
  obtain ⟨t, hexec, hstatus, hregs, hbuf⟩ := produce_succeeds (exec_merge hm d 2 _) hfits.no_error
  have hlane : ∀ p l, p < (s.desc.at a).count → l < 4 →
      lane (mergeFold (acceptMergeTwo s (m.1 d 2) a b) m.2 2 p) l =
        m.2 (lane (tread s ((s.desc.at a).base.toNat + p)) l)
          (lane (tread s ((s.desc.at b).base.toNat + p)) l) := by
    intro p l hp hl
    rw [hfits.lane_mergeFold (fun _ _ => mergeOp_le hm) (by rwa [hfirst]) hl]
    simp only [mergeInput, List.range_one, List.foldl_cons, List.foldl_nil, Nat.reduceAdd,
      Nat.reduceSub, hfirst, hsecond]
    rfl
  rw [hfirst] at hbuf
  refine ⟨t, hexec, hregs.params, by rw [hstatus]; rfl, fun p hp => ?_, hbuf.otherTexels, hbuf.slot,
    hbuf.otherSlots⟩
  refine ⟨_, hbuf.texel hp, fun l hl => ?_⟩
  rw [← hlane p l hp hl]
  exact congrArg (fun i => lane (mergeFold _ m.2 2 i) l) (Nat.div_add_mod' _ _)

/-! ### The round trip (R328) -/

theorem lsub_ladd {x y : Nat} (hx : x ≤ 0x7FFF) (hy : y ≤ 0x7FFF) :
    lsub (ladd x y) y = if x + y ≤ 0x7FFF then x else 0x7FFF - y := by
  rw [lsub_eq, ladd_eq]
  split <;> omega

section
variable {s t : State} {op : Nat → Nat → Nat} {d a b : Slot} (h : PairMerged s t op d a b)
include h

/-- A merge moves no buffer. -/
theorem PairMerged.base_eq (n : Slot) : (t.desc.at n).base = (s.desc.at n).base := by
  by_cases hn : n = d
  · rw [hn, h.slot]
  · rw [h.otherSlots n hn]

/-- Two slots are apart after a merge if they were before. -/
theorem PairMerged.apart {q n : Slot} {count : Nat} (hapart : Apart s q n count) :
    Apart t q n count := by
  rwa [Apart, h.base_eq, h.base_eq]

/-- A buffer apart from the output keeps its texels. -/
theorem PairMerged.find_apart {n : Slot} (hapart : Apart s d n (s.desc.at a).count) {p : Nat}
    (hp : p < (s.desc.at a).count) :
    t.tmem.find ((s.desc.at n).base.toNat + p) = s.tmem.find ((s.desc.at n).base.toNat + p) := by
  have hout := hapart ((s.desc.at n).base.toNat + p)
  exact h.otherTexels _ (by omega)

/-- The output of a merge has the headroom, as its operation keeps it. -/
theorem PairMerged.written (hop : ∀ x y, op x y ≤ 0x7FFF) {p : Nat} (hp : p < (s.desc.at a).count) :
    WrittenTexel t ((s.desc.at d).base.toNat + p) := by
  obtain ⟨px, hfind, hlane⟩ := h.texels p hp
  exact ⟨px, hfind, (headroom_iff px).2 fun l hl => hlane l hl ▸ hop _ _⟩

end

/-- Slots whose buffers of at least one texel are apart are different slots. -/
theorem Apart.ne {s : State} {d n : Slot} {count : Nat} (h : Apart s d n count) (hc : 1 ≤ count) :
    n ≠ d := by
  rintro rfl
  exact h (s.desc.at n).base.toNat ⟨le_rfl, by omega, le_rfl, by omega⟩

/-- The sum, which keeps off b, and b can be merged into a slot r placed well with regard to both. -/
theorem PairMerged.pairFits {s t : State} {a b sum r : Slot} (hsum : PairMerged s t ladd sum a b)
    (h : PairFits s sum a b) (hb : b ≠ sum) (hapart : Apart s sum b (s.desc.at a).count)
    (hroom : (s.desc.at r).base.toNat + (s.desc.at a).count ≤ s.params.tmemTexels)
    (hleft : Apart s r sum (s.desc.at a).count ∨ (s.desc.at r).base = (s.desc.at sum).base)
    (hright : Apart s r b (s.desc.at a).count ∨ (s.desc.at r).base = (s.desc.at b).base) :
    PairFits t r sum b := by
  have hcount : (t.desc.at sum).count = (s.desc.at a).count := by rw [hsum.slot]; rfl
  refine ⟨?_, ?_, ?_, ?_, ?_, ?_, ?_, ?_, ?_⟩
  · rw [hsum.slot]
  · rw [hsum.otherSlots b hb, h.validRight]
  · rw [hsum.otherSlots b hb, hsum.slot, h.width]
  · rw [hsum.otherSlots b hb, hsum.slot, h.height]
  · rw [hcount, hsum.base_eq]
    exact fun p hp => hsum.written ladd_le hp
  · rw [hcount, hsum.base_eq]
    intro p hp
    obtain ⟨px, hfind, hpx⟩ := h.writtenRight p hp
    exact ⟨px, (hsum.find_apart hapart hp).trans hfind, hpx⟩
  · rwa [hcount, hsum.base_eq, hsum.params]
  · rw [hcount, hsum.base_eq, hsum.base_eq]
    exact hleft.imp_left hsum.apart
  · rw [hcount, hsum.base_eq, hsum.base_eq]
    exact hright.imp_left hsum.apart

/-- The lanes after the sum and the subtraction of b from it. -/
theorem lane_sum_sub {s t u : State} {a b sum r : Slot} (h : PairFits s sum a b)
    (hapart : Apart s sum b (s.desc.at a).count) (hsum : PairMerged s t ladd sum a b)
    (hsub : PairMerged t u lsub r sum b) {p l : Nat} (hp : p < (s.desc.at a).count) (hl : l < 4) :
    lane (tread u ((s.desc.at r).base.toNat + p)) l =
      lsub (ladd (lane (tread s ((s.desc.at a).base.toNat + p)) l)
          (lane (tread s ((s.desc.at b).base.toNat + p)) l))
        (lane (tread s ((s.desc.at b).base.toNat + p)) l) := by
  have hcount : (t.desc.at sum).count = (s.desc.at a).count := by rw [hsum.slot]; rfl
  obtain ⟨px, hpx, hlanes⟩ := hsum.texels p hp
  obtain ⟨qx, hqx, hqlanes⟩ := hsub.texels p (hcount ▸ hp)
  obtain ⟨bx, hbx, -⟩ := h.writtenRight p hp
  rw [hsum.base_eq] at hqx
  have hright := tread_of_find ((hsum.find_apart hapart hp).trans hbx)
  rw [tread_of_find hqx, hqlanes l hl, hsum.base_eq, hsum.base_eq, tread_of_find hpx, hright,
    hlanes l hl, tread_of_find hbx]

/-- Settles O41: two merges of two entries, the second reading b as it was. -/
theorem mergeRoundTrip : Obligations.MergeRoundTrip := by
  intro s a b sum r D apart hva hvb hw hh hcount hwritten hroomSum hroomR hsumA hsumB hrSum hrB
  have hfits : PairFits s sum a b := ⟨hva, hvb, hw, hh, fun p hp => (hwritten p hp).1,
    fun p hp => (hwritten p hp).2, hroomSum, hsumA, .inl hsumB⟩
  obtain ⟨t, hadd, hsum⟩ := mergeTwo_merges (m := (.mergeAdd, ladd)) (by simp [mergeOps]) hfits
  have hfitsR : PairFits t r sum b :=
    hsum.pairFits hfits (Apart.ne hsumB hcount) hsumB hroomR hrSum hrB
  obtain ⟨u, hsubtract, hsub⟩ := mergeTwo_merges (m := (.mergeSub, lsub)) (by simp [mergeOps]) hfitsR
  refine ⟨t, hadd, u, hsubtract, hsub.noError, fun p l hp hl => ?_⟩
  exact (lane_sum_sub hfits hsumB hsum hsub hp hl).trans
    (lsub_ladd ((hfits.writtenLeft p hp).lane_le hl) ((hfits.writtenRight p hp).lane_le hl))

end Sys2Proof.Machine
end

section
/-! PROOFS. The transfers: the texels of the three IMPORTs (R362 to R365), the bytes EXPORT writes (R366),
those of RAWFILL with the last pixel winning (R370, R371), and the round trip of IMPORT and EXPORT (R368). -/

namespace Sys2Proof.Machine

/-! ### IMPORT (R362) -/

/-- The checks of IMPORT with n channels into slot d pass: those of SYNTH, and the DMA range (R362). -/
structure ImportFits (s : State) (d : Slot) (n : Nat) : Prop extends SynthFits s d where
  channels : 1 ≤ n
  range : s.snap.par.haddr.toNat + n * parCount s ≤ s.params.hmemSize

theorem SynthFits.parCount_eq {s : State} {d : Slot} (h : SynthFits s d) :
    parCount s = s.snap.par.width.toNat * s.snap.par.height.toNat :=
  congrArg₂ (· * ·) h.toNat_width h.toNat_height

theorem SynthFits.parCount_pos {s : State} {d : Slot} (h : SynthFits s d) : 0 < parCount s :=
  Nat.mul_pos (Int.lt_toNat.2 h.width) (Int.lt_toNat.2 h.height)

theorem dim_pass {s : State} (hw : 1 ≤ widthOf s) (hh : 1 ≤ heightOf s) : (dimFails s).1 = false :=
  decide_eq_false (not_or.2 ⟨not_lt.2 hw, not_lt.2 hh⟩)

theorem dma_pass {s : State} {last : Nat} (h : last < s.params.hmemSize) :
    (dmaFails s last).1 = false := decide_eq_false (not_le.2 h)

theorem ImportFits.no_error {s : State} {d : Slot} {n : Nat} (h : ImportFits s d n) :
    importError s d n = none := by
  have hlast : (importRange s n).base + (importRange s n).count - 1 < s.params.hmemSize := by
    have hpos : 0 < n * parCount s := Nat.mul_pos h.channels h.parCount_pos
    have hrange : (importRange s n).base + (importRange s n).count ≤ s.params.hmemSize := h.range
    have hcount : (importRange s n).count = n * parCount s := rfl
    omega
  exact firstFailing_eq_none (List.forall_mem_cons.2 ⟨dim_pass h.width h.height,
    List.forall_mem_cons.2 ⟨nomem_pass h.room, List.forall_mem_singleton.2 (dma_pass hlast)⟩⟩)

/-- An IMPORT whose checks pass completes with the expanded pixels, packed from P_HADDR on (R362). -/
theorem runImport_succeeds {i : Instr} {s : State} {d : Slot} {n : Nat} {expand : State → Nat → Texel}
    (hi : exec i s = runImport n expand d s) (h : ImportFits s d n) :
    Succeeds i s fun t => ProducedBuffer s t d s.snap.par.width s.snap.par.height fun x y =>
      expand s (s.snap.par.haddr.toNat + n * (y * s.snap.par.width.toNat + x)) := by
  refine produce_succeeds (hi.trans ?_) h.no_error
  simp only [runImport, h.toNat_width, h.toNat_height]
  rfl

/-- An IMPORT completes with the texels of any function that agrees with its expansion. -/
theorem runImport_succeeds_of_eq {i : Instr} {s : State} {d : Slot} {n : Nat}
    {expand : State → Nat → Texel} {px : Nat → Nat → Texel} (hi : exec i s = runImport n expand d s)
    (h : ImportFits s d n) (hpx : ∀ x y, expand s (s.snap.par.haddr.toNat +
      n * (y * s.snap.par.width.toNat + x)) = px x y) :
    Succeeds i s fun t => ProducedBuffer s t d s.snap.par.width s.snap.par.height px :=
  (runImport_succeeds hi h).mono fun _ _ hbuf => hbuf.congr fun x y _ _ => hpx x y

/-- Settles O45: the three expansions, each with its number of channels. -/
theorem importResult : Obligations.ImportResult := by
  intro d s hw hh hroom b p
  have hfits : SynthFits s d := ⟨hw, hh, hroom⟩
  refine ⟨fun hrange => ?oneChannel, fun hrange => ?threeChannels, fun hrange => ?fourChannels⟩
  case oneChannel =>
    refine runImport_succeeds_of_eq (expand := expandG) rfl ⟨hfits, le_rfl, by rwa [one_mul]⟩
      fun x y => ?_
    rw [expandG, importByte, one_mul]
    rfl
  case threeChannels =>
    exact runImport_succeeds_of_eq (expand := expandRgb) rfl ⟨hfits, by decide, hrange⟩ fun _ _ => rfl
  case fourChannels =>
    exact runImport_succeeds_of_eq (expand := expandRgba) rfl ⟨hfits, by decide, hrange⟩ fun _ _ => rfl

/-! ### The bytes of a transfer to HMEM (R366, R370) -/

/-- The stores of the first n pixels of a buffer: pixel p goes to `addr p`, its lanes in the given order. -/
def bufferStores (s : State) (base n : Nat) (addr : Nat → Nat) (order : List Nat) : List ByteStore :=
  (List.range n).flatMap fun p => pixelStores s (base + p) (addr p) order

/-- The address and the byte of each store. -/
def storedCells (l : List ByteStore) : List (Nat × Byte) := l.map fun b => (b.addr, b.byte)

theorem storedCells_append (l l' : List ByteStore) :
    storedCells (l ++ l') = storedCells l ++ storedCells l' := List.map_append

/-- The bytes of one pixel lie at consecutive addresses, in the order of the lanes. -/
theorem storedCells_pixelStores (s : State) (src a : Nat) (order : List Nat) :
    storedCells (pixelStores s src a order) = (List.range order.length).map
      fun k => (a + k, unpack8 (lane (tread s src) (order.getD k 0))) := by
  refine List.ext_getElem (by simp [storedCells, pixelStores]) fun k hk _ => ?_
  have hk : k < order.length := by simpa [storedCells, pixelStores] using hk
  simp [storedCells, pixelStores, hk]

/-- What a pixel's stores leave at the addresses from the pixel's own on. -/
theorem find_pixelStores (m : Memory Byte) (s : State) (src a : Nat) (order : List Nat) (k : Nat) :
    (m.writeAll (storedCells (pixelStores s src a order))).find (a + k) =
      if k < order.length then some (unpack8 (lane (tread s src) (order.getD k 0)))
      else m.find (a + k) := by
  rw [storedCells_pixelStores, Memory.find_writeAll_offsets]
  simp only [List.mem_range]

/-- A pixel's stores leave every address that is none of its bytes'. -/
theorem find_pixelStores_other (m : Memory Byte) (s : State) (src a : Nat) (order : List Nat) {c : Nat}
    (hc : ∀ k, k < order.length → a + k ≠ c) :
    (m.writeAll (storedCells (pixelStores s src a order))).find c = m.find c := by
  rw [storedCells_pixelStores]
  refine Memory.find_writeAll_other _ _ _ fun q hq => ?_
  obtain ⟨k, hk, rfl⟩ := List.mem_map.1 hq
  exact hc k (List.mem_range.1 hk)

section
variable (m : Memory Byte) (s : State) (base : Nat) (addr : Nat → Nat) (order : List Nat)

/-- One pixel more is stored after the others. -/
theorem writeAll_bufferStores_succ (n : Nat) :
    m.writeAll (storedCells (bufferStores s base (n + 1) addr order)) =
      (m.writeAll (storedCells (bufferStores s base n addr order))).writeAll
        (storedCells (pixelStores s (base + n) (addr n) order)) := by
  rw [bufferStores, List.range_succ, List.flatMap_append, List.flatMap_singleton, storedCells_append,
    Memory.writeAll_append, bufferStores]

/-- A byte that no pixel is stored at stays. -/
theorem find_bufferStores_other {n c : Nat}
    (hc : ∀ p k, p < n → k < order.length → addr p + k ≠ c) :
    (m.writeAll (storedCells (bufferStores s base n addr order))).find c = m.find c := by
  induction n with
  | zero => rfl
  | succ n ih =>
    have hother : ∀ k, k < order.length → addr n + k ≠ c := fun k hk => hc n k n.lt_succ_self hk
    rw [writeAll_bufferStores_succ, find_pixelStores_other _ _ _ _ _ hother,
      ih fun p k hp hk => hc p k (Nat.lt_succ_of_lt hp) hk]

/-- Of the pixels stored at an address the last one wins (R371). -/
theorem find_bufferStores_last {n p k : Nat} (hp : p < n) (hk : k < order.length)
    (hlast : ∀ q j, q < n → j < order.length → addr q + j = addr p + k → q ≤ p) :
    (m.writeAll (storedCells (bufferStores s base n addr order))).find (addr p + k) =
      some (unpack8 (lane (tread s (base + p)) (order.getD k 0))) := by
  induction n with
  | zero => exact absurd hp p.not_lt_zero
  | succ n ih =>
    rw [writeAll_bufferStores_succ]
    obtain hlt | rfl := Nat.lt_succ_iff_lt_or_eq.1 hp
    · have hother : ∀ j, j < order.length → addr n + j ≠ addr p + k := fun j hj he =>
        absurd (hlast n j n.lt_succ_self hj he) (not_le.2 hlt)
      rw [find_pixelStores_other _ _ _ _ _ hother,
        ih hlt fun q j hq hj he => hlast q j (Nat.lt_succ_of_lt hq) hj he]
    · rw [find_pixelStores, if_pos hk]

end

/-- What a transfer to HMEM leaves: the bytes stored in order, and all else as before (R366, R370). -/
structure StoredBuffer (s t : State) (base n : Nat) (addr : Nat → Nat) (order : List Nat) : Prop where
  tmem : t.tmem = s.tmem
  desc : t.desc = s.desc
  hmem : t.hmem = s.hmem.writeAll (storedCells (bufferStores s base n addr order))

section
variable {s t : State} {base n : Nat} {addr : Nat → Nat} {order : List Nat}
  (h : StoredBuffer s t base n addr order)
include h

theorem StoredBuffer.find_last {p k : Nat} (hp : p < n) (hk : k < order.length)
    (hlast : ∀ q j, q < n → j < order.length → addr q + j = addr p + k → q ≤ p) :
    t.hmem.find (addr p + k) = some (unpack8 (lane (tread s (base + p)) (order.getD k 0))) := by
  rw [h.hmem, find_bufferStores_last s.hmem s base addr order hp hk hlast]

theorem StoredBuffer.find_other {c : Nat}
    (hc : ∀ p k, p < n → k < order.length → addr p + k ≠ c) : t.hmem.find c = s.hmem.find c := by
  rw [h.hmem, find_bufferStores_other s.hmem s base addr order hc]

end

/-- A transfer to HMEM whose checks pass completes with its stores made. -/
theorem store_succeeds {i : Instr} {s : State} {e : Option ErrCode} {base n : Nat} {addr : Nat → Nat}
    {order : List Nat}
    (hi : exec i s = runCommand s e (storeBytes s (bufferStores s base n addr order)))
    (he : e = none) : Succeeds i s fun t => StoredBuffer s t base n addr order :=
  succeeds_of_run hi he (sameRegisters_of_work s s.tmem _ s.desc) rfl ⟨rfl, rfl, rfl⟩

/-- The checks of a transfer of a valid slot whose range, which is not empty, ends within HMEM. -/
theorem transferError_none {s : State} {src : Slot} {r : Region}
    (hvalid : (s.snap.desc.at src).valid = true) (hcount : 0 < r.count)
    (hrange : r.base + r.count ≤ s.params.hmemSize) :
    firstFailing [emptyFails [s.snap.desc.at src], dmaFails s (r.base + r.count - 1)] = none := by
  have hempty : (emptyFails [s.snap.desc.at src]).1 = false := by simp [emptyFails, hvalid]
  exact firstFailing_eq_none (List.forall_mem_cons.2
    ⟨hempty, List.forall_mem_singleton.2 (dma_pass (by omega))⟩)

/-! ### EXPORT (R366) -/

/-- The checks of EXPORT of slot src pass (R366). -/
structure ExportFits (s : State) (src : Slot) : Prop where
  valid : (s.snap.desc.at src).valid = true
  nonempty : 1 ≤ (s.snap.desc.at src).count
  range : s.snap.par.haddr.toNat + 4 * (s.snap.desc.at src).count ≤ s.params.hmemSize

theorem ExportFits.no_error {s : State} {src : Slot} (h : ExportFits s src) :
    exportError s src = none := by
  have hcount : 0 < (exportRange s (s.snap.desc.at src)).count :=
    Nat.mul_pos (by decide) h.nonempty
  exact transferError_none h.valid hcount h.range

/-- The lanes of a pixel in the order of EXPORT: R, G, B, A (R366). -/
def exportOrder : List Nat := [2, 1, 0, 3]

theorem exec_export (src : Slot) (s : State) : exec (.exportBuf src) s =
    runCommand s (exportError s src) (storeBytes s (bufferStores s
      (s.snap.desc.at src).base.toNat (s.snap.desc.at src).count
      (fun p => s.snap.par.haddr.toNat + 4 * p) exportOrder)) := rfl

/-- What EXPORT of slot src leaves. -/
abbrev Exported (s t : State) (src : Slot) : Prop :=
  StoredBuffer s t (s.snap.desc.at src).base.toNat (s.snap.desc.at src).count
    (fun p => s.snap.par.haddr.toNat + 4 * p) exportOrder

theorem export_succeeds {s : State} {src : Slot} (h : ExportFits s src) :
    Succeeds (.exportBuf src) s fun t => Exported s t src :=
  store_succeeds (exec_export src s) h.no_error

/-- Byte k of pixel p after EXPORT: no two pixels share an address (R366). -/
theorem Exported.find_byte {s t : State} {src : Slot} (h : Exported s t src) {p k : Nat}
    (hp : p < (s.snap.desc.at src).count) (hk : k < 4) :
    t.hmem.find (s.snap.par.haddr.toNat + 4 * p + k) = some (unpack8
      (lane (tread s ((s.snap.desc.at src).base.toNat + p)) (exportOrder.getD k 0))) := by
  refine h.find_last hp hk fun q j _ (hj : j < 4) he => ?_
  omega

/-- Settles O46: the pixels' bytes lie side by side. -/
theorem exportResult : Obligations.ExportResult := by
  intro src s hvalid hcount hrange
  refine (export_succeeds ⟨hvalid, hcount, hrange⟩).mono fun t _ h =>
    ⟨h.tmem, h.desc, ?bytes, ?others⟩
  case bytes =>
    intro p hp
    exact ⟨h.find_byte hp (k := 0) (by decide), h.find_byte hp (k := 1) (by decide),
      h.find_byte hp (k := 2) (by decide), h.find_byte hp (k := 3) (by decide)⟩
  case others =>
    intro a ha
    refine h.find_other fun p k hp (hk : k < 4) => ?_
    omega

/-! ### RAWFILL (R370, R371) -/

/-- The checks of RAWFILL of slot src pass (R370). -/
structure RawfillFits (s : State) (src : Slot) : Prop where
  valid : (s.snap.desc.at src).valid = true
  width : 1 ≤ (s.snap.desc.at src).w.toNat
  range : s.snap.par.haddr.toNat +
    ((s.snap.desc.at src).h.toNat - 1) * s.snap.par.hstride.toNat +
      4 * (s.snap.desc.at src).w.toNat ≤ s.params.hmemSize

theorem RawfillFits.no_error {s : State} {src : Slot} (h : RawfillFits s src) :
    rawfillError s src = none := by
  have hcount : 0 < (rawfillRange s (s.snap.desc.at src)).count :=
    Nat.add_pos_right _ (Nat.mul_pos (by decide) h.width)
  have hrange : (rawfillRange s (s.snap.desc.at src)).base +
      (rawfillRange s (s.snap.desc.at src)).count ≤ s.params.hmemSize :=
    (Nat.add_assoc _ _ _).symm.trans_le h.range
  exact transferError_none h.valid hcount hrange

/-- The address RAWFILL gives to pixel p of a buffer of width w (R370). -/
def rawfillAddr (s : State) (w p : Nat) : Nat :=
  s.snap.par.haddr.toNat + p / w * s.snap.par.hstride.toNat + 4 * (p % w)

theorem exec_rawfill (src : Slot) (s : State) : exec (.rawfill src) s =
    runCommand s (rawfillError s src) (storeBytes s (bufferStores s
      (s.snap.desc.at src).base.toNat (s.snap.desc.at src).count
      (rawfillAddr s (s.snap.desc.at src).w.toNat) (List.range 4))) := rfl

/-- What RAWFILL of slot src leaves. -/
abbrev Rawfilled (s t : State) (src : Slot) : Prop :=
  StoredBuffer s t (s.snap.desc.at src).base.toNat (s.snap.desc.at src).count
    (rawfillAddr s (s.snap.desc.at src).w.toNat) (List.range 4)

theorem rawfill_succeeds {s : State} {src : Slot} (h : RawfillFits s src) :
    Succeeds (.rawfill src) s fun t => Rawfilled s t src :=
  store_succeeds (exec_rawfill src s) h.no_error

theorem rawfillAddr_rowMajor (s : State) {w x : Nat} (y : Nat) (hx : x < w) :
    rawfillAddr s w (y * w + x) =
      s.snap.par.haddr.toNat + y * s.snap.par.hstride.toNat + 4 * x := by
  rw [rawfillAddr, rowMajor_div y hx, rowMajor_mod y hx]

/-- A pixel in a row before, or in the same row and not right of x, is not after (x, y) (R35). -/
theorem le_rowMajor {w x y q : Nat} (hq : q / w < y ∨ q / w = y ∧ q % w ≤ x) (hw : 0 < w) :
    q ≤ y * w + x := by
  have hmod := Nat.mod_lt q hw
  have hdiv := Nat.div_add_mod' q w
  obtain hrow | ⟨rfl, hcolumn⟩ := hq
  · have hle : (q / w + 1) * w ≤ y * w := Nat.mul_le_mul_right w hrow
    rw [Nat.succ_mul] at hle
    omega
  · omega

/-- Settles O47: the pixels are numbered in row-major order, and the last one stored wins. -/
theorem rawfillResult : Obligations.RawfillResult := by
  intro src s hvalid hwidth _ hrange w h addr
  have hpixel : ∀ {p}, p < (s.snap.desc.at src).count → p % w < w ∧ p / w < h := fun hp =>
    ⟨Nat.mod_lt _ hwidth, Nat.div_lt_of_lt_mul hp⟩
  refine (rawfill_succeeds ⟨hvalid, hwidth, hrange⟩).mono fun t _ hstored =>
    ⟨hstored.tmem, hstored.desc, ?bytes, ?others⟩
  case bytes =>
    intro x y k hx hy hk hlast
    have haddr : addr x y k = rawfillAddr s w (y * w + x) + k := by rw [rawfillAddr_rowMajor s y hx]
    have hlane : (List.range 4).getD k 0 = k := by simp [hk]
    have hfind := hstored.find_last (rowMajor_lt hx hy) hk fun q j hq hj he => by
      obtain ⟨hcolumn, hrow⟩ := hpixel hq
      exact le_rowMajor (hlast _ _ j hcolumn hrow hj (he.trans haddr.symm)) hwidth
    rwa [hlane, ← haddr] at hfind
  case others =>
    intro a ha
    refine hstored.find_other fun p k hp hk => ?_
    obtain ⟨hcolumn, hrow⟩ := hpixel hp
    exact ha _ _ k hcolumn hrow hk

/-! ### The round trip (R368) -/

/-- EXPORT of an imported pixel gives back the bytes of the pixel. -/
theorem unpack8_lane_expandRgba (s : State) (a : Nat) {k : Nat} (hk : k < 4) :
    unpack8 (lane (expandRgba s a) (exportOrder.getD k 0)) = hread s (a + k) := by
  have hbyte : ∀ j, unpack8 (importByte s a j % 2 ^ 16) = hread s (a + j) := fun j => by
    have hle := importByte_le s a j
    rw [Nat.mod_eq_of_lt (by omega), importByte, unpack8_pack8]
  have hcases : k = 0 ∨ k = 1 ∨ k = 2 ∨ k = 3 := by omega
  obtain rfl | rfl | rfl | rfl := hcases
  · exact (congrArg unpack8 (lane_mk_2 _ _ _ _)).trans (hbyte 0)
  · exact (congrArg unpack8 (lane_mk_1 _ _ _ _)).trans (hbyte 1)
  · exact (congrArg unpack8 (lane_mk_0 _ _ _ _)).trans (hbyte 2)
  · exact (congrArg unpack8 (lane_mk_3 _ _ _ _)).trans (hbyte 3)

/-- The texels an IMPORT leaves in the live slot, by their number (R35, R362). -/
theorem imported_texel {s t : State} {d : Slot} {n : Nat} {expand : State → Nat → Texel}
    (h : SynthFits s d)
    (hbuf : ProducedBuffer s t d s.snap.par.width s.snap.par.height fun x y =>
      expand s (s.snap.par.haddr.toNat + n * (y * s.snap.par.width.toNat + x)))
    {p : Nat} (hp : p < parCount s) :
    tread t ((t.desc.at d).base.toNat + p) = expand s (s.snap.par.haddr.toNat + n * p) := by
  rw [hbuf.slot, tread_of_find (hbuf.texel (h.parCount_eq ▸ hp)), Nat.div_add_mod']

/-- The accept of EXPORT of slot d to another place of HMEM. -/
def acceptExportTo (s : State) (d : Slot) (dest : Word) : State :=
  State.accept { s with par := { s.par with haddr := dest } } (encode (.exportBuf d))

/-- What an accepted EXPORT reads: the live descriptors and TMEM (R69). -/
theorem acceptExportTo_slot (s : State) (d : Slot) (dest : Word) :
    (acceptExportTo s d dest).snap.desc.at d = s.desc.at d := rfl

theorem tread_acceptExportTo (s : State) (d : Slot) (dest : Word) (a : Nat) :
    tread (acceptExportTo s d dest) a = tread s a := rfl

/-- Settles O48: each byte is a lane of the imported texel, and expanding and packing it changes nothing. -/
theorem importExportIdentity : Obligations.ImportExportIdentity := by
  intro d s dest hw hh hroom hrange hdest
  have hfits : ImportFits s d 4 := ⟨⟨hw, hh, hroom⟩, by decide, hrange⟩
  obtain ⟨t, himport, -, hregs, hbuf⟩ :=
    runImport_succeeds (i := .importRgba d) (expand := expandRgba) rfl hfits
  have hcount : ((acceptExportTo t d dest).snap.desc.at d).count = parCount s := by
    rw [acceptExportTo_slot, hbuf.slot, hfits.parCount_eq]
    rfl
  have hexportFits : ExportFits (acceptExportTo t d dest) d := by
    refine ⟨?_, ?_, ?_⟩
    · rw [acceptExportTo_slot, hbuf.slot]
    · rw [hcount]
      exact hfits.parCount_pos
    · rw [hcount]
      exact hdest.trans_eq (congrArg Params.hmemSize hregs.params.symm)
  obtain ⟨u, hexport, hstatus, -, hstored⟩ := export_succeeds hexportFits
  refine ⟨t, himport, u, hexport, by rw [hstatus]; rfl, fun k hk => ?_⟩
  have hpixel : k / 4 < parCount s := by omega
  have hlane : k % 4 < 4 := Nat.mod_lt k (by decide)
  have hfind := hstored.find_byte (hcount.symm ▸ hpixel) hlane
  rw [acceptExportTo_slot, tread_acceptExportTo, imported_texel hfits.toSynthFits hbuf hpixel,
    unpack8_lane_expandRgba _ _ hlane, Nat.add_assoc, Nat.add_assoc, Nat.div_add_mod] at hfind
  exact hread_of_find hfind

end Sys2Proof.Machine
end

section
/-! PROOFS. How a command ends: completion and its checks in order, STATUS and IRQ, and the events of the step
of a completion (R108, R361, R401 to R411, R443, R460). -/

namespace Sys2Proof.Machine

/-! ### Completion (R402, R405) -/

@[simp] theorem Status.complete_busy (st : Status) (e : Option ErrCode) :
    (st.complete e).busy = false := by cases e <;> rfl
@[simp] theorem Status.complete_done (st : Status) (e : Option ErrCode) :
    (st.complete e).done = true := by cases e <;> rfl
@[simp] theorem Status.complete_overrun (st : Status) (e : Option ErrCode) :
    (st.complete e).overrun = st.overrun := by cases e <;> rfl
@[simp] theorem Status.complete_latticeReady (st : Status) (e : Option ErrCode) :
    (st.complete e).latticeReady = st.latticeReady := by cases e <;> rfl

/-- Settles O25: a command ends with the completion of its STATUS, and its work leaves the registers. -/
theorem execEnds : Obligations.ExecEnds := by
  intro i s
  obtain ⟨t, ht⟩ := exec_next i s
  obtain ⟨e, he⟩ := exec_status ht
  refine ⟨t, ht, ?_, ?_, ?_, ?_, exec_sameRegisters ht⟩
  · rw [he, Status.complete_busy]
  · rw [he, Status.complete_done]
  · rw [he, Status.complete_overrun]
  · rw [he, Status.complete_latticeReady]

/-- Settles O26: of the two ways a command can end, only the error completion sets ERR. -/
theorem errorChangesOnlyStatus : Obligations.ErrorChangesOnlyStatus := by
  intro i s t hacc h herr
  rcases exec_work h with ⟨c, rfl⟩ | ⟨w, hw, rfl⟩
  · rfl
  · obtain ⟨-, -, hclear, -⟩ := hacc
    have hset : w.status.err = true := herr
    rw [hw.frame.2, hclear] at hset
    cases hset

/-! ### Checks and causes (R361, R401, R403, R404) -/

/-- The ERRCODE that a completion leaves where an accept has cleared it (R45, R405). -/
def completionCode : Option ErrCode → BitVec 4
  | none => 0
  | some e => e.code

/-- A check of the model fails exactly when a cause of R401 holds, and raises the code of that cause. -/
def CheckReads (c : Bool × ErrCode) (p : Prop × BitVec 4) : Prop :=
  (c.1 = true ↔ p.1) ∧ c.2.code = p.2

/-- Checks that read the causes one by one have the first cause that holds as their first failure. -/
theorem firstCause_of_reads {l : List (Bool × ErrCode)} {l' : List (Prop × BitVec 4)}
    (h : List.Forall₂ CheckReads l l') : FirstCause l' (completionCode (firstFailing l)) := by
  induction h with
  | nil => rfl
  | @cons c p l l' hread _ ih =>
    obtain ⟨fails, err⟩ := c
    obtain ⟨cause, code⟩ := p
    obtain ⟨hiff, hcode⟩ := hread
    rw [firstFailing_cons]
    cases fails with
    | true => exact .inl ⟨hiff.1 rfl, hcode⟩
    | false => exact .inr ⟨fun hc => Bool.false_ne_true (hiff.2 hc), ih⟩

theorem dimFails_reads (s : State) : CheckReads (dimFails s) (DimCause s, 1) :=
  ⟨decide_eq_true_iff, rfl⟩

theorem nomemFails_reads (s : State) (d : Slot) (n : Nat) :
    CheckReads (nomemFails s d n) (NomemCause s d n, 5) :=
  ⟨decide_eq_true_iff, rfl⟩

theorem emptyFails_reads (s : State) (n : Slot) :
    CheckReads (emptyFails [s.snap.desc.at n]) (EmptyCause s n, 4) :=
  ⟨by simp [emptyFails, EmptyCause], rfl⟩

/-- The last byte of a range lies in HMEM exactly when the range ends there; for an empty range at address 0
this needs an HMEM of one byte (R361). -/
theorem dmaFails_reads {s : State} (hmem : 1 ≤ s.params.hmemSize) (n : Nat) :
    CheckReads (dmaFails s (n - 1)) (s.params.hmemSize < n, 7) := by
  refine ⟨decide_eq_true_iff.trans ?_, rfl⟩
  omega

theorem overlaps_iff_sharesTexel (s : State) (d n : Slot) (count : Nat) :
    (outRegion s d count).overlaps (s.snap.desc.at n).region = true ↔ SharesTexel s d count n := by
  simp only [Region.overlaps_iff, Region.has_iff, SharesTexel, NoOverlap, not_forall, not_not, and_assoc,
    outRegion, Desc.region]

theorem identical_iff_sameRegion (s : State) (d n : Slot) (count : Nat) :
    (outRegion s d count).identical (s.snap.desc.at n).region = true ↔ SameRegion s d count n := by
  simp only [Region.identical, decide_eq_true_eq, SameRegion, outRegion, Desc.region, BitVec.toNat_inj]

/-- ALIAS with the identical region allowed (R403). -/
theorem aliasFails_iff (s : State) (d n : Slot) (count : Nat) :
    ((outRegion s d count).overlaps (s.snap.desc.at n).region &&
        !(outRegion s d count).identical (s.snap.desc.at n).region) = true ↔
      SharesTexel s d count n ∧ ¬SameRegion s d count n := by
  rw [Bool.and_eq_true, Bool.not_eq_true', ← Bool.not_eq_true, overlaps_iff_sharesTexel,
    identical_iff_sameRegion]

/-- The list of MERGE has its entries 0 to n - 1 (R320). -/
theorem mergeDescs_eq (s : State) {n : Nat} (hn : 1 ≤ n) :
    mergeDescs s n = (List.range n).map fun k => s.snap.desc.at (mlistAt s k) := by
  obtain ⟨m, rfl⟩ := Nat.exists_eq_add_of_le' hn
  simp only [mergeDescs, mergeRest, Nat.add_sub_cancel, List.range_succ_eq_map, List.map_cons,
    List.map_map]
  rfl

theorem any_mergeDescs (s : State) {n : Nat} (hn : 1 ≤ n) (f : Desc → Bool) :
    (mergeDescs s n).any f = true ↔ ∃ k, k < n ∧ f (s.snap.desc.at (mlistAt s k)) = true := by
  simp only [mergeDescs_eq s hn, List.any_map, List.any_eq_true, List.mem_range, Function.comp_apply]

/-- What the end of a command owes to R401: it completes with the code of the first cause that holds. -/
def EndsByCauses (i : Instr) (s : State) : Prop :=
  ∃ e work, exec i s = runCommand s e work ∧ work.status = s.status ∧
    FirstCause (causes i s) (completionCode e)

theorem endsByCauses_of_reads {i : Instr} {s work : State} {l : List (Bool × ErrCode)}
    (hi : exec i s = runCommand s (firstFailing l) work) (hw : work.status = s.status)
    (hl : List.Forall₂ CheckReads l (causes i s)) : EndsByCauses i s :=
  ⟨_, work, hi, hw, firstCause_of_reads hl⟩

theorem synthChecks_read (s : State) (d : Slot) : List.Forall₂ CheckReads
    [dimFails s, nomemFails s d ((widthOf s).toNat * (heightOf s).toNat)]
    [(DimCause s, 1), (NomemCause s d (parCount s), 5)] :=
  .cons (dimFails_reads s) (.cons (nomemFails_reads s d _) .nil)

theorem slotCheck_reads (s : State) (d : Slot) : List.Forall₂ CheckReads
    [emptyFails [s.snap.desc.at d]] [(EmptyCause s d, 4)] :=
  .cons (emptyFails_reads s d) .nil

theorem mergeChecks_read (s : State) (d : Slot) {n : Nat} (hn : 1 ≤ n) : List.Forall₂ CheckReads
    [emptyFails (mergeDescs s n),
      ((mergeDescs s n).any (fun q => decide (q.w ≠ (s.snap.desc.at (mlistAt s 0)).w ∨
        q.h ≠ (s.snap.desc.at (mlistAt s 0)).h)), .sizeMismatch),
      nomemFails s d (s.snap.desc.at (mlistAt s 0)).count,
      ((mergeDescs s n).any (fun q =>
        (outRegion s d (s.snap.desc.at (mlistAt s 0)).count).overlaps q.region &&
          !(outRegion s d (s.snap.desc.at (mlistAt s 0)).count).identical q.region), .aliased)]
    (mergeCauses s d n) := by
  refine .cons ⟨?_, rfl⟩ (.cons ⟨?_, rfl⟩ (.cons (nomemFails_reads s d _) (.cons ⟨?_, rfl⟩ .nil)))
  · simp only [emptyFails, any_mergeDescs s hn, Bool.not_eq_true', EmptyCause]
  · simp only [any_mergeDescs s hn, decide_eq_true_eq]
  · simp only [any_mergeDescs s hn, aliasFails_iff]

theorem importChecks_read {s : State} (hmem : 1 ≤ s.params.hmemSize) (d : Slot) (n : Nat) :
    List.Forall₂ CheckReads
      [dimFails s, nomemFails s d ((widthOf s).toNat * (heightOf s).toNat),
        dmaFails s ((importRange s n).base + (importRange s n).count - 1)]
      (importCauses s d n) :=
  .cons (dimFails_reads s) (.cons (nomemFails_reads s d _) (.cons (dmaFails_reads hmem _) .nil))

/-- The bytes of a RAWFILL from P_HADDR to LAST end where R361 says. -/
theorem rawfillRange_end (s : State) (ds : Desc) :
    (rawfillRange s ds).base + (rawfillRange s ds).count = s.snap.par.haddr.toNat +
      (ds.h.toNat - 1) * s.snap.par.hstride.toNat + 4 * ds.w.toNat :=
  (Nat.add_assoc _ _ _).symm

/-- The checks of each command are the causes of R404 for it, in their order. -/
theorem exec_endsByCauses {i : Instr} {s : State} (hi : i.WellFormed = true)
    (hmem : 1 ≤ s.params.hmemSize) : EndsByCauses i s := by
  cases i with
  | nop | release d => exact endsByCauses_of_reads (l := []) rfl rfl .nil
  | illegalImport3 | illegal op =>
    exact endsByCauses_of_reads (l := [(true, .illegalOp)]) (work := s) rfl rfl
      (.cons ⟨iff_of_true rfl trivial, rfl⟩ .nil)
  | synth d mode | grad d mode => exact endsByCauses_of_reads rfl rfl (synthChecks_read s d)
  | normal d src z3d tan sharp =>
    exact endsByCauses_of_reads rfl rfl (.cons (emptyFails_reads s src) (.cons (nomemFails_reads s d _)
      (.cons ⟨overlaps_iff_sharesTexel s d src _, rfl⟩ .nil)))
  | copy d src =>
    exact endsByCauses_of_reads rfl rfl (.cons (emptyFails_reads s src) (.cons (nomemFails_reads s d _)
      (.cons ⟨aliasFails_iff s d src _, rfl⟩ .nil)))
  | glow d wrapx wrapy curve rect => exact endsByCauses_of_reads rfl rfl (slotCheck_reads s d)
  | colorizeMul d | colorizeAdd d | colorizeSub d | colorizeGray d | colorizeInv d | colorizeNop5 d
  | colorizeNop6 d | colorizeNop7 d => exact endsByCauses_of_reads rfl rfl (slotCheck_reads s d)
  | mergeAdd d n | mergeSub d n | mergeMul d n | mergeAdd3 d n =>
    obtain ⟨hn, -⟩ := (mergeCountOk_iff n).1 hi
    exact endsByCauses_of_reads rfl rfl (mergeChecks_read s d hn)
  | importG d | importRgb d | importRgba d =>
    exact endsByCauses_of_reads rfl rfl (importChecks_read hmem d _)
  | exportBuf src =>
    exact endsByCauses_of_reads rfl rfl
      (.cons (emptyFails_reads s src) (.cons (dmaFails_reads hmem _) .nil))
  | rawfill src =>
    refine endsByCauses_of_reads rfl rfl (.cons (emptyFails_reads s src) (.cons ?_ .nil))
    rw [rawfillRange_end]
    exact dmaFails_reads hmem _

/-- A command completes its STATUS with the error of the first cause that holds (R401). -/
theorem exec_completes_firstCause {i : Instr} {s t : State} (hi : i.WellFormed = true)
    (hmem : 1 ≤ s.params.hmemSize) (h : exec i s = .next t) :
    ∃ e, t.status = s.status.complete e ∧ FirstCause (causes i s) (completionCode e) := by
  obtain ⟨e, work, hrun, hw, hcause⟩ := exec_endsByCauses hi hmem
  refine ⟨e, ?_, hcause⟩
  rcases runCommand_cases s e work t (hrun ▸ h) with ⟨c, rfl, rfl⟩ | ⟨rfl, rfl⟩
  · rfl
  · rw [complete_status, hw]

/-! ### STATUS while a command runs and after it (R406) -/

/-- The STATUS flags of a running command, with the OVERRUN and LATTICE_READY given. -/
def Status.runningWith (overrun ready : Bool) : Status :=
  { busy := true, done := false, err := false, overrun := overrun, latticeReady := ready, errcode := 0 }

theorem State.Accepted.status_eq {s : State} (h : s.Accepted) :
    s.status = .runningWith s.status.overrun s.status.latticeReady := by
  obtain ⟨hbusy, hdone, herr, hcode⟩ := h
  calc s.status = ⟨s.status.busy, s.status.done, s.status.err, s.status.overrun,
        s.status.latticeReady, s.status.errcode⟩ := rfl
    _ = .runningWith s.status.overrun s.status.latticeReady := by
      rw [hbusy, hdone, herr, hcode, Status.runningWith]

theorem State.Accepted.legal {s : State} (h : s.Accepted) : s.status.Legal := by
  obtain ⟨-, hdone, herr, hcode⟩ := h
  exact ⟨iff_of_true herr hcode, by rw [hcode]; decide, fun _ => ⟨hdone, herr⟩⟩

theorem State.Accepted.complete_errcode {s : State} (h : s.Accepted) (e : Option ErrCode) :
    (s.status.complete e).errcode = completionCode e := by
  obtain ⟨-, -, -, hcode⟩ := h
  cases e with
  | none => exact hcode
  | some e => rfl

theorem Status.Legal.err_iff {st : Status} (h : st.Legal) : st.err = true ↔ st.errcode ≠ 0 := by
  rw [← Bool.not_eq_false, ne_eq, h.code]

/-- Settles O27: the checks read the causes, and ERR goes with its code. -/
theorem firstFailedCheck : Obligations.FirstFailedCheck := by
  intro i s t hi hacc hmem h
  obtain ⟨e, he, hcause⟩ := exec_completes_firstCause hi hmem h
  rw [he]
  refine ⟨?_, (hacc.legal.complete e).err_iff⟩
  rwa [hacc.complete_errcode]

/-- The codes of R401, and 0 for success. -/
theorem completionCode_cases (e : Option ErrCode) :
    completionCode e = 0 ∨ completionCode e = 1 ∨ completionCode e = 2 ∨ completionCode e = 3 ∨
      completionCode e = 4 ∨ completionCode e = 5 ∨ completionCode e = 6 ∨ completionCode e = 7 := by
  obtain _ | e := e
  · exact .inl rfl
  · cases e <;> decide

theorem Status.runningWith_word : (Status.runningWith false true).word = 0x11 := rfl

/-- The word of R406 after each of the eight completions. -/
theorem Status.complete_runningWith_word (e : Option ErrCode) :
    ((Status.runningWith false true).complete e).word = completionWord (completionCode e) := by
  obtain _ | e := e
  · rfl
  · cases e <;> rfl

/-- Settles O28: the flags of a running command are known, and so are those of each completion. -/
theorem statusWords : Obligations.StatusWords := by
  intro i s t hi hacc hmem hready hover h
  obtain ⟨e, he, hcause⟩ := exec_completes_firstCause hi hmem h
  have hrunning : s.status = .runningWith false true := by
    rw [hacc.status_eq, hready, hover]
  refine ⟨?_, completionCode e, hcause, ?_, completionCode_cases e⟩
  · rw [hrunning, Status.runningWith_word]
  · rw [he, hrunning, Status.complete_runningWith_word]

/-! ### IRQ (R410) -/

theorem irq_of_not_done {s : State} (h : s.status.done = false) : s.irq = false := by
  rw [State.irq, h, Bool.and_false]

/-- A 1 written to DONE clears it, where the engine has not set it in the step (R44). -/
theorem Status.ack_none_done (st : Status) {v : Word} (h : v.getLsbD 1 = true) :
    (st.ack StepMarks.none v).done = false := by
  rw [Status.ack_none, h]
  rfl

/-- Settles O29, event by event. -/
theorem irqLine : Obligations.IrqLine := by
  intro i s t m c v h
  obtain ⟨e, he⟩ := exec_status h
  refine ⟨rfl, ?_, irq_of_not_done rfl, fun hv => irq_of_not_done (s.status.ack_none_done hv), ?_, ?_,
    fun hb => ?_, irq_of_not_done rfl, irq_of_not_done rfl⟩
  · rw [State.irq, he, Status.complete_done, Bool.and_true, (exec_sameRegisters h).irqEn]
  · rw [writeReg_ctrl (by decide)]
    rfl
  · rw [writeReg_ctrl (by decide)]
    exact Bool.true_and _
  · rw [writeReg_cmd_busy hb]
    rfl

/-! ### Every command completes (R405, R460) -/

/-- Within n steps the machine has completed its command. -/
def CompletesWithin (n : Nat) (s : State) : Prop :=
  ∃ k t, k ≤ n ∧ core.run k s = .next t ∧ t.status.busy = false ∧ t.status.done = true

theorem CompletesWithin.mono {s : State} {m n : Nat} (h : CompletesWithin m s) (hmn : m ≤ n) :
    CompletesWithin n s := by
  obtain ⟨k, t, hk, hrun, hend⟩ := h
  exact ⟨k, t, hk.trans hmn, hrun, hend⟩

theorem run_succ_of_step {s u : State} (h : step s = .next u) (k : Nat) :
    core.run (k + 1) s = core.run k u := by
  have hcore : core.step s = .next u := h
  simp only [Host.Core.run, hcore]

/-- One step more. -/
theorem CompletesWithin.of_step {s u : State} {n : Nat} (hstep : step s = .next u)
    (h : CompletesWithin n u) : CompletesWithin (n + 1) s := by
  obtain ⟨k, t, hk, hrun, hend⟩ := h
  exact ⟨k + 1, t, Nat.succ_le_succ hk, (run_succ_of_step hstep k).trans hrun, hend⟩

section
variable {s : State} {stalled : Bool} {rest : List Bool}

theorem popInput_hostq_nil (hq : s.hostq = []) : s.popInput.hostq = [] := by
  rw [State.popInput, hq, List.tail_nil]

theorem nextStall_nil (h : s.stalls = []) : s.nextStall = false := by rw [State.nextStall, h]; rfl

theorem nextStall_cons (h : s.stalls = stalled :: rest) : s.nextStall = stalled := by
  rw [State.nextStall, h]; rfl

theorem popInput_stalls_nil (h : s.stalls = []) : s.popInput.stalls = [] := by
  rw [State.popInput, h, List.tail_nil]

theorem popInput_stalls_cons (h : s.stalls = stalled :: rest) : s.popInput.stalls = rest := by
  rw [State.popInput, h, List.tail_cons]

variable (hq : s.hostq = [])
include hq

theorem step_stalled (hstall : s.nextStall = true) : step s = .next s.popInput :=
  step_idleHost hq (m := StepMarks.none) (by rw [engineTick, if_pos hstall])

theorem step_builds (hstall : s.nextStall = false) (hready : s.status.latticeReady = false) :
    step s = .next s.popInput.finishBuild := by
  have hunbuilt : (!s.popInput.status.latticeReady) = true := congrArg not hready
  exact step_idleHost hq (m := StepMarks.none)
    (by rw [hstall, engineTick, if_neg Bool.false_ne_true, if_pos hunbuilt])

/-- With the lattice built and no stall, the next step completes the command, raced on or not. -/
theorem completesWithin_one (hbusy : s.status.busy = true) (hstall : s.nextStall = false)
    (hready : s.status.latticeReady = true) : CompletesWithin 1 s := by
  obtain ⟨t, ht⟩ := exec_next s.popInput.running s.popInput
  obtain ⟨e, he⟩ := exec_status ht
  have hrun : runToCompletion s.popInput = .next (applyRaces s.popInput.running s.popInput t) := by
    simp only [runToCompletion, ht]
  have hbuilt : ¬(!s.popInput.status.latticeReady) = true := Bool.eq_false_iff.1 (congrArg not hready)
  have hbusy' : s.popInput.status.busy = true := hbusy
  have htick : engineTick s.nextStall s.popInput =
      .next (applyRaces s.popInput.running s.popInput t,
        completionMarks (applyRaces s.popInput.running s.popInput t).status) := by
    rw [engineTick, hstall, if_neg Bool.false_ne_true, if_neg hbuilt, if_pos hbusy', hrun]
  refine .of_step (step_idleHost hq htick) ⟨0, _, le_refl 0, rfl, ?_, ?_⟩
  · rw [applyRaces_status, he, Status.complete_busy]
  · rw [applyRaces_status, he, Status.complete_done]

end

/-- Each step uses up one entry of the list of stalls; once it is empty, the build may be left to do. -/
theorem completesWithin_stalls {stalls : List Bool} {s : State} (hbusy : s.status.busy = true)
    (hq : s.hostq = []) (hs : s.stalls = stalls) : CompletesWithin (stalls.length + 2) s := by
  induction stalls generalizing s with
  | nil =>
    cases hready : s.status.latticeReady with
    | true => exact (completesWithin_one hq hbusy (nextStall_nil hs) hready).mono (by omega)
    | false =>
      exact .of_step (step_builds hq (nextStall_nil hs) hready)
        (completesWithin_one (s := s.popInput.finishBuild) (popInput_hostq_nil hq) hbusy
          (nextStall_nil (popInput_stalls_nil hs)) rfl)
  | cons stalled rest ih =>
    have hlater := ih (s := s.popInput) hbusy (popInput_hostq_nil hq) (popInput_stalls_cons hs)
    cases stalled with
    | true => exact .of_step (step_stalled hq (nextStall_cons hs)) hlater
    | false =>
      cases hready : s.status.latticeReady with
      | true => exact (completesWithin_one hq hbusy (nextStall_cons hs) hready).mono (by omega)
      | false =>
        exact .of_step (step_builds hq (nextStall_cons hs) hready)
          (ih (s := s.popInput.finishBuild) hbusy (popInput_hostq_nil hq) (popInput_stalls_cons hs))

/-- Settles O24, by induction on the list of stalled steps. -/
theorem commandCompletes : Obligations.CommandCompletes :=
  fun _ hbusy hq => completesWithin_stalls hbusy hq rfl

/-! ### The step of a completion (R108, R411, R443) -/

/-- A register write is the access of its register, and the accesses after it see what it leaves (R106). -/
theorem runOps_write {off : BitVec 12} {r : Reg} (h : regAt off = some r) (rst : Bool) (v : Word)
    (ops : List HostOp) (m : StepMarks) (s : State) :
    runOps rst (.write off .b32 v :: ops) m s =
      runOps rst ops (writeReg rst m s r v).2 (writeReg rst m s r v).1 := by
  simp only [runOps, runOp, windowWrite, h]

theorem regAt_ctrl : regAt 0x004 = some .ctrl := by decide
theorem regAt_status : regAt 0x008 = some .status := by decide
theorem regAt_cmd : regAt 0x00C = some .cmd := by decide

theorem writeReg_status (rst : Bool) (m : StepMarks) (s : State) (v : Word) :
    writeReg rst m s .status v = ({ s with status := s.status.ack m v }, m) := rfl

theorem writeReg_ctrl_reset {v : Word} (h : v.getLsbD 1 = true) (rst : Bool) (m : StepMarks) (s : State) :
    writeReg rst m s .ctrl v = (s.softReset, StepMarks.none) := by
  simp only [writeReg, h, if_true]

section
variable (st : Status) (m : StepMarks) (v : Word)

/-- An OVERRUN that the engine has set in the step stays (R108, R411). -/
theorem Status.ack_overrun_marked (hm : m.overrun = true) : (st.ack m v).overrun = st.overrun := by
  rw [Status.ack, hm, Bool.true_or, Bool.and_true]

/-- A STATUS write clears no flag that a completion of the step has left (R411). -/
theorem Status.ack_completionMarks_done : (st.ack (completionMarks st) v).done = st.done := by
  cases hdone : st.done <;> simp [Status.ack, completionMarks, hdone]

theorem Status.ack_completionMarks_err : (st.ack (completionMarks st) v).err = st.err := by
  cases herr : st.err <;> simp [Status.ack, completionMarks, herr]

theorem Status.Legal.ack_completionMarks_errcode {st : Status} (h : st.Legal) (v : Word) :
    (st.ack (completionMarks st) v).errcode = st.errcode := by
  cases herr : st.err with
  | true => simp [Status.ack, completionMarks, herr]
  | false => simp [Status.ack, h.code.1 herr]

end

/-- A step with a soft reset as its only access is that reset: the engine's update of the step is discarded
(R443). -/
theorem step_softReset {s : State} {r : Word} {q : List HostCycle} (hr : r.getLsbD 1 = true)
    (hq : s.hostq = .accesses [.write 0x004 .b32 r] :: q) : step s = .next s.popInput.softReset := by
  have hnext : s.nextCycle = .accesses [.write 0x004 .b32 r] := by
    rw [State.nextCycle, hq]
    rfl
  have hreset : (HostCycle.accesses [.write 0x004 .b32 r]).resets = true := by
    simpa [HostCycle.resets, HostCycle.softResets, HostOp.isSoftReset, hr] using regAt_ctrl
  rw [step, machineStep, hnext, if_pos hreset, hostTick, runOps_write regAt_ctrl, writeReg_ctrl_reset hr,
    runOps]

/-- The accesses of the step of a completion see the completed state and its marks (R411). -/
theorem step_completion {s u : State} {ops : List HostOp} {q : List HostCycle}
    (hready : s.status.latticeReady = true) (hacc : s.Accepted) (hstall : s.nextStall = false)
    (hrace : s.NoRace) (hu : exec s.running s.popInput = .next u) (hq : s.hostq = .accesses ops :: q)
    (hport : ops.map (HostOp.atPort s.params.hmsynBase) = ops)
    (hreset : ops.any HostOp.isSoftReset = false) :
    step s = runOps false ops (completionMarks u.status) u := by
  have hnext : s.nextCycle = .accesses ops := by
    rw [State.nextCycle, hq, List.headD_cons, HostCycle.atPort_accesses, hport]
  obtain ⟨hbusy, -⟩ := hacc
  rw [step_runs hready hbusy hstall hrace (hnext ▸ hreset) hu, hnext, hostTick]

/-- Settles O14: the first three inputs act on the completed state and its marks, the last discards it. -/
theorem simultaneousEvents : Obligations.SimultaneousEvents := by
  intro s u v c c' r q hready hacc hstall hrace hu hr
  obtain ⟨e, he⟩ := exec_status hu
  have hbusy : u.status.busy = false := by rw [he, Status.complete_busy]
  have hlegal : u.status.Legal := he ▸ hacc.legal.complete e
  refine ⟨fun hq => ⟨{ u with status := u.status.ack (completionMarks u.status) v }, ?_, hbusy, ?_,
      u.status.ack_completionMarks_err v, hlegal.ack_completionMarks_errcode v⟩,
    fun hq => ⟨u.accept c, ?_, rfl, ⟨rfl, rfl, rfl, rfl⟩, ?_, rfl, rfl, rfl⟩,
    fun hq => ?_, fun hq => ⟨s.popInput.softReset, step_softReset hr hq, rfl, rfl⟩⟩
  · rw [step_completion hready hacc hstall hrace hu hq rfl rfl, runOps_write regAt_status,
      writeReg_status, runOps]
  · rw [Status.ack_completionMarks_done, he, Status.complete_done]
  · rw [step_completion hready hacc hstall hrace hu hq rfl rfl, runOps_write regAt_cmd,
      writeReg_cmd_idle hbusy, runOps]
  · exact (congrArg Status.overrun he).trans (Status.complete_overrun s.status e)
  · rw [step_completion hready hacc hstall hrace hu hq rfl rfl, runOps_write regAt_cmd,
      writeReg_cmd_idle hbusy, runOps_write regAt_cmd, writeReg_cmd_busy rfl, runOps_write regAt_status,
      writeReg_status, runOps]
    exact ⟨_, rfl, rfl, rfl, Status.ack_overrun_marked _ _ _ rfl⟩

end Sys2Proof.Machine
end

section
/-! PROOFS. Resets: power-on reset and the invariants after it (R440, R441), soft reset and the command it
abandons (R443, R444). -/

namespace Sys2Proof.Machine

/-! ### The invariants at power-on reset (R441) -/

/-- The default lattice is a lattice as R60 and R61 ask for: the first half of P permutes 0 to 255 and the
second half repeats it, and the gradients lie in Q14. -/
theorem defaultLattice_legal :
    defaultLattice.perm.length = 512 ∧ (defaultLattice.perm.take 256).Perm (List.range 256) ∧
      defaultLattice.perm.drop 256 = defaultLattice.perm.take 256 ∧ defaultLattice.grad.length = 256 ∧
      ∀ g ∈ defaultLattice.grad, |g.1| ≤ 16384 ∧ |g.2| ≤ 16384 := by decide +kernel

/-- The size of a memory is in its domain, whatever its last address is (R7). -/
theorem memorySize_ok (last : BitVec 32) : 1 ≤ last.toNat + 1 ∧ last.toNat + 1 ≤ 2 ^ 32 :=
  ⟨Nat.le_add_left 1 _, last.isLt⟩

theorem initialParams_ok : Params.Ok Params.initial := by
  obtain ⟨hperm, hbijection, hrepeat, hgrad, hbound⟩ := defaultLattice_legal
  exact ⟨memorySize_ok _, memorySize_ok _, hperm, hbijection, hrepeat, hgrad, hbound⟩

theorem reset_regionsOk : State.reset.RegionsOk := by
  have hempty : ∀ n, (DescTable.empty.at n).Ok State.reset.params := fun n => by
    rw [DescTable.at_empty]
    exact Desc.empty_ok _
  exact ⟨fun n => ⟨hempty n, hempty n⟩, Memory.each_nil, Memory.each_nil,
    ⟨List.forall_mem_nil _, List.forall_mem_nil _⟩⟩

theorem reset_texelsOk : State.reset.TexelsOk :=
  ⟨Memory.each_nil, DescTable.empty_written _, DescTable.empty_written _⟩

theorem reset_controlOk : State.reset.ControlOk Params.initial :=
  ⟨Status.zero_legal, fun hready => (Bool.false_ne_true hready).elim,
    fun hbusy => (Bool.false_ne_true hbusy).elim, rfl⟩

/-- Settles O60: empty memories and empty slots keep the invariants on data, STATUS = 0 those on control. -/
theorem invariantsAtReset : Obligations.InvariantsAtReset := by
  obtain ⟨hdescs, haddresses, hraces⟩ := (State.regionsOk_iff _).1 reset_regionsOk
  obtain ⟨hroom, hwritten⟩ := (State.texelsOk_iff _).1 reset_texelsOk
  obtain ⟨hstatus, hlattice, hsnapshot, -⟩ := (State.controlOk_iff _ _).1 reset_controlOk
  exact ⟨⟨List.Pairwise.nil, List.Pairwise.nil⟩, hdescs, haddresses, hraces, hroom, hwritten, hstatus,
    hlattice, hsnapshot, initialParams_ok⟩

/-! ### Power-on reset (R440, R441) -/

section
variable (s : State)

@[simp] theorem powerOn_hostq : s.powerOn.hostq = s.hostq := rfl
@[simp] theorem powerOn_hostReads : s.powerOn.hostReads = s.hostReads := rfl

theorem powerOn_resetRegisters : ResetRegisters s.powerOn :=
  ⟨rfl, rfl, rfl, rfl, rfl, rfl, rfl, DescTable.at_empty⟩

end

/-- HMEM stays where no transfer can be half done. -/
theorem powerOn_hmem_idle {s : State} (h : s.status.busy = false) : s.powerOn.hmem = s.hmem := by
  simp only [State.powerOn, h, Bool.false_eq_true, if_false]

/-- An answer to the host is no register. -/
theorem ResetRegisters.answer {s : State} (h : ResetRegisters s) (v : Word) :
    ResetRegisters (s.answer v) :=
  ⟨h.irqEn, h.status, h.cmd, h.taddr, h.rdlatch, h.wrlatch, h.par, h.desc⟩

/-- While IRQ_EN is 0 there is no interrupt (R410). -/
theorem ResetRegisters.irq {s : State} (h : ResetRegisters s) : s.irq = false := by
  rw [State.irq, h.irqEn, Bool.false_and]

/-- A step under RST_N is the reset, and then the accesses that RST_N lets through (R440). -/
theorem step_rstN {s : State} {ops : List HostOp} {q : List HostCycle} (hq : s.hostq = .rstN ops :: q)
    (hport : ops.map (HostOp.atPort s.params.hmsynBase) = ops) :
    step s = runOpsInReset ops s.popInput.powerOn := by
  have hnext : s.nextCycle = .rstN ops := by
    rw [State.nextCycle, hq, List.headD_cons, HostCycle.atPort_rstN, hport]
  have hreset : (HostCycle.rstN ops).resets = true := rfl
  rw [step, machineStep, hnext, if_pos hreset, hostTick]

/-- Settles O7: the window access of the step comes after the reset, reads 0 and writes nothing. -/
theorem powerOnReset : Obligations.PowerOnReset := by
  intro s off off' z z' v q hq
  refine ⟨s.popInput.powerOn.answer 0, step_rstN hq rfl, (powerOn_resetRegisters _).answer 0,
    ((powerOn_resetRegisters _).answer 0).irq, rfl, rfl, ?_, fun a => rfl, fun hidle => ?_⟩
  · rw [answer_hostq, powerOn_hostq, popInput_hostq, hq, List.tail_cons]
  · exact powerOn_hmem_idle hidle

/-! ### Soft reset (R443) -/

section
variable (s : State)

@[simp] theorem softReset_hostq : s.softReset.hostq = s.hostq := by
  unfold State.softReset
  split <;> rfl

theorem softReset_resetRegisters : ResetRegisters s.softReset :=
  ⟨rfl, rfl, rfl, rfl, rfl, rfl, rfl, DescTable.at_empty⟩

/-- The input of a step is nothing that a command touches. -/
@[simp] theorem footprint_popInput (i : Instr) : footprint i s.popInput = footprint i s := by
  cases i <;> rfl

end

section
variable {s : State}

theorem softReset_tmem_idle (h : s.status.busy = false) : s.softReset.tmem = s.tmem := by
  simp only [State.softReset, h, Bool.false_eq_true, if_false]

theorem softReset_hmem_idle (h : s.status.busy = false) : s.softReset.hmem = s.hmem := by
  simp only [State.softReset, h, Bool.false_eq_true, if_false]

theorem softReset_tmem_busy (h : s.status.busy = true) : s.softReset.tmem = s.abandon.tmem := by
  simp only [State.softReset, h, if_true]

/-- The texels that an abandoned command may leave changed: its output and those the host raced on. -/
def State.abandonedTexels (s : State) : List Nat :=
  (footprint s.running s).writes.flatMap Region.indices ++ s.racedTexels

/-- The bytes that an abandoned command may leave changed: its range and those the host raced on. -/
def State.abandonedBytes (s : State) : List Nat :=
  (footprint s.running s).hmemWrites.flatMap Region.indices ++ s.racedBytes

theorem mem_indices_flatMap {rs : List Region} {a : Nat} :
    a ∈ rs.flatMap Region.indices ↔ ∃ r ∈ rs, r.has a = true := by
  simp only [List.mem_flatMap, Region.mem_indices, Region.has_iff]

/-- An address in none of the regions and not on the list of races is not abandoned. -/
theorem not_mem_indices_append {rs : List Region} {raced : List Nat} {a : Nat}
    (hout : ∀ r ∈ rs, r.has a = false) (hraced : a ∉ raced) :
    a ∉ rs.flatMap Region.indices ++ raced := by
  rw [List.mem_append, mem_indices_flatMap]
  rintro (⟨r, hr, ha⟩ | ha)
  · exact Bool.false_ne_true ((hout r hr).symm.trans ha)
  · exact hraced ha

/-- TMEM after a command is abandoned, texel by texel (R444). -/
theorem find_abandon_tmem (s : State) (a : Nat) : s.abandon.tmem.find a =
    if a ∈ s.abandonedTexels then
      some (abandonedTexel s.running { s with lattice := s.params.lattice } a)
    else s.tmem.find a :=
  Memory.find_writeAll_map _ _ _ _

/-- HMEM after a command is abandoned, byte by byte (R444). -/
theorem find_abandonedHmem (s : State) (a : Nat) : (abandonedHmem s.running s).find a =
    if a ∈ s.abandonedBytes then some (Config.freeByte (s.draws + 1) a) else s.hmem.find a :=
  Memory.find_writeAll_map _ _ _ _

/-- A soft reset leaves every texel that is not abandoned. -/
theorem softReset_find_tmem {a : Nat} (h : a ∉ s.abandonedTexels) :
    s.softReset.tmem.find a = s.tmem.find a := by
  rcases softReset_tmem s with hm | hm <;> rw [hm]
  rw [find_abandon_tmem, if_neg h]

/-- A soft reset leaves every byte that is not abandoned. -/
theorem softReset_find_hmem {a : Nat} (h : a ∉ s.abandonedBytes) :
    s.softReset.hmem.find a = s.hmem.find a := by
  rcases softReset_hmem s with hm | hm <;> rw [hm]
  rw [find_abandonedHmem, if_neg h]

end

/-- In the step of a soft reset a CMD write is ignored (R443). -/
theorem writeReg_cmd_resetting (m : StepMarks) (s : State) (c : Word) :
    writeReg true m s .cmd c = (s, m) := rfl

/-- A step with a soft reset is its accesses alone: the engine's update is discarded (R443). -/
theorem step_of_softResets {s : State} {ops : List HostOp} {q : List HostCycle}
    (hq : s.hostq = .accesses ops :: q) (hport : ops.map (HostOp.atPort s.params.hmsynBase) = ops)
    (hreset : ops.any HostOp.isSoftReset = true) :
    step s = runOps true ops StepMarks.none s.popInput := by
  have hnext : s.nextCycle = .accesses ops := by
    rw [State.nextCycle, hq, List.headD_cons, HostCycle.atPort_accesses, hport]
  have hresets : (HostCycle.accesses ops).resets = true := hreset
  rw [step, machineStep, hnext, if_pos hresets, hostTick]

theorem isSoftReset_of_srst {v : Word} (hv : v.getLsbD 1 = true) :
    HostOp.isSoftReset (.write 0x004 .b32 v) = true := by
  rw [HostOp.isSoftReset, regAt_ctrl, hv]
  rfl

section
variable {s : State} {v : Word} (hv : v.getLsbD 1 = true) (c : Word) {q : List HostCycle}
include hv

/-- A CMD write after the soft reset in its step is ignored (R443). -/
theorem step_softReset_cmd
    (hq : s.hostq = .accesses [.write 0x004 .b32 v, .write 0x00C .b32 c] :: q) :
    step s = .next s.popInput.softReset := by
  have hreset : [HostOp.write 0x004 .b32 v, .write 0x00C .b32 c].any HostOp.isSoftReset = true := by
    rw [List.any_cons, isSoftReset_of_srst hv, Bool.true_or]
  rw [step_of_softResets hq rfl hreset, runOps_write regAt_ctrl, writeReg_ctrl_reset hv,
    runOps_write regAt_cmd, writeReg_cmd_resetting, runOps]

/-- A CMD write before the soft reset in its step is ignored (R443). -/
theorem step_cmd_softReset
    (hq : s.hostq = .accesses [.write 0x00C .b32 c, .write 0x004 .b32 v] :: q) :
    step s = .next s.popInput.softReset := by
  have hreset : [HostOp.write 0x00C .b32 c, .write 0x004 .b32 v].any HostOp.isSoftReset = true := by
    rw [List.any_cons, List.any_cons, isSoftReset_of_srst hv, Bool.true_or, Bool.or_true]
  rw [step_of_softResets hq rfl hreset, runOps_write regAt_cmd, writeReg_cmd_resetting,
    runOps_write regAt_ctrl, writeReg_ctrl_reset hv, runOps]

end

/-- Settles O8: the step is the soft reset, with a CMD write before or after it or with none. -/
theorem softResetStep : Obligations.SoftResetStep := by
  intro s v c q hv hq
  have hpop : ∀ ops, State.popInput { s with hostq := .accesses ops :: q } = s.popInput := fun ops => by
    simp only [State.popInput, hq, List.tail_cons]
  refine ⟨⟨s.popInput.softReset, step_softReset hv hq, softReset_resetRegisters _,
    (softReset_resetRegisters _).irq, softReset_params _, ?_, fun hidle => ?_, fun a hout hraced => ?_,
    fun a hout hraced => ?_⟩, ?_, ?_⟩
  · rw [softReset_hostq, popInput_hostq, hq, List.tail_cons]
  · exact ⟨softReset_tmem_idle hidle, softReset_hmem_idle hidle⟩
  · refine softReset_find_tmem (s := s.popInput) (not_mem_indices_append ?_ hraced)
    rw [footprint_popInput]
    exact hout
  · refine softReset_find_hmem (s := s.popInput) (not_mem_indices_append ?_ hraced)
    rw [footprint_popInput]
    exact hout
  · rw [step_softReset_cmd hv c rfl, step_softReset hv hq, hpop]
  · rw [step_cmd_softReset hv c rfl, step_softReset hv hq, hpop]

/-! ### The output of an abandoned command (R444) -/

/-- Where the host has raced on nothing, nothing depends on a race. -/
theorem taintedTexels_noRace {s : State} (h : s.NoRace) (i : Instr) : taintedTexels i s = [] := by
  obtain ⟨htexels, hbytes⟩ := h
  have hnone : ∀ r, dependentTexels i s r = [] := fun r => by
    simp [dependentTexels, htexels, hbytes]
  simp [taintedTexels, htexels, hnone]

/-- The value at a place of a list that is inside it, modulo its length, is a value of the list. -/
theorem getD_mod_length_mem {α : Type} (x : α) (l : List α) (n : Nat) (d : α) :
    (x :: l).getD (n % (x :: l).length) d ∈ x :: l := by
  have hlt : n % (x :: l).length < (x :: l).length := Nat.mod_lt _ (Nat.succ_pos _)
  rw [List.getD_eq_getElem _ _ hlt]
  exact List.getElem_mem hlt

/-- Without a race an abandoned texel has its old value or the one of a stage, masked (R444). -/
theorem abandonedTexel_noRace {s : State} (h : s.NoRace) (i : Instr) (a : Nat) :
    ∃ v, abandonedTexel i s a = v &&& headroomMask ∧
      (v = tread s a ∨ ∃ m ∈ stageImages i s, v = treadIn s.draws m a) := by
  refine ⟨_, if_neg (by simp [taintedTexels_noRace h]), ?_⟩
  refine (List.mem_cons.1 (getD_mod_length_mem _ _ _ _)).imp_right fun hv => ?_
  obtain ⟨m, hm, he⟩ := List.mem_map.1 hv
  exact ⟨m, hm, he.symm⟩

/-- Settles O9: a texel of the output is one of the abandoned texels. -/
theorem abandonedRegion : Obligations.AbandonedRegion := by
  intro s a r hbusy hrace hr ha
  refine ⟨?_, fun n => congrArg Desc.valid (DescTable.at_empty n)⟩
  have hmem : a ∈ s.abandonedTexels := List.mem_append_left _ (mem_indices_flatMap.2 ⟨r, hr, ha⟩)
  obtain ⟨v, hv, hcases⟩ :=
    abandonedTexel_noRace (s := { s with lattice := s.params.lattice }) hrace s.running a
  refine ⟨v, ?_, hcases⟩
  rw [softReset_tmem_busy hbusy, find_abandon_tmem, if_pos hmem, hv]

end Sys2Proof.Machine
end

section
/-! PROOFS. Races at completion (R453, U6), and texels outside a running command's regions (R103, R453). -/

namespace Sys2Proof.Machine

/-! ### The bytes that a command stores (R366, R370) -/

section
variable {s work t : State} {e : Option ErrCode}

/-- A command without work on HMEM leaves it, with success or with an error. -/
theorem runCommand_sameHmem (h : runCommand s e work = .next t) (hwork : work.hmem = s.hmem) :
    t.hmem = s.hmem := by
  rcases runCommand_cases s e work t h with ⟨c, -, rfl⟩ | ⟨-, rfl⟩
  · rfl
  · exact hwork

/-- A transfer to HMEM makes its stores, or none where its check fails (R402). -/
theorem runCommand_storeBytes {l : List ByteStore} (h : runCommand s e (storeBytes s l) = .next t) :
    t.hmem = s.hmem.writeAll (storedCells (if e.isSome then [] else l)) := by
  rcases runCommand_cases s e _ t h with ⟨c, rfl, rfl⟩ | ⟨rfl, rfl⟩ <;> rfl

end

/-- A command leaves HMEM with its byte stores made. -/
theorem exec_hmem {i : Instr} {s t : State} (h : exec i s = .next t) :
    t.hmem = s.hmem.writeAll (storedCells (byteStores i s)) := by
  cases i with
  | exportBuf src => exact runCommand_storeBytes h
  | rawfill src => exact runCommand_storeBytes h
  | nop => exact runCommand_sameHmem (e := none) (work := s) h rfl
  | release d => exact runCommand_sameHmem (e := none) h rfl
  | illegalImport3 => exact runCommand_sameHmem (e := some .illegalOp) (work := s) h rfl
  | illegal op => exact runCommand_sameHmem (e := some .illegalOp) (work := s) h rfl
  | _ => exact runCommand_sameHmem h rfl

/-! ### What a race leaves at completion (R453, U6) -/

section
variable (i : Instr) (s t : State)

@[simp] theorem applyRaces_irqEn : (applyRaces i s t).irqEn = t.irqEn := by
  rcases applyRaces_eq i s t with h | h <;> rw [h]
@[simp] theorem applyRaces_taddr : (applyRaces i s t).taddr = t.taddr := by
  rcases applyRaces_eq i s t with h | h <;> rw [h]
@[simp] theorem applyRaces_rdlatch : (applyRaces i s t).rdlatch = t.rdlatch := by
  rcases applyRaces_eq i s t with h | h <;> rw [h]
@[simp] theorem applyRaces_wrlatch : (applyRaces i s t).wrlatch = t.wrlatch := by
  rcases applyRaces_eq i s t with h | h <;> rw [h]
@[simp] theorem applyRaces_par : (applyRaces i s t).par = t.par := by
  rcases applyRaces_eq i s t with h | h <;> rw [h]

end

/-- Two runs of writes, over the same list, that write the same at an address leave the same there. -/
theorem Memory.find_writeAll_congr {α β : Type} {m m' : Memory α} {c : Nat} {l : List β}
    {f g : β → Nat × α} (hm : m.find c = m'.find c) (haddr : ∀ x ∈ l, (f x).1 = (g x).1)
    (hval : ∀ x ∈ l, (g x).1 = c → f x = g x) :
    (m.writeAll (l.map f)).find c = (m'.writeAll (l.map g)).find c := by
  induction l generalizing m m' with
  | nil => exact hm
  | cons x l ih =>
    obtain ⟨hx, haddr⟩ := List.forall_mem_cons.1 haddr
    obtain ⟨hvx, hval⟩ := List.forall_mem_cons.1 hval
    refine ih ?_ haddr hval
    by_cases hc : (g x).1 = c
    · rw [hvx hc, Memory.find_write, Memory.find_write, hm]
    · rw [Memory.find_write_other _ _ (hx ▸ Ne.symm hc), Memory.find_write_other _ _ (Ne.symm hc), hm]

section
variable {α : Type} (m : Memory α)

/-- A run of writes to an address it names hides what the memory held there. -/
theorem Memory.find_writeAll_named (m' : Memory α) {l : List (Nat × α)} {c : Nat}
    (h : ∃ p ∈ l, p.1 = c) : (m.writeAll l).find c = (m'.writeAll l).find c := by
  induction l generalizing m m' with
  | nil => simp at h
  | cons p l ih =>
    rw [Memory.writeAll_cons, Memory.writeAll_cons]
    by_cases hl : ∃ q ∈ l, q.1 = c
    · exact ih _ _ hl
    · have hp : p.1 = c := by simpa [hl] using h
      have hother : ∀ q ∈ l, q.1 ≠ c := fun q hq he => hl ⟨q, hq, he⟩
      rw [Memory.find_writeAll_other _ _ _ hother, Memory.find_writeAll_other _ _ _ hother, hp,
        Memory.find_write_same, Memory.find_write_same]

/-- Making the same run of writes twice is making it once. -/
theorem Memory.find_writeAll_twice (l : List (Nat × α)) (c : Nat) :
    ((m.writeAll l).writeAll l).find c = (m.writeAll l).find c := by
  by_cases hl : ∃ q ∈ l, q.1 = c
  · exact Memory.find_writeAll_named _ _ hl
  · exact Memory.find_writeAll_other _ _ _ fun q hq he => hl ⟨q, hq, he⟩

end

section
variable {i : Instr} {s t : State} {a : Nat}

/-- A texel that no race reaches is as the command leaves it. -/
theorem applyRaces_find_tmem (h : a ∉ taintedTexels i s) :
    (applyRaces i s t).tmem.find a = t.tmem.find a := by
  rcases applyRaces_eq i s t with he | he <;> rw [he]
  exact (Memory.find_writeAll_map _ _ _ _).trans (if_neg h)

/-- A byte with no raced texel among those stored at it is stored again with the value it has. -/
theorem find_taintedStores (h : exec i s = .next t)
    (hsrc : ∀ st ∈ byteStores i s, st.addr = a → st.src ∉ s.racedTexels) :
    (t.hmem.writeAll (taintedStores i s)).find a = t.hmem.find a := by
  have hsame : (t.hmem.writeAll (taintedStores i s)).find a =
      (t.hmem.writeAll (storedCells (byteStores i s))).find a := by
    refine Memory.find_writeAll_congr rfl (fun _ _ => rfl) fun st hst ha => ?_
    have hclean : s.racedTexels.contains st.src = false := by simpa using hsrc st hst ha
    simp only [hclean, Bool.false_eq_true, if_false]
  rw [hsame, exec_hmem h, Memory.find_writeAll_twice]

/-- A byte that no race reaches is as the command leaves it. -/
theorem applyRaces_find_hmem (h : exec i s = .next t) (hbyte : a ∉ s.racedBytes)
    (hsrc : ∀ st ∈ byteStores i s, st.addr = a → st.src ∉ s.racedTexels) :
    (applyRaces i s t).hmem.find a = t.hmem.find a := by
  rcases applyRaces_eq i s t with he | he <;> rw [he]
  exact ((Memory.find_writeAll_map _ _ _ _).trans (if_neg hbyte)).trans (find_taintedStores h hsrc)

end

theorem runToCompletion_of_exec {s t : State} (h : exec s.running s = .next t) :
    runToCompletion s = .next (applyRaces s.running s t) := by
  rw [runToCompletion, h]

/-- Settles O20: a race keeps every register, and changes a memory only where it reaches. -/
theorem raceConfined : Obligations.RaceConfined := by
  intro s t h
  refine ⟨fun hrace => ?_, applyRaces s.running s t, runToCompletion_of_exec h, applyRaces_status _ _ _,
    applyRaces_desc _ _ _, applyRaces_par _ _ _, applyRaces_cmd _ _ _, applyRaces_taddr _ _ _,
    applyRaces_rdlatch _ _ _, applyRaces_wrlatch _ _ _, applyRaces_irqEn _ _ _, applyRaces_snap _ _ _,
    applyRaces_lattice _ _ _, fun a ha => applyRaces_find_tmem ha,
    fun b hb hsrc => applyRaces_find_hmem h hb hsrc⟩
  rw [runToCompletion_of_exec h, applyRaces_noRace hrace]

/-! ### A memory with one address stored beforehand -/

/-- An index of a region is no index that the region misses. -/
theorem Region.ne_of_misses {r : Region} {a c : Nat} (hout : r.has a = false) (hc : r.has c = true) :
    c ≠ a := by
  rintro rfl
  exact Bool.false_ne_true (hout.symm.trans hc)

/-- An offset below the count is an index of the region. -/
theorem Region.has_offset {r : Region} {p : Nat} (hp : p < r.count) : r.has (r.base + p) = true :=
  (Region.has_iff _ _).2 ⟨Nat.le_add_right _ _, Nat.add_lt_add_left hp _⟩

/-- Memory `m'` lists `v` at address `a`, and elsewhere what `m` lists. -/
def Memory.ListsToo {α : Type} (m : Memory α) (a : Nat) (v : α) (m' : Memory α) : Prop :=
  ∀ c, m'.find c = if c = a then some v else m.find c

section
variable {α : Type} {m m' : Memory α} {a : Nat} {v : α}

theorem Memory.listsToo_write (m : Memory α) (a : Nat) (v : α) : m.ListsToo a v (m.write a v) :=
  m.find_write a v

/-- Runs of the same stores at other addresses, one in each memory, change nothing of this. -/
theorem Memory.ListsToo.writeAll_map (h : m.ListsToo a v m') {β : Type} {l : List β}
    {f g : β → Nat × α} (hsame : ∀ x ∈ l, g x = f x) (hother : ∀ x ∈ l, (f x).1 ≠ a) :
    (m.writeAll (l.map f)).ListsToo a v (m'.writeAll (l.map g)) := by
  induction l generalizing m m' with
  | nil => exact h
  | cons x l ih =>
    obtain ⟨hx, hsame⟩ := List.forall_mem_cons.1 hsame
    obtain ⟨hxa, hother⟩ := List.forall_mem_cons.1 hother
    refine ih (fun c => ?_) hsame hother
    rw [hx, Memory.find_write, Memory.find_write, h c]
    split
    · next hc => rw [if_neg (hc ▸ hxa)]
    · rfl

/-- Fills of a region that misses the address, with the same values, change nothing of this. -/
theorem Memory.ListsToo.fill (h : m.ListsToo a v m') {r : Region} {f g : Nat → α}
    (hout : r.has a = false) (hsame : ∀ p, p < r.count → g p = f p) :
    (m.fill r.base r.count f).ListsToo a v (m'.fill r.base r.count g) :=
  h.writeAll_map (fun p hp => by rw [hsame p (List.mem_range.1 hp)])
    (fun _ hp => Region.ne_of_misses hout (Region.has_offset (List.mem_range.1 hp)))

theorem Memory.ListsToo.find_same (h : m.ListsToo a v m') : m'.find a = some v := by
  rw [h a, if_pos rfl]

theorem Memory.ListsToo.find_other (h : m.ListsToo a v m') {c : Nat} (hc : c ≠ a) :
    m'.find c = m.find c := by
  rw [h c, if_neg hc]

theorem Memory.ListsToo.treadIn {m m' : Memory Texel} {v : Texel} (h : m.ListsToo a v m') {c : Nat}
    (hc : c ≠ a) (n : Nat) : treadIn n m' c = treadIn n m c := by
  rw [Machine.treadIn, h.find_other hc, Machine.treadIn]

end

/-! ### A command with a texel changed outside its regions (R453) -/

/-- The state with texel `a` changed to `v`. -/
def State.withTexel (s : State) (a : Nat) (v : Texel) : State := { s with tmem := s.tmem.write a v }

/-- Texel `a` lies in no region of the footprint. -/
def Footprint.Misses (fp : Footprint) (a : Nat) : Prop :=
  (∀ r ∈ fp.reads, r.has a = false) ∧ ∀ r ∈ fp.writes, r.has a = false

/-- The outcome `o` of a command with texel `a` changed to `v` is `t`, its outcome without the change, with
that texel changed. -/
def Undisturbed (a : Nat) (v : Texel) (t : State) (o : Host.Outcome State Fault Refusal) : Prop :=
  ∃ t', o = .next t' ∧ t.tmem.ListsToo a v t'.tmem ∧ t'.hmem = t.hmem ∧ t'.desc = t.desc ∧
    t'.status = t.status

section
variable {s t : State} {a : Nat} {v : Texel}

theorem tread_withTexel {c : Nat} (hc : c ≠ a) : tread (s.withTexel a v) c = tread s c :=
  (s.tmem.listsToo_write a v).treadIn hc s.draws

/-- A texel of a buffer that misses `a` reads as before. -/
theorem tread_withTexel_region {d : Desc} (hout : d.region.has a = false) {p : Nat}
    (hp : p < d.count) : tread (s.withTexel a v) (d.base.toNat + p) = tread s (d.base.toNat + p) :=
  tread_withTexel (Region.ne_of_misses hout (Region.has_offset hp))

/-- A texel outside every region in flight is one that the footprint misses. -/
theorem misses_of_not_inFlight (hbusy : s.status.busy = true) (h : s.texelInFlight a = false) :
    (footprint s.running s).Misses a := by
  rw [State.texelInFlight, hbusy, Bool.true_and, List.any_eq_false] at h
  exact ⟨fun r hr => Bool.eq_false_iff.2 (h r (List.mem_append_left _ hr)),
    fun r hr => Bool.eq_false_iff.2 (h r (List.mem_append_right _ hr))⟩

/-- A command whose checks pass has the footprint of its work (R402). -/
theorem Footprint.Misses.of_unless {fp : Footprint} {e : Option ErrCode} (h : (fp.unless e).Misses a)
    (he : e = Option.none) : fp.Misses a := by
  subst he
  exact h

/-- A command is undisturbed if its checks are the same and its work, where they pass, is. -/
theorem runCommand_undisturbed {e : Option ErrCode} {work work' : State}
    (h : runCommand s e work = .next t) (htmem : e = none → work.tmem.ListsToo a v work'.tmem)
    (hhmem : e = none → work'.hmem = work.hmem) (hdesc : work'.desc = work.desc)
    (hstatus : work'.status = work.status) :
    Undisturbed a v t (runCommand (s.withTexel a v) e work') := by
  rcases runCommand_cases s e work t h with ⟨c, rfl, rfl⟩ | ⟨rfl, rfl⟩
  · exact ⟨_, rfl, s.tmem.listsToo_write a v, rfl, rfl, rfl⟩
  · exact ⟨_, rfl, htmem rfl, hhmem rfl, hdesc, congrArg (·.complete none) hstatus⟩

/-- A command that writes no texel and whose stores in HMEM are the same. -/
theorem runCommand_undisturbed_tmem {e : Option ErrCode} {desc : DescTable} {hmem hmem' : Memory Byte}
    (h : runCommand s e { s with desc := desc, hmem := hmem } = .next t) (hhmem : e = none → hmem' = hmem) :
    Undisturbed a v t (runCommand (s.withTexel a v) e
      { s.withTexel a v with desc := desc, hmem := hmem' }) :=
  runCommand_undisturbed h (fun _ => s.tmem.listsToo_write a v) hhmem rfl rfl

/-- A command that makes a new buffer whose texels are the same. -/
theorem produce_undisturbed {e : Option ErrCode} {d : Slot} {w h : Nat} {px px' : Nat → Nat → Texel}
    (hrun : runCommand s e (produce s d w h px) = .next t)
    (hout : e = none → (outRegion s d (w * h)).has a = false)
    (hpx : e = none → ∀ p, p < w * h → px' (p % w) (p / w) = px (p % w) (p / w)) :
    Undisturbed a v t (runCommand (s.withTexel a v) e (produce (s.withTexel a v) d w h px')) := by
  refine runCommand_undisturbed hrun (fun he => ?_) (fun _ => rfl) rfl rfl
  exact (s.tmem.listsToo_write a v).fill (hout he) (hpx he)

/-- A command that edits a buffer in place, each texel on its own. -/
theorem editInPlace_undisturbed {e : Option ErrCode} {d : Slot} {f : Texel → Texel}
    (h : runCommand s e (editInPlace s d f) = .next t)
    (hout : e = none → (s.snap.desc.at d).region.has a = false) :
    Undisturbed a v t (runCommand (s.withTexel a v) e (editInPlace (s.withTexel a v) d f)) := by
  refine runCommand_undisturbed h (fun he => ?_) (fun _ => rfl) rfl rfl
  exact (s.tmem.listsToo_write a v).fill (hout he)
    fun p hp => congrArg f (tread_withTexel_region (hout he) hp)

/-! ### The reads of each command -/

/-- The wrapped index of NORMAL is a texel of its buffer (R241). -/
theorem wrapIndex_inside {d : Desc} (hw : 0 < d.w.toNat) (hh : 0 < d.h.toNat) (x y : Int) :
    d.region.has (wrapIndex d x y) = true := by
  have hx : (x % d.w.toNat).toNat < d.w.toNat := by
    have := Int.emod_lt_of_pos x (Int.natCast_pos.2 hw)
    omega
  have hy : (y % d.h.toNat).toNat < d.h.toNat := by
    have := Int.emod_lt_of_pos y (Int.natCast_pos.2 hh)
    omega
  have hlt := rowMajor_lt hx hy
  rw [Region.has_iff, wrapIndex, Desc.region, Desc.count]
  constructor <;> simp only <;> omega

theorem normalTexel_withTexel {d : Desc} (hout : d.region.has a = false) (hw : 0 < d.w.toNat)
    (hh : 0 < d.h.toNat) (z3d tan sharp : Bool) (x y : Nat) :
    normalTexel (s.withTexel a v) d z3d tan sharp x y = normalTexel s d z3d tan sharp x y := by
  have hheight : heightAt (s.withTexel a v) d = heightAt s d := by
    funext x y
    rw [heightAt, tread_withTexel (Region.ne_of_misses hout (wrapIndex_inside hw hh x y)), heightAt]
  have hstrength : strengthOf (s.withTexel a v) = strengthOf s := rfl
  simp only [normalTexel, diffX, diffY, hheight, hstrength]

/-- The fold of a MERGE reads the texels of its list only (R320). -/
theorem mergeFold_withTexel {d : Slot} {n p : Nat} (op : Nat → Nat → Nat) (he : mergeError s d n = none)
    (hout : ∀ q ∈ mergeDescs s n, q.region.has a = false)
    (hp : p < (s.snap.desc.at (mlistAt s 0)).count) :
    mergeFold (s.withTexel a v) op n p = mergeFold s op n p := by
  obtain ⟨hsizes, -⟩ := mergeError_none he
  have hread : ∀ q ∈ mergeDescs s n,
      tread (s.withTexel a v) (q.base.toNat + p) = tread s (q.base.toNat + p) := by
    intro q hq
    obtain ⟨-, hw, hh⟩ := hsizes q hq
    refine tread_withTexel_region (hout q hq) ?_
    rwa [Desc.count, hw, hh]
  obtain ⟨hfirst, hrest⟩ := List.forall_mem_cons.1 hread
  rw [mergeFold_eq, mergeFold_eq]
  refine congrArg₂ (List.foldl (zipLanes op)) hfirst (List.map_congr_left fun q hq => ?_)
  exact hrest q hq

/-- The bytes of a pixel come from the pixel's texel. -/
theorem pixelStores_withTexel {src : Nat} (hsrc : src ≠ a) (addr : Nat) (lanes : List Nat) :
    pixelStores (s.withTexel a v) src addr lanes = pixelStores s src addr lanes := by
  rw [pixelStores, tread_withTexel hsrc, pixelStores]

/-- The stores of a transfer come from the texels of its buffer (R366, R370). -/
theorem bufferStores_withTexel {d : Desc} (hout : d.region.has a = false) (addr : Nat → Nat)
    (order : List Nat) : bufferStores (s.withTexel a v) d.base.toNat d.count addr order =
      bufferStores s d.base.toNat d.count addr order := by
  refine List.flatMap_congr fun p hp => pixelStores_withTexel ?_ _ _
  exact Region.ne_of_misses hout (Region.has_offset (List.mem_range.1 hp))

/-- A pass of GLOW reads and writes the texels of its buffer only (R292). -/
theorem glowPass_withTexel {d : Desc} (hout : d.region.has a = false) (curve rect : Bool)
    {m m' : Memory Texel} (hm : m.ListsToo a v m') (p : Pass) :
    (glowPass s d curve rect m p).ListsToo a v (glowPass (s.withTexel a v) d curve rect m' p) := by
  have hne : ∀ {Q : Nat → Bool} {k}, k ∈ (List.range d.count).filter Q → d.base.toNat + k ≠ a :=
    fun hk => Region.ne_of_misses hout (Region.has_offset (List.mem_range.1 (List.mem_filter.1 hk).1))
  refine hm.writeAll_map (fun k hk => ?_) (fun _ => hne)
  rw [← hm.treadIn (hne hk) s.draws]
  rfl

theorem glowPasses_withTexel {d : Desc} (hout : d.region.has a = false) (curve rect : Bool)
    (ps : List Pass) {m m' : Memory Texel} (hm : m.ListsToo a v m') :
    (ps.foldl (glowPass s d curve rect) m).ListsToo a v
      (ps.foldl (glowPass (s.withTexel a v) d curve rect) m') := by
  induction ps generalizing m m' with
  | nil => exact hm
  | cons p ps ih => exact ih (glowPass_withTexel hout curve rect hm p)

/-! ### Each command -/

/-- The two sizes of a buffer with a texel are not 0. -/
theorem sizes_pos {w h p : Nat} (hp : p < w * h) : 0 < w ∧ 0 < h := by
  have hpos := Nat.zero_lt_of_lt hp
  exact ⟨Nat.pos_of_mul_pos_right hpos, Nat.pos_of_mul_pos_left hpos⟩

theorem runMerge_undisturbed {op : Nat → Nat → Nat} {d : Slot} {n : Nat}
    (h : runMerge op d n s = .next t) (hmiss : (mergeFootprint s d n).Misses a) :
    Undisturbed a v t (runMerge op d n (s.withTexel a v)) := by
  refine produce_undisturbed h (fun he => ?_) (fun he p hp => ?_)
  · exact (hmiss.of_unless he).2 _ List.mem_cons_self
  · obtain ⟨hreads, -⟩ := hmiss.of_unless he
    refine mergeFold_withTexel op he (fun q hq => hreads _ (List.mem_map_of_mem hq)) ?_
    exact (Nat.div_add_mod' p _).trans_lt hp

theorem runColorize_undisturbed {f : Texel → Texel} {d : Slot} (h : runColorize f d s = .next t)
    (hmiss : (colorizeFootprint s d).Misses a) :
    Undisturbed a v t (runColorize f d (s.withTexel a v)) :=
  editInPlace_undisturbed h fun he => (hmiss.of_unless he).2 _ List.mem_cons_self

/-- COLORIZE without an operation touches no texel (R336). -/
theorem runColorizeNone_undisturbed {d : Slot} (h : runColorizeNone d s = .next t) :
    Undisturbed a v t (runColorizeNone d (s.withTexel a v)) :=
  runCommand_undisturbed_tmem (desc := s.desc) (hmem := s.hmem) h fun _ => rfl

theorem runImport_undisturbed {n : Nat} {expand : State → Nat → Texel} {d : Slot}
    (hexpand : expand (s.withTexel a v) = expand s) (h : runImport n expand d s = .next t)
    (hmiss : (importFootprint s d n).Misses a) :
    Undisturbed a v t (runImport n expand d (s.withTexel a v)) :=
  produce_undisturbed h (fun he => (hmiss.of_unless he).2 _ List.mem_cons_self)
    (fun _ _ _ => congrFun hexpand _)

theorem runIllegal_undisturbed (h : runIllegal s = .next t) :
    Undisturbed a v t (runIllegal (s.withTexel a v)) :=
  runCommand_undisturbed_tmem (desc := s.desc) (hmem := s.hmem) h fun _ => rfl

/-- A command ends alike with a texel changed that it does not touch, and leaves that texel (R453). -/
theorem exec_undisturbed {i : Instr} (h : exec i s = .next t) (hmiss : (footprint i s).Misses a) :
    Undisturbed a v t (exec i (s.withTexel a v)) := by
  cases i with
  | nop => exact runCommand_undisturbed_tmem (e := none) (desc := s.desc) (hmem := s.hmem) h fun _ => rfl
  | release d => exact runCommand_undisturbed_tmem (e := none) (hmem := s.hmem) h fun _ => rfl
  | illegalImport3 => exact runIllegal_undisturbed h
  | illegal op => exact runIllegal_undisturbed h
  | synth d mode =>
    exact produce_undisturbed h (fun he => (hmiss.of_unless he).2 _ List.mem_cons_self)
      (fun _ _ _ => rfl)
  | grad d mode =>
    exact produce_undisturbed h (fun he => (hmiss.of_unless he).2 _ List.mem_cons_self)
      (fun _ _ _ => rfl)
  | normal d src z3d tan sharp =>
    refine produce_undisturbed h (fun he => (hmiss.of_unless he).2 _ List.mem_cons_self)
      (fun he p hp => ?_)
    obtain ⟨hw, hh⟩ := sizes_pos hp
    exact normalTexel_withTexel ((hmiss.of_unless he).1 _ List.mem_cons_self) hw hh _ _ _ _ _
  | copy d src =>
    refine produce_undisturbed h (fun he => (hmiss.of_unless he).2 _ List.mem_cons_self)
      (fun he p hp => ?_)
    refine tread_withTexel_region ((hmiss.of_unless he).1 _ List.mem_cons_self) ?_
    rwa [Nat.div_add_mod']
  | glow d wrapx wrapy curve rect =>
    exact runCommand_undisturbed h
      (fun he => glowPasses_withTexel ((hmiss.of_unless he).2 _ List.mem_cons_self) curve rect _
        (s.tmem.listsToo_write a v)) (fun _ => rfl) rfl rfl
  | mergeAdd d n => exact runMerge_undisturbed h hmiss
  | mergeSub d n => exact runMerge_undisturbed h hmiss
  | mergeMul d n => exact runMerge_undisturbed h hmiss
  | mergeAdd3 d n => exact runMerge_undisturbed h hmiss
  | colorizeMul d => exact runColorize_undisturbed h hmiss
  | colorizeAdd d => exact runColorize_undisturbed h hmiss
  | colorizeSub d => exact runColorize_undisturbed h hmiss
  | colorizeGray d => exact runColorize_undisturbed h hmiss
  | colorizeInv d => exact runColorize_undisturbed h hmiss
  | colorizeNop5 d => exact runColorizeNone_undisturbed h
  | colorizeNop6 d => exact runColorizeNone_undisturbed h
  | colorizeNop7 d => exact runColorizeNone_undisturbed h
  | importG d => exact runImport_undisturbed (expand := expandG) rfl h hmiss
  | importRgb d => exact runImport_undisturbed (expand := expandRgb) rfl h hmiss
  | importRgba d => exact runImport_undisturbed (expand := expandRgba) rfl h hmiss
  | exportBuf src =>
    refine runCommand_undisturbed_tmem (desc := s.desc) h fun he => ?_
    have hout := (hmiss.of_unless he).1 _ List.mem_cons_self
    exact congrArg (fun l => s.hmem.writeAll (storedCells l)) (bufferStores_withTexel hout _ _)
  | rawfill src =>
    refine runCommand_undisturbed_tmem (desc := s.desc) h fun he => ?_
    have hout := (hmiss.of_unless he).1 _ List.mem_cons_self
    exact congrArg (fun l => s.hmem.writeAll (storedCells l)) (bufferStores_withTexel hout _ _)

end

/-- Settles O21: the texel is in no region of the command's footprint. -/
theorem bystanderTexel : Obligations.BystanderTexel := by
  intro s t a v hbusy hout h
  obtain ⟨t', ht', htmem, hhmem, hdesc, hstatus⟩ :=
    exec_undisturbed (v := v) h (misses_of_not_inFlight hbusy hout)
  exact ⟨t', ht', htmem.find_same, fun b hb => htmem.find_other hb, hhmem, hdesc, hstatus⟩

end Sys2Proof.Machine
end
